-- ==== Sys2Proof/Word.lean ====
section
/-! DEFINITION. The word types of the engine and the fixed sizes of the ring (spec/00_scope.md R7, R8).
Every quantity is unsigned (R12). -/

namespace Sys2Proof

abbrev Byte := BitVec 8
abbrev U16 := BitVec 16
abbrev U32 := BitVec 32
abbrev U64 := BitVec 64

/-- A finite map keyed by numbers, as plain data: pairs in strictly rising key order. -/
abbrev SMap (β : Type) := List (Nat × β)

/-- `QSIZE`: entries of the descriptor table, of both rings and of the Slot Pool (R7). -/
abbrev qsize : Nat := 128

/-- `PAGE` (R7). -/
abbrev pageBytes : Nat := 4096

/-- `AVAIL_OFF = DESC_BYTES * QSIZE` (R7). -/
abbrev availOff : Nat := 2048

/-- `USED_OFF`: the end of the availability ring rounded up to a page (R7). -/
abbrev usedOff : Nat := 4096

/-- `RING_BYTES = USED_OFF + 6 + 8 * QSIZE` (R7). -/
abbrev ringBytes : Nat := 5126

/-- `RING_PAGES` (R7). -/
abbrev ringPages : Nat := 2

end Sys2Proof
end

