-- ==== Sys2Proof/Syntax.lean ====
section
/-! DEFINITION. The 18 commands (spec/30_encoding.md R114, spec/opcode_table.json), one constructor per row. A command
carries the `IMM16` operand exactly where R113 gives it one; ignored fields are not part of the term (R117). The other
operands are in the issuing port's registers. -/

namespace Sys2Proof

inductive Instr where
  /-- `negotiate_features`; mask in A0 (R141). -/
  | negotiate
  /-- `configure_ring`; IMM16 is the queue index (R142). -/
  | cfgring (index : U16)
  /-- `mark_driver_ready` (R143). -/
  | drvok
  /-- `notify`; IMM16 is the queue index (R144). -/
  | notify (queue : U16)
  /-- `pending()`/status-check (R145). -/
  | ipend
  /-- construction of the Ring Transport and Slot Pool; pool base in A0 (R162). -/
  | qinit
  /-- `allocate_slot` (R161). -/
  | alloc
  /-- `add_descriptor`; IMM16 is the flags, A0 the address, A1 the length (R163). -/
  | adddesc (flags : U16)
  /-- `publish` (R164). -/
  | publish
  /-- `poll_pending` (R165). -/
  | poll
  /-- `take_completion` (R166). -/
  | take
  /-- `get`; IMM16 is the slot (R180). -/
  | get (slot : U16)
  /-- `install`; IMM16 is the slot, PBUF the payload (R181). -/
  | install (slot : U16)
  /-- signal a slot's completion primitive (R182). -/
  | signal (slot : U16)
  /-- block on a slot's completion primitive (R184). -/
  | wait (slot : U16)
  /-- acquire the coarse lock (R186). -/
  | lock
  /-- release the coarse lock (R187). -/
  | unlock
  /-- the interrupt handler (R200). -/
  | irqh
deriving DecidableEq, Repr

end Sys2Proof
end

