-- ==== Sys2Proof/Decode.lean ====
section
/-! DEFINITION. The decoder of command words, total on all 32-bit words, and the encoder (spec/30_encoding.md R110,
R114 to R117). -/

namespace Sys2Proof

/-- `OPC`, bits 7:0 (R110). -/
def opcField (w : U32) : BitVec 8 := w.extractLsb' 0 8

/-- `RSV`, bits 15:8 (R110). -/
def rsvField (w : U32) : BitVec 8 := w.extractLsb' 8 8

/-- `IMM16`, bits 31:16 (R110). -/
def immField (w : U32) : U16 := w.extractLsb' 16 16

/-- What a command word is: a command, or illegal for a named reason. -/
inductive Decoded where
  | instr (i : Instr)
  /-- `RSV` is not 0 (R116). -/
  | illegalRsv (rsv : BitVec 8)
  /-- `OPC` is not in the map (R115). -/
  | illegalOpc (opc : BitVec 8)
deriving DecidableEq, Repr

/-- The opcode map of R114, for a word whose `RSV` is 0. -/
def decodeOpc (opc : BitVec 8) (imm : U16) : Decoded :=
  match opc with
  | 0x01 => .instr .negotiate
  | 0x02 => .instr (.cfgring imm)
  | 0x03 => .instr .drvok
  | 0x04 => .instr (.notify imm)
  | 0x05 => .instr .ipend
  | 0x10 => .instr .qinit
  | 0x11 => .instr .alloc
  | 0x12 => .instr (.adddesc imm)
  | 0x13 => .instr .publish
  | 0x14 => .instr .poll
  | 0x15 => .instr .take
  | 0x20 => .instr (.get imm)
  | 0x21 => .instr (.install imm)
  | 0x22 => .instr (.signal imm)
  | 0x23 => .instr (.wait imm)
  | 0x24 => .instr .lock
  | 0x25 => .instr .unlock
  | 0x30 => .instr .irqh
  | opc => .illegalOpc opc

/-- The decoder: `RSV` must be 0 (R116), then the opcode map (R114, R115). -/
def decode (w : U32) : Decoded :=
  if rsvField w = 0 then decodeOpc (opcField w) (immField w) else .illegalRsv (rsvField w)

/-- The word that the bits `w` of an instruction of `nbits` bits stand for: the bits above are 0. A command is one
32-bit word (R111), so the first word is the whole of it. -/
def tableWord (nbits w : Nat) : U32 := BitVec.ofNat 32 (w % 2 ^ nbits)

/-- The instruction the decoder reads from an opcode-table word. -/
def decodeTableWord (nbits w : Nat) : Option Instr :=
  match decode (tableWord nbits w) with
  | .instr i => some i
  | .illegalRsv _ => none
  | .illegalOpc _ => none

/-- `OPC` of a command (R114). -/
def Instr.opcode : Instr → BitVec 8
  | .negotiate => 0x01
  | .cfgring _ => 0x02
  | .drvok => 0x03
  | .notify _ => 0x04
  | .ipend => 0x05
  | .qinit => 0x10
  | .alloc => 0x11
  | .adddesc _ => 0x12
  | .publish => 0x13
  | .poll => 0x14
  | .take => 0x15
  | .get _ => 0x20
  | .install _ => 0x21
  | .signal _ => 0x22
  | .wait _ => 0x23
  | .lock => 0x24
  | .unlock => 0x25
  | .irqh => 0x30

/-- `IMM16` of a command; 0 where R113 gives none (R117's normal form). -/
def Instr.imm : Instr → U16
  | .negotiate => 0
  | .cfgring index => index
  | .drvok => 0
  | .notify queue => queue
  | .ipend => 0
  | .qinit => 0
  | .alloc => 0
  | .adddesc flags => flags
  | .publish => 0
  | .poll => 0
  | .take => 0
  | .get slot => slot
  | .install slot => slot
  | .signal slot => slot
  | .wait slot => slot
  | .lock => 0
  | .unlock => 0
  | .irqh => 0

/-- R113 gives the command an `IMM16` operand. -/
def Instr.usesImm : Instr → Bool
  | .negotiate => false
  | .cfgring _ => true
  | .drvok => false
  | .notify _ => true
  | .ipend => false
  | .qinit => false
  | .alloc => false
  | .adddesc _ => true
  | .publish => false
  | .poll => false
  | .take => false
  | .get _ => true
  | .install _ => true
  | .signal _ => true
  | .wait _ => true
  | .lock => false
  | .unlock => false
  | .irqh => false

/-- A word from its three fields (R110). -/
def cmdWord (imm : U16) (rsv opc : BitVec 8) : U32 := imm ++ (rsv ++ opc)

/-- The word of a command. -/
def encode (i : Instr) : U32 := cmdWord i.imm 0 i.opcode

end Sys2Proof
end

