-- ==== Sys2Proof/Config.lean ====
section
/-! DEFINITION. The parameters the spec leaves OPEN (spec/00_scope.md R7, spec/92_eei_decisions.md "Open parameters,
collected") as one record of plain data, and the model's opaque free values. The record stands in State and no step
changes it, so a statement about every state is about every value of every parameter (notes/assumptions/4). -/

namespace Sys2Proof

/-- `OFF_*`: the offsets of the device's registers (spec/10_state.md R40). No rule depends on their numbers; the
defaults are R40's, which the spec marks as general knowledge (PRESUMED, notes/assumptions/18). -/
structure Offsets where
  magic : U32 := 0x000
  version : U32 := 0x004
  deviceId : U32 := 0x008
  vendorId : U32 := 0x00C
  hostFeatures : U32 := 0x010
  hostFeaturesSel : U32 := 0x014
  guestFeatures : U32 := 0x020
  guestFeaturesSel : U32 := 0x024
  guestPageSize : U32 := 0x028
  queueSel : U32 := 0x030
  queueNumMax : U32 := 0x034
  queueNum : U32 := 0x038
  queueAlign : U32 := 0x03C
  queuePfn : U32 := 0x040
  queueNotify : U32 := 0x050
  interruptStatus : U32 := 0x060
  interruptAck : U32 := 0x064
  status : U32 := 0x070
  queueDescLow : U32 := 0x080
  queueDescHigh : U32 := 0x084
  queueDriverLow : U32 := 0x090
  queueDriverHigh : U32 := 0x094
  queueDeviceLow : U32 := 0x0A0
  queueDeviceHigh : U32 := 0x0A4
  config : U32 := 0x100
deriving DecidableEq, Repr

/-- The parameters of one engine (R7). -/
structure Config where
  /-- `REQ_BYTES`: bytes of one slot payload. -/
  reqBytes : Nat
  /-- `REQ_STRIDE`: distance between payloads of consecutive slots. -/
  reqStride : Nat
  /-- `NSUB`: number of submitter ports. -/
  nsub : Nat
  /-- `QIDX`: the queue index this engine serves; used by software only. -/
  qidx : U16
  mmioBase : U64
  portBase : U64
  portStride : U64
  off : Offsets
  stAcknowledge : U32
  stDriver : U32
  stDriverOk : U32
  stFeaturesOk : U32
  fNext : U16
  fWrite : U16
  fIndirect : U16
  /-- `STATUS_OFF`: where the in-place status byte stands in the payload; used by software only. -/
  statusOff : Nat
  /-- `status_ok` as the set of bytes that mean success; used by software only. -/
  okStatus : List Byte
  doubleNotify : Bool
  debugAssert : Bool
deriving DecidableEq, Repr

/-- The example configuration of spec/95_test_vectors.md section 0, with the default numbers of
spec/93_implementation_defined.md G1 to G3. DESIGN CHOICE for the reset state only (notes/assumptions/4); the four parameters
that no example gives, `MMIO_BASE`, `PORT_BASE`, `PORT_STRIDE` and `DEBUG_ASSERT`, have the model's own values (DESIGN CHOICE,
the same entry). -/
def defaultConfig : Config where
  reqBytes := 17
  reqStride := 32
  nsub := 2
  qidx := 0
  mmioBase := 0x10001000
  portBase := 0x20000000
  portStride := 0x1000
  off := {}
  stAcknowledge := 1
  stDriver := 2
  stDriverOk := 4
  stFeaturesOk := 8
  fNext := 1
  fWrite := 2
  fIndirect := 4
  statusOff := 16
  okStatus := [0]
  doubleNotify := false
  debugAssert := false

/-- FREE VALUE: the arbiter's choice among several candidates, where spec/60_exceptions.md R233 and
spec/42_slot_pool_ops.md R186 promise no order. Applied to the counter `State.freeCount` (notes/assumptions/9). -/
opaque freePick : Nat → Nat

/-- FREE VALUE: what reading `CMD` returns (spec/10_state.md R21: unspecified; notes/assumptions/21). -/
opaque cmdReadValue : Nat → U32

end Sys2Proof
end

