-- ==== Sys2Proof/Machine/State.lean ====
section
/-! DEFINITION. The state of the engine and of what it shares with its environment, as plain data
(spec/10_state.md; INVENTORY.md, heading State). -/

namespace Sys2Proof.Machine

/-- Shared physical memory (spec/20_memory.md R70): the bytes that differ from what an unlisted byte reads as, in rising
address order. An unlisted byte reads as `memoryDefault`. -/
abbrev Memory := List Host.Cell

/-- What a byte of shared memory that nothing has written reads as. DESIGN CHOICE, unsafe (notes/assumptions/6). -/
abbrev memoryDefault : Byte := 0

/-- The lifecycle phases (spec/10_state.md R33). -/
inductive Phase where
  | reset
  | featuresOk
  | ringConfigured
  | ringReady
  | live
  | failed
deriving DecidableEq, Repr

/-- The protocol faults (spec/60_exceptions.md R226). -/
inductive PF where
  /-- CHAIN_OVERFLOW: a chain of more than QSIZE descriptors; raised by ADDDESC. -/
  | pf1
  /-- CHAIN_SHAPE: a partially built chain; raised by PUBLISH, ADDDESC, UNLOCK. -/
  | pf2
  /-- STALE_TAKE: TAKE with nothing pending. -/
  | pf3
  /-- LOCK_DISCIPLINE: a producer command or UNLOCK without the lock. -/
  | pf4
  /-- CONTEXT: a command on a port that may not issue it. -/
  | pf5
  /-- PHASE: a command in a phase that does not permit it. -/
  | pf6
  /-- SLOT_RANGE: a slot index not below QSIZE. -/
  | pf7
  /-- INFLIGHT_REUSE: a descriptor or slot of a chain in flight reused. -/
  | pf8
  /-- CONFIG: QINIT with a layout that does not fit. -/
  | pf9
deriving DecidableEq, Repr

/-- The values of `ERR` (spec/10_state.md R24, spec/60_exceptions.md R220). -/
inductive ErrVal where
  | ok
  | featureFail
  | ringSizeTooSmall
  | requestError
  | noInterrupt
  | illegalCommand
deriving DecidableEq, Repr

/-- The coarse lock (spec/10_state.md R32). -/
inductive Lock where
  | free
  | held (p : Nat)
deriving DecidableEq, Repr

/-- What a port's command is doing. `BUSY` (spec/10_state.md R25) is 0 exactly in `idle`. -/
inductive Work where
  | idle
  /-- Issued and not completed: waiting to be taken up, or running. -/
  | outstanding
  /-- Held in WAIT on slot `s` (spec/42_slot_pool_ops.md R184). -/
  | holdWait (s : Nat)
  /-- Held in LOCK (spec/42_slot_pool_ops.md R186). -/
  | holdLock
deriving DecidableEq, Repr

/-- A command and its operands as held at the CMD write (spec/10_state.md R22, R26; spec/20_memory.md R95). -/
structure Sample where
  word : U32
  a0 : U64
  a1 : U64
  a2 : U64
  a3 : U64
  pbuf : List Byte
deriving DecidableEq, Repr

/-- Which operand registers have been written since reset: the model's ghost for spec/10_state.md R22, R26 and
spec/93_implementation_defined.md U9 (notes/assumptions/1). -/
structure Written where
  a0 : Bool
  a1 : Bool
  a2 : Bool
  a3 : Bool
  pbuf : Bool
deriving DecidableEq, Repr

/-- The registers of one command port (spec/10_state.md R20 to R26). -/
structure Port where
  a0 : U64
  a1 : U64
  a2 : U64
  a3 : U64
  pbuf : List Byte
  written : Written
  r0 : U64
  r1 : U32
  err : ErrVal
  work : Work
  sample : Sample
deriving DecidableEq, Repr

/-- The engine's registers (spec/10_state.md R28 to R38) and its ghost map (R59). -/
structure Engine where
  nextFreeDesc : U16
  lastConsumedUsed : U16
  chainHead : U16
  chainLen : U16
  chainOpen : Bool
  /-- Bit `s` is 1 for `SIGNALED`, 0 for `PENDING` (R31). -/
  completion : BitVec 128
  lock : Lock
  phase : Phase
  features : U32
  cfgSize : U32
  cfgPage : U32
  cfgPfn : U32
  qbase : U64
  poolBase : U64
  pfault : Option PF
  /-- `PFAULT`, present only when `DEBUG_ASSERT` (R38). -/
  pfaultReg : U16
  /-- `inflight` (R59): head slot index, then the chain's descriptor indices in chain order. -/
  inflight : SMap (List Nat)
deriving DecidableEq, Repr

/-- The registers of the queue that the queue selector names (spec/10_state.md R45 to R48). -/
structure QueueRegs where
  max : U32
  num : U32
  pfn : U32
deriving DecidableEq, Repr

/-- The device's register block and what the device keeps (spec/10_state.md R40 to R52, R56). -/
structure Device where
  magic : U32
  version : U32
  deviceId : U32
  vendorId : U32
  /-- Offered features, one word per selector value (R42). -/
  hostFeatures : SMap U32
  hostFeaturesSel : U32
  guestFeatures : U32
  guestFeaturesSel : U32
  guestPageSize : U32
  queueSel : U32
  queues : SMap QueueRegs
  queueAlign : U32
  queueNotify : U32
  interruptStatus : U32
  status : U32
  queueDescLow : U32
  queueDescHigh : U32
  queueDriverLow : U32
  queueDriverHigh : U32
  queueDeviceLow : U32
  queueDeviceHigh : U32
  /-- Device-specific configuration space, sparse bytes by offset (R40, R41). -/
  configSpace : SMap Byte
  /-- How far the device has read the availability ring (R56). -/
  availSeen : U16
deriving DecidableEq, Repr

/-- The device registers an MMIO read can name (direction R or RW in spec/10_state.md R40). -/
inductive ReadReg where
  | magic | version | deviceId | vendorId | hostFeatures | queueNumMax | interruptStatus | status
deriving DecidableEq, Repr

/-- The device registers an MMIO write can name (direction W or RW in spec/10_state.md R40). -/
inductive WriteReg where
  | hostFeaturesSel | guestFeatures | guestFeaturesSel | guestPageSize | queueSel | queueNum | queueAlign | queuePfn
  | queueNotify | interruptAck | status | queueDescLow | queueDescHigh | queueDriverLow | queueDriverHigh
  | queueDeviceLow | queueDeviceHigh
deriving DecidableEq, Repr

/-- The events of the history (spec/10_state.md R39). A memory value is the number its bytes spell, low byte first. -/
inductive Event where
  | issue (p : Nat) (word : U32) (a0 a1 a2 a3 : U64) (pbuf : List Byte)
  | complete (p : Nat) (err : ErrVal) (r0 : U64) (r1 : U32)
  | memR (addr : U64) (n : Nat) (v : Nat)
  | memW (addr : U64) (n : Nat) (v : Nat)
  | mmioR (off : U32) (v : U32)
  | mmioW (off : U32) (v : U32)
  | signal (s : Nat)
  | devMemW (addr : U64) (n : Nat) (v : Nat)
  | devMemR (addr : U64) (n : Nat) (v : Nat)
  | devIrq (bits : U32)
deriving DecidableEq, Repr

/-- One move of the environment: the host's software, the device, the platform (spec/00_scope.md R6). -/
inductive Move where
  /-- Software writes operand register `A<k>` of port `p` (spec/10_state.md R22). -/
  | hostA (p : Nat) (k : Fin 4) (v : U64)
  /-- Software writes bytes of `PBUF` of port `p` from byte `k` on (R26); PBUF has one mark "written", which any such write
  sets (DESIGN CHOICE, notes/assumptions/27). -/
  | hostPbuf (p : Nat) (k : Nat) (bytes : List Byte)
  /-- Software writes `CMD` of port `p` (R21). -/
  | issue (p : Nat) (word : U32)
  /-- Software writes shared memory itself (spec/20_memory.md R82). -/
  | hostMemW (addr : U64) (bytes : List Byte)
  /-- A front-end writes a device register itself (spec/43_protocol_ops.md R205, spec/10_state.md R41). -/
  | hostMmioW (r : WriteReg) (v : U32)
  /-- A front-end writes a byte of the device's configuration space (spec/10_state.md R41). -/
  | hostConfigW (offset : Nat) (b : Byte)
  /-- The device writes shared memory (spec/60_exceptions.md R243). -/
  | devMemW (addr : U64) (bytes : List Byte)
  /-- The device reads shared memory (R243). -/
  | devMemR (addr : U64) (n : Nat)
  /-- The device sets bits of interrupt status and asserts its line (R243). -/
  | devIrq (bits : U32)
  /-- The device withdraws bits of interrupt status (R245: its answers to reads are free). -/
  | devIrqDrop (bits : U32)
  /-- The device clears `FEATURES_OK` to reject the negotiated set (R243, R245). -/
  | devDecline
  /-- The device sets status bits the document does not name (R245). -/
  | devStatus (bits : U32)
  /-- The device withdraws status bits the document does not name (R245, spec/93_implementation_defined.md U18). -/
  | devStatusDrop (bits : U32)
  /-- The device offers feature word `w` at selector value `sel` (R245). -/
  | devOffer (sel : Nat) (w : U32)
  /-- The device advertises the maximum `m` for queue `q` (R243). -/
  | devQueueMax (q : Nat) (m : U32)
  /-- The device changes the size and the page-frame-number it holds for queue `q` (R56). -/
  | devQueueRegs (q : Nat) (num pfn : U32)
  /-- The device has read the availability ring up to index `i` (R56). -/
  | devSeen (i : U16)
  /-- The device changes a byte of its configuration space (R41). -/
  | devConfig (offset : Nat) (b : Byte)
  /-- The platform asserts `RST` (spec/70_reset_and_hazards.md R260). -/
  | rst
deriving DecidableEq, Repr

/-- A buffer that a descriptor of a published chain names (spec/20_memory.md R77, R78). -/
structure Buffer where
  addr : U64
  len : U32
  /-- The descriptor has the `WRITE` flag. -/
  write : Bool
deriving DecidableEq, Repr

/-- How far the device and the engine have come with a published chain. -/
inductive Stage where
  /-- In the availability ring. -/
  | published
  /-- The device has written the used entry at position `at_`, not yet covered, with this chain's head as its id. -/
  | entered (at_ : U16)
  /-- `used.index` covers the entry, which stands at position `at_` and is unread. -/
  | covered (at_ : U16)
  /-- The engine has read the entry. -/
  | taken
deriving DecidableEq, Repr

/-- What one publication gives to the device, until its slot is signalled (spec/70_reset_and_hazards.md R274). -/
structure Grant where
  /-- The head slot index. -/
  head : Nat
  /-- The chain's descriptor indices. -/
  descs : List Nat
  /-- The address of the head slot's payload. -/
  payload : U64
  /-- The buffers the chain's descriptors named at the publication. -/
  buffers : List Buffer
  /-- The addresses in `WRITE` buffers that the device has written, each once. -/
  written : List Nat
  stage : Stage
deriving DecidableEq, Repr

/-- What belongs to the device, and what it has done with it: the model's ghost for the duties of spec/20_memory.md R82,
R93, spec/60_exceptions.md R244 and spec/70_reset_and_hazards.md R262, R274 (notes/assumptions/28). No command's effect
depends on it. `RST` leaves it, as it leaves the device (R262). -/
structure Ledger where
  /-- Where the ring region stands that the device has been given, if any. -/
  ring : Option U64
  grants : List Grant
  /-- `used.index` has moved since the device last interrupted for the used ring. -/
  owes : Bool
deriving DecidableEq, Repr

/-- The whole state. `cur`, `ledger`, `script`, `choices` and `freeCount` are the model's own (INVENTORY.md, heading
State). -/
structure State where
  cfg : Config
  eng : Engine
  /-- The ports 0 .. NSUB, in order (spec/10_state.md R20). -/
  ports : List Port
  /-- The port whose command is running. -/
  cur : Nat
  mem : Memory
  dev : Device
  /-- Event history, newest first (spec/10_state.md R39). -/
  history : List Event
  /-- What belongs to the device (notes/assumptions/28). -/
  ledger : Ledger
  /-- The environment's moves to come: one entry for every point at which it may act (notes/assumptions/7). -/
  script : List (List Move)
  /-- The arbiter's choices to come, as port numbers (notes/assumptions/9). -/
  choices : List Nat
  /-- Counter for the free value `freePick` (notes/assumptions/9). -/
  freeCount : Nat
deriving DecidableEq, Repr

/-- Why the machine stops with a fault. -/
inductive Fault where
  /-- Raised by `step` in a state that a protocol fault has faulted (spec/60_exceptions.md R228: the spec says nothing
  about what happens next). Safe: the model stops where the hardware goes on in some unspecified way. -/
  | protocol (pf : PF)
deriving DecidableEq, Repr

/-- Why the machine refuses. -/
inductive Refusal where
  /-- An instruction that has no meaning in the model yet. Raised only by an arm of `exec`; safe. -/
  | notModelled (mnemonic : String)
deriving DecidableEq, Repr

/-- What a command, or a step, ends in. -/
abbrev Result := Host.Outcome State Fault Refusal

/-- An all-zero sample: no command reads it before a CMD write has filled it (DESIGN CHOICE, notes/assumptions/1). -/
def Sample.reset (c : Config) : Sample :=
  { word := 0, a0 := 0, a1 := 0, a2 := 0, a3 := 0, pbuf := List.replicate c.reqBytes 0 }

/-- A port after reset (spec/10_state.md R58). A0..A3, PBUF, R0, R1 are unspecified there: DESIGN CHOICE 0
(notes/assumptions/1, notes/assumptions/2). -/
def Port.reset (c : Config) : Port :=
  { a0 := 0, a1 := 0, a2 := 0, a3 := 0, pbuf := List.replicate c.reqBytes 0,
    written := { a0 := false, a1 := false, a2 := false, a3 := false, pbuf := false },
    r0 := 0, r1 := 0, err := .ok, work := .idle, sample := Sample.reset c }

/-- The engine's registers after reset (spec/10_state.md R58). `qbase`, `pool_base` are unspecified there: DESIGN
CHOICE 0 (notes/assumptions/3). -/
def Engine.reset : Engine :=
  { nextFreeDesc := 0, lastConsumedUsed := 0, chainHead := 0, chainLen := 0, chainOpen := false,
    completion := BitVec.allOnes 128, lock := .free, phase := .reset, features := 0,
    cfgSize := 0, cfgPage := 0, cfgPfn := 0, qbase := 0, poolBase := 0, pfault := none, pfaultReg := 0, inflight := [] }

/-- The device's registers in the reset state: the device's own and unspecified to the engine (spec/10_state.md R58);
DESIGN CHOICE (notes/assumptions/5). Magic and version are the values R41 names. -/
def Device.reset : Device :=
  { magic := 0x74726976, version := 1, deviceId := 0, vendorId := 0, hostFeatures := [], hostFeaturesSel := 0,
    guestFeatures := 0, guestFeaturesSel := 0, guestPageSize := 0, queueSel := 0, queues := [], queueAlign := 0,
    queueNotify := 0, interruptStatus := 0, status := 0, queueDescLow := 0, queueDescHigh := 0, queueDriverLow := 0,
    queueDriverHigh := 0, queueDeviceLow := 0, queueDeviceHigh := 0, configSpace := [], availSeen := 0 }

/-- A ledger with nothing given to the device. -/
def Ledger.empty : Ledger := { ring := none, grants := [], owes := false }

/-- The ports after reset (spec/10_state.md R20, R58). -/
def Port.resetAll (c : Config) : List Port := List.replicate (c.nsub + 1) (Port.reset c)

/-- The machine right after reset (spec/10_state.md R58). -/
def State.reset : State :=
  { cfg := defaultConfig, eng := Engine.reset, ports := Port.resetAll defaultConfig, cur := 0, mem := [],
    dev := Device.reset, history := [], ledger := Ledger.empty, script := [], choices := [], freeCount := 0 }

end Sys2Proof.Machine
end

