-- ==== Sys2Proof/Machine/Memory.lean ====
section
/-! DEFINITION. Sparse maps, and shared physical memory over them: one byte, byte strings, little-endian fields
(spec/20_memory.md R70, R72, R83). -/

namespace Sys2Proof.Machine

/-- The entry at key `k`, if any. -/
def SMap.find? {β : Type} (k : Nat) : SMap β → Option β
  | [] => none
  | (j, v) :: m => if j = k then some v else SMap.find? k m

/-- Put `v` at key `k`, keeping rising order. -/
def SMap.insert {β : Type} (k : Nat) (v : β) : SMap β → SMap β
  | [] => [(k, v)]
  | (j, w) :: m =>
    if k < j then (k, v) :: (j, w) :: m else if k = j then (k, v) :: m else (j, w) :: SMap.insert k v m

/-- Take the key `k` out. -/
def SMap.erase {β : Type} (k : Nat) (m : SMap β) : SMap β := m.filter fun e => e.1 ≠ k

/-- The keys rise strictly. -/
abbrev SMap.Sorted {β : Type} (m : SMap β) : Prop := m.Pairwise fun x y => x.1 < y.1

/-- The byte at address `a`. -/
def Memory.read (m : Memory) (a : Nat) : Byte := (SMap.find? a m).getD memoryDefault

/-- Write byte `b` at address `a`; writing what an unlisted byte reads as removes the entry. -/
def Memory.write (m : Memory) (a : Nat) (b : Byte) : Memory :=
  if b = memoryDefault then SMap.erase a m else SMap.insert a b m

/-- The canonical form: addresses strictly rising and 64 bits wide, no entry equal to what an unlisted one reads as. -/
abbrev Memory.wf (m : Memory) : Prop := SMap.Sorted m ∧ ∀ e ∈ m, e.1 < 2 ^ 64 ∧ e.2 ≠ memoryDefault

/-- The `n` bytes from `a` on, in address order; address sums are 64 bits wide (spec/00_scope.md R16). -/
def Memory.load (m : Memory) (a : U64) : Nat → List Byte
  | 0 => []
  | n + 1 => m.read a.toNat :: Memory.load m (a + 1) n

/-- Write a byte string from `a` on. -/
def Memory.store (m : Memory) (a : U64) : List Byte → Memory
  | [] => m
  | b :: bs => Memory.store (m.write a.toNat b) (a + 1) bs

/-- The number a byte string spells, low byte first (spec/20_memory.md R72). -/
def ofLE : List Byte → Nat
  | [] => 0
  | b :: bs => b.toNat + 256 * ofLE bs

/-- The `n` low bytes of `v`, low byte first (R72). -/
def leBytes : Nat → Nat → List Byte
  | 0, _ => []
  | n + 1, v => BitVec.ofNat 8 v :: leBytes n (v / 256)

/-- The address `a` is one of the `n` addresses from `base` on. -/
def inBytes (base : U64) (n : Nat) (a : Nat) : Prop := ∃ k < n, (base + BitVec.ofNat 64 k).toNat = a

/-- Write bytes into a byte string from position `k` on; bytes past its end are dropped (notes/assumptions/22). -/
def overwrite : List Byte → Nat → List Byte → List Byte
  | old, _, [] => old
  | old, k, b :: bs => overwrite (old.set k b) (k + 1) bs

end Sys2Proof.Machine
end

