-- ==== Sys2Proof/Machine/Operands.lean ====
section
/-! DEFINITION. Operands, addresses and register access: the port registers (spec/10_state.md R20 to R27), the operand
table (spec/30_encoding.md R113), the address helpers of the ring region and the payload array (spec/00_scope.md R10,
spec/20_memory.md R76 to R81), the host-bus window. -/

namespace Sys2Proof.Machine

/-- Port `p`. There are no ports past NSUB; the value there is never a port of the machine. -/
def State.port (s : State) (p : Nat) : Port := s.ports[p]?.getD (Port.reset s.cfg)

/-- Change port `p`. -/
def State.setPort (s : State) (p : Nat) (f : Port → Port) : State := { s with ports := s.ports.modify p f }

/-- Change the engine's registers. -/
def State.setEng (s : State) (f : Engine → Engine) : State := { s with eng := f s.eng }

/-- Replace shared memory. -/
def State.setMem (s : State) (m : Memory) : State := { s with mem := m }

/-- Replace the device's registers. -/
def State.setDev (s : State) (d : Device) : State := { s with dev := d }

/-- Change the ledger of what belongs to the device. -/
def State.setLedger (s : State) (f : Ledger → Ledger) : State := { s with ledger := f s.ledger }

/-- Write `R0` of the issuing port (spec/10_state.md R23). -/
def State.setR0 (s : State) (v : U64) : State := s.setPort s.cur fun q => { q with r0 := v }

/-- Write `R1` of the issuing port (spec/10_state.md R23). -/
def State.setR1 (s : State) (v : U32) : State := s.setPort s.cur fun q => { q with r1 := v }

/-- `BUSY` (spec/10_state.md R25). -/
def Port.busy (q : Port) : Bool := q.work != .idle

/-- The number of an `ERR` value (spec/10_state.md R24). -/
def ErrVal.code : ErrVal → BitVec 8
  | .ok => 0
  | .featureFail => 1
  | .ringSizeTooSmall => 2
  | .requestError => 3
  | .noInterrupt => 4
  | .illegalCommand => 5

/-- The operands sampled when the running command was issued (spec/10_state.md R22). -/
def State.operands (s : State) : Sample := (s.port s.cur).sample

/-- A 32-bit operand: the low half of its register, the upper half ignored (spec/30_encoding.md R113, R117). -/
def low32 (v : U64) : U32 := v.setWidth 32

/-- `zext_32` and `zext_64` (spec/00_scope.md R8). -/
def zext32 {n : Nat} (v : BitVec n) : U32 := v.setWidth 32

def zext64 {n : Nat} (v : BitVec n) : U64 := v.setWidth 64

end Sys2Proof.Machine

namespace Sys2Proof
open Machine

/-- The slot operand of a command (spec/30_encoding.md R112). -/
def Instr.slot? : Instr → Option U16
  | .negotiate => none
  | .cfgring _ => none
  | .drvok => none
  | .notify _ => none
  | .ipend => none
  | .qinit => none
  | .alloc => none
  | .adddesc _ => none
  | .publish => none
  | .poll => none
  | .take => none
  | .get slot => some slot
  | .install slot => some slot
  | .signal slot => some slot
  | .wait slot => some slot
  | .lock => none
  | .unlock => none
  | .irqh => none

end Sys2Proof

namespace Sys2Proof.Machine

/-- `v mod QSIZE` of a 16-bit index (spec/00_scope.md R12, R15). -/
def modQ (v : U16) : U16 := v % 128

/-- `desc(i) = qbase + 16*i` (spec/20_memory.md R77). -/
def Engine.descAddr (e : Engine) (i : U16) : U64 := e.qbase + 16 * zext64 i

/-- `avail = qbase + AVAIL_OFF` (spec/20_memory.md R79). -/
def Engine.availAddr (e : Engine) : U64 := e.qbase + BitVec.ofNat 64 availOff

/-- `avail.index` (R79). -/
def Engine.availIndexAddr (e : Engine) : U64 := e.availAddr + 2

/-- `avail.ring[j]` (R79). -/
def Engine.availRingAddr (e : Engine) (j : U16) : U64 := e.availAddr + 4 + 2 * zext64 j

/-- `used = qbase + USED_OFF` (spec/20_memory.md R80). -/
def Engine.usedAddr (e : Engine) : U64 := e.qbase + BitVec.ofNat 64 usedOff

/-- `used.index` (R80). -/
def Engine.usedIndexAddr (e : Engine) : U64 := e.usedAddr + 2

/-- `used.ring[j].id` (R80). -/
def Engine.usedIdAddr (e : Engine) (j : U16) : U64 := e.usedAddr + 4 + 8 * zext64 j

/-- `used.ring[j].len` (R80). -/
def Engine.usedLenAddr (e : Engine) (j : U16) : U64 := e.usedAddr + 8 + 8 * zext64 j

/-- `payload(s) = pool_base + s*REQ_STRIDE` (spec/20_memory.md R81). -/
def State.payload (s : State) (slot : U16) : U64 := s.eng.poolBase + BitVec.ofNat 64 (slot.toNat * s.cfg.reqStride)

/-- `{ (h + k) mod QSIZE : 0 <= k < len }`, in chain order (spec/41_ring_transport_ops.md R164). -/
def chainIndices (h len : U16) : List Nat := (List.range len.toNat).map fun k => (h.toNat + k) % qsize

end Sys2Proof.Machine

namespace Sys2Proof
open Machine

/-- The physical address of a device register (spec/10_state.md R40, `MMIO_BASE + off`). -/
def Config.mmioAddr (c : Config) (off : U32) : U64 := c.mmioBase + zext64 off

/-- The offset of a readable device register (spec/10_state.md R40). -/
def Config.readOff (c : Config) : ReadReg → U32
  | .magic => c.off.magic
  | .version => c.off.version
  | .deviceId => c.off.deviceId
  | .vendorId => c.off.vendorId
  | .hostFeatures => c.off.hostFeatures
  | .queueNumMax => c.off.queueNumMax
  | .interruptStatus => c.off.interruptStatus
  | .status => c.off.status

/-- The offset of a writable device register (spec/10_state.md R40). -/
def Config.writeOff (c : Config) : WriteReg → U32
  | .hostFeaturesSel => c.off.hostFeaturesSel
  | .guestFeatures => c.off.guestFeatures
  | .guestFeaturesSel => c.off.guestFeaturesSel
  | .guestPageSize => c.off.guestPageSize
  | .queueSel => c.off.queueSel
  | .queueNum => c.off.queueNum
  | .queueAlign => c.off.queueAlign
  | .queuePfn => c.off.queuePfn
  | .queueNotify => c.off.queueNotify
  | .interruptAck => c.off.interruptAck
  | .status => c.off.status
  | .queueDescLow => c.off.queueDescLow
  | .queueDescHigh => c.off.queueDescHigh
  | .queueDriverLow => c.off.queueDriverLow
  | .queueDriverHigh => c.off.queueDriverHigh
  | .queueDeviceLow => c.off.queueDeviceLow
  | .queueDeviceHigh => c.off.queueDeviceHigh

end Sys2Proof

namespace Sys2Proof.Machine

/-- A read of the host-bus window of port `p` at offset `off` (spec/10_state.md R27, R38): `none` where the window has
no register that a read returns. A byte of `PBUF` is at +0x40 onward. Reading `CMD` returns an unspecified value, here a
free value (R21, notes/assumptions/21). No read changes the state. -/
def State.windowRead (s : State) (p : Nat) (off : Nat) : Option U64 :=
  if p ≤ s.cfg.nsub then
    let q := s.port p
    if off = 0x00 then some (zext64 (cmdReadValue s.freeCount))
    else if off = 0x04 then some (zext64 q.err.code)
    else if off = 0x08 then some (if q.busy then 1 else 0)
    else if off = 0x0C then (if s.cfg.debugAssert then some (zext64 s.eng.pfaultReg) else none)
    else if off = 0x10 then some q.a0
    else if off = 0x18 then some q.a1
    else if off = 0x20 then some q.a2
    else if off = 0x28 then some q.a3
    else if off = 0x30 then some q.r0
    else if off = 0x38 then some (zext64 q.r1)
    else if 0x40 ≤ off then q.pbuf[off - 0x40]?.map zext64
    else none
  else none

end Sys2Proof.Machine

namespace Sys2Proof
open Machine

/-- Where the window of port `p` stands on the host bus (spec/10_state.md R27). -/
def Config.windowAddr (c : Config) (p : Nat) (off : Nat) : U64 :=
  c.portBase + BitVec.ofNat 64 p * c.portStride + BitVec.ofNat 64 off

end Sys2Proof
end

