-- ==== Sys2Proof/Machine/Device.lean ====
section
/-! DEFINITION. The device's register block: its answers to MMIO reads and its reaction to MMIO writes
(spec/10_state.md R40 to R52, spec/60_exceptions.md R244 (g), R245). What else the device does, it does by moves of its
own (Machine/Environment.lean). -/

namespace Sys2Proof.Machine

/-- The registers of queue `q`; a queue the device has said nothing of has maximum 0 (spec/40 R142: no such queue). -/
def Device.queue (d : Device) (q : Nat) : QueueRegs := (SMap.find? q d.queues).getD { max := 0, num := 0, pfn := 0 }

/-- Change the registers of queue `q`. -/
def Device.setQueue (d : Device) (q : Nat) (f : QueueRegs → QueueRegs) : Device :=
  { d with queues := SMap.insert q (f (d.queue q)) d.queues }

/-- The device's answer to a read (R245): status as last written or changed by the device, host features at the
selected word, the maximum of the selected queue, interrupt status. -/
def Device.answer (d : Device) : ReadReg → U32
  | .magic => d.magic
  | .version => d.version
  | .deviceId => d.deviceId
  | .vendorId => d.vendorId
  | .hostFeatures => (SMap.find? d.hostFeaturesSel.toNat d.hostFeatures).getD 0
  | .queueNumMax => (d.queue d.queueSel.toNat).max
  | .interruptStatus => d.interruptStatus
  | .status => d.status

/-- The device's reaction to a write. A write to interrupt ack clears the written bits of interrupt status (R51,
R244 (g); PRESUMED, notes/assumptions/17). A write to queue size or page-frame-number goes to the selected queue (R45). -/
def Device.react (d : Device) (v : U32) : WriteReg → Device
  | .hostFeaturesSel => { d with hostFeaturesSel := v }
  | .guestFeatures => { d with guestFeatures := v }
  | .guestFeaturesSel => { d with guestFeaturesSel := v }
  | .guestPageSize => { d with guestPageSize := v }
  | .queueSel => { d with queueSel := v }
  | .queueNum => d.setQueue d.queueSel.toNat fun q => { q with num := v }
  | .queueAlign => { d with queueAlign := v }
  | .queuePfn => d.setQueue d.queueSel.toNat fun q => { q with pfn := v }
  | .queueNotify => { d with queueNotify := v }
  | .interruptAck => { d with interruptStatus := d.interruptStatus &&& ~~~v }
  | .status => { d with status := v }
  | .queueDescLow => { d with queueDescLow := v }
  | .queueDescHigh => { d with queueDescHigh := v }
  | .queueDriverLow => { d with queueDriverLow := v }
  | .queueDriverHigh => { d with queueDriverHigh := v }
  | .queueDeviceLow => { d with queueDeviceLow := v }
  | .queueDeviceHigh => { d with queueDeviceHigh := v }

/-! The bytes of the register block (spec/20_memory.md R71). The engine accesses whole registers; the block's bytes are
where its byte order shows. -/

/-- The readable registers. -/
def ReadReg.all : List ReadReg :=
  [.magic, .version, .deviceId, .vendorId, .hostFeatures, .queueNumMax, .interruptStatus, .status]

/-- The writable registers. -/
def WriteReg.all : List WriteReg :=
  [.hostFeaturesSel, .guestFeatures, .guestFeaturesSel, .guestPageSize, .queueSel, .queueNum, .queueAlign, .queuePfn,
   .queueNotify, .interruptAck, .status, .queueDescLow, .queueDescHigh, .queueDriverLow, .queueDriverHigh,
   .queueDeviceLow, .queueDeviceHigh]

/-- What a writable register holds: size and page-frame-number of the selected queue (R45); interrupt ack holds nothing
(R51). -/
def Device.stored (d : Device) : WriteReg → Option U32
  | .hostFeaturesSel => some d.hostFeaturesSel
  | .guestFeatures => some d.guestFeatures
  | .guestFeaturesSel => some d.guestFeaturesSel
  | .guestPageSize => some d.guestPageSize
  | .queueSel => some d.queueSel
  | .queueNum => some (d.queue d.queueSel.toNat).num
  | .queueAlign => some d.queueAlign
  | .queuePfn => some (d.queue d.queueSel.toNat).pfn
  | .queueNotify => some d.queueNotify
  | .interruptAck => none
  | .status => some d.status
  | .queueDescLow => some d.queueDescLow
  | .queueDescHigh => some d.queueDescHigh
  | .queueDriverLow => some d.queueDriverLow
  | .queueDriverHigh => some d.queueDriverHigh
  | .queueDeviceLow => some d.queueDeviceLow
  | .queueDeviceHigh => some d.queueDeviceHigh

/-- Byte `k` of a register: bits `8k+7` down to `8k` (R71: little-endian). -/
def regByte (v : U32) (k : Nat) : Byte := v.extractLsb' (8 * k) 8

/-- The byte at `a` of a register that holds `v` and stands at `base`, if `a` is one of its four addresses. -/
def regByteAt (base : U64) (v : U32) (a : U64) : Option Byte :=
  if (a - base).toNat < 4 then some (regByte v (a - base).toNat) else none

/-- The byte of the register block at physical address `a` (R71, spec/10_state.md R40): of a readable register, else of a
register that is only written, else of the device's configuration space; `none` where nothing stands. -/
def State.blockByte (s : State) (a : U64) : Option Byte :=
  (ReadReg.all.findSome? fun r => regByteAt (s.cfg.mmioAddr (s.cfg.readOff r)) (s.dev.answer r) a)
    <|> (WriteReg.all.findSome? fun r =>
      (s.dev.stored r).bind fun v => regByteAt (s.cfg.mmioAddr (s.cfg.writeOff r)) v a)
    <|> SMap.find? (a - s.cfg.mmioAddr s.cfg.off.config).toNat s.dev.configSpace

end Sys2Proof.Machine

namespace Sys2Proof
open Machine

/-- The status bits the document names (spec/10_state.md R52). -/
def Config.namedStatus (c : Config) : U32 := c.stAcknowledge ||| c.stDriver ||| c.stDriverOk ||| c.stFeaturesOk

end Sys2Proof
end

