-- ==== Sys2Proof/Machine/Flags.lean ====
section
/-! DEFINITION. The one-bit state and the predicates of spec/10_state.md R53, and the permission tables of
spec/60_exceptions.md R241, R242. -/

namespace Sys2Proof.Machine

/-- `completion[i] = SIGNALED` (R31). -/
def Engine.signaled (e : Engine) (i : Nat) : Bool := e.completion.getLsbD i

/-- `completion[i] <- SIGNALED`. -/
def setSignaled (c : BitVec 128) (i : Nat) : BitVec 128 := c ||| BitVec.twoPow 128 i

/-- `completion[i] <- PENDING`. -/
def setPending (c : BitVec 128) (i : Nat) : BitVec 128 := c &&& ~~~(BitVec.twoPow 128 i)

end Sys2Proof.Machine

namespace Sys2Proof
open Machine

/-- The descriptor carries the continuation flag (spec/20_memory.md R78). -/
def Config.hasNext (c : Config) (flags : U16) : Bool := flags &&& c.fNext != 0

end Sys2Proof

namespace Sys2Proof.Machine

/-- The pending predicate: `used.index != last_consumed_used` (spec/10_state.md R53, spec/00_scope.md R13). -/
def pending (usedIndex cursor : U16) : Bool := usedIndex != cursor

/-- Descriptor `i` belongs to a chain in flight (spec/10_state.md R59). -/
def Engine.inFlightDesc (e : Engine) (i : Nat) : Bool := e.inflight.any fun c => c.2.contains i

/-- `s` is the head of a chain in flight (spec/10_state.md R59). -/
def Engine.inFlightHead (e : Engine) (s : Nat) : Bool := e.inflight.any fun c => c.1 == s

/-- `PFAULT` records these faults and no others (spec/10_state.md R38): PF3 and PF8 would need bus reads. -/
def PF.detected : PF → Bool
  | .pf1 => true
  | .pf2 => true
  | .pf3 => false
  | .pf4 => true
  | .pf5 => true
  | .pf6 => true
  | .pf7 => true
  | .pf8 => false
  | .pf9 => true

/-- The number `n` of `PFn`. -/
def PF.number : PF → Nat
  | .pf1 => 1
  | .pf2 => 2
  | .pf3 => 3
  | .pf4 => 4
  | .pf5 => 5
  | .pf6 => 6
  | .pf7 => 7
  | .pf8 => 8
  | .pf9 => 9

/-- The commands permitted in each context (spec/60_exceptions.md R242): port 0 is the interrupt context, every other
port the call context. -/
def contextAllows (i : Instr) (p : Nat) : Bool :=
  match i with
  | .negotiate => p != 0
  | .cfgring _ => p != 0
  | .drvok => p != 0
  | .notify _ => true
  | .ipend => true
  | .qinit => p != 0
  | .alloc => p != 0
  | .adddesc _ => p != 0
  | .publish => p != 0
  | .poll => true
  | .take => p == 0
  | .get _ => true
  | .install _ => p != 0
  | .signal _ => p == 0
  | .wait _ => p != 0
  | .lock => p != 0
  | .unlock => p != 0
  | .irqh => p == 0

/-- The phase is `RING_READY` or `LIVE`. -/
def Phase.running (ph : Phase) : Bool := ph == .ringReady || ph == .live

/-- The commands permitted in each phase (spec/60_exceptions.md R241). -/
def phaseAllows (i : Instr) (ph : Phase) : Bool :=
  match i with
  | .negotiate => ph == .reset
  | .cfgring _ => ph == .featuresOk
  | .drvok => ph == .ringReady
  | .notify _ => ph == .live
  | .ipend => true
  | .qinit => ph == .ringConfigured
  | .alloc => ph.running
  | .adddesc _ => ph.running
  | .publish => ph.running
  | .poll => ph.running
  | .take => ph.running
  | .get _ => ph.running
  | .install _ => ph.running
  | .signal _ => ph.running
  | .wait _ => ph.running
  | .lock => ph.running
  | .unlock => ph.running
  | .irqh => ph == .live

/-- The commands that require the coarse lock of their issuer (spec/42_slot_pool_ops.md R185). -/
def needsLock (i : Instr) : Bool :=
  match i with
  | .negotiate => false
  | .cfgring _ => false
  | .drvok => false
  | .notify _ => false
  | .ipend => false
  | .qinit => false
  | .alloc => true
  | .adddesc _ => true
  | .publish => true
  | .poll => false
  | .take => false
  | .get _ => false
  | .install _ => true
  | .signal _ => false
  | .wait _ => false
  | .lock => false
  | .unlock => true
  | .irqh => false

/-- The command's slot operand, if it has one, is below `QSIZE` (spec/30_encoding.md R119 step 5). -/
def slotOk (i : Instr) : Bool :=
  match i.slot? with
  | none => true
  | some slot => decide (slot.toNat < qsize)

end Sys2Proof.Machine
end

