-- ==== Sys2Proof/Machine/Ledger.lean ====
section
/-! DEFINITION. What belongs to the device, kept beside the history as it grows (notes/assumptions/28): the ledger is an
observer of events, and nothing the engine does depends on it. It serves the duties of Safety.lean (spec/20_memory.md R82,
R93, spec/60_exceptions.md R243, R244, spec/70_reset_and_hazards.md R262, R274). -/

namespace Sys2Proof.Machine

/-- The interrupt-status bit for "used ring updated" (spec/10_state.md R50): bit 0, general knowledge
(spec/93_implementation_defined.md G4; PRESUMED, notes/assumptions/29). -/
def usedRingBit : U32 := 1

/-- Address `a` is one of the `n` addresses from `base` on, without wrap. -/
def within (base : U64) (n : Nat) (a : Nat) : Bool := decide (base.toNat ≤ a) && decide (a < base.toNat + n)

/-- The addresses a byte string at `addr` falls on. -/
def addresses (addr : U64) (n : Nat) : List Nat := (List.range n).map fun k => (addr + BitVec.ofNat 64 k).toNat

/-- The byte at `a` is in the buffer. DESIGN CHOICE (notes/assumptions/33): of a buffer whose address plus length passes 2^64,
which no rule checks (spec/20_memory.md R75), the bytes below 2^64 are in it and it does not wrap. -/
def Buffer.contains (b : Buffer) (a : Nat) : Bool := within b.addr b.len.toNat a

/-- The byte at `a` is in a `WRITE` buffer of the chain. -/
def Grant.writable (g : Grant) (a : Nat) : Bool := g.buffers.any fun b => b.write && b.contains a

/-- The buffer that descriptor `i` names as memory stands (spec/20_memory.md R77, R78). DESIGN CHOICE (notes/assumptions/32): a
descriptor with `INDIRECT` or an unnamed flag bit, which front-ends must not set (spec/93_implementation_defined.md U19), is
taken as a plain buffer. -/
def State.bufferOf (s : State) (i : Nat) : Buffer :=
  let d := s.eng.descAddr (BitVec.ofNat 16 i)
  let flags : U16 := BitVec.ofNat 16 (ofLE (s.mem.load (d + 12) 2))
  { addr := BitVec.ofNat 64 (ofLE (s.mem.load d 8))
    len := BitVec.ofNat 32 (ofLE (s.mem.load (d + 8) 4))
    write := flags &&& s.cfg.fWrite != 0 }

/-- The buffers that the descriptors of the chain under construction name. -/
def State.chainBuffers (s : State) : List Buffer := (chainIndices s.eng.chainHead s.eng.chainLen).map s.bufferOf

/-- What publishing the chain under construction gives to the device (R274). -/
def State.newGrant (s : State) : Grant :=
  { head := s.eng.chainHead.toNat
    descs := chainIndices s.eng.chainHead s.eng.chainLen
    payload := s.payload s.eng.chainHead
    buffers := s.chainBuffers
    written := []
    stage := .published }

/-- `used.index` of the ring region at `base`, as it stands in memory (spec/20_memory.md R80). -/
def Memory.usedIndex (m : Memory) (base : U64) : U16 :=
  BitVec.ofNat 16 (ofLE (m.load (base + BitVec.ofNat 64 usedOff + 2) 2))

/-- Where entry `j` of the used ring stands in the ring region at `base` (R80): its id, then its length. -/
def entryAddr (base : U64) (j : U16) : U64 := base + BitVec.ofNat 64 usedOff + 4 + 8 * zext64 (modQ j)

/-- The id of entry `j`, as it stands in memory. -/
def Memory.entryId (m : Memory) (base : U64) (j : U16) : Nat := ofLE (m.load (entryAddr base j) 4)

/-- The length of entry `j`, as it stands in memory. -/
def Memory.entryLen (m : Memory) (base : U64) (j : U16) : Nat := ofLE (m.load (entryAddr base j + 4) 4)

/-- Bytes of `WRITE` buffers that the device has written, each address once. -/
def Grant.wrote (g : Grant) (as : List Nat) : Grant :=
  { g with written := as.foldl (fun w a => if g.writable a && !w.contains a then a :: w else w) g.written }

/-- The positions the device writes entries at while `used.index` is `u`: the next lap of the ring (R80). -/
def positionsFrom (u : U16) : List U16 := (List.range qsize).map fun k => u + BitVec.ofNat 16 k

/-- The positions from `u` on whose id a write of the addresses `as` touched. -/
def touchedEntries (base : U64) (u : U16) (as : List Nat) : List U16 :=
  if as.any fun a => within (entryAddr base 0) (8 * qsize) a then
    (positionsFrom u).filter fun j => as.any fun a => within (entryAddr base j) 4 a
  else []

/-- The chain after a device write that touched the ids at the positions `js` of the ring at `base`, which leaves memory `m`:
an entry stands where the device has written the head, and no longer where it has written over it. DESIGN CHOICE
(notes/assumptions/34): one position at a time stands for a chain, the first; the head written at a further position is no
breach and stands nowhere. -/
def Grant.idsSeen (g : Grant) (m : Memory) (base : U64) (js : List U16) : Grant :=
  let names := fun j => m.entryId base j == g.head
  let seen := match js.find? names with
    | none => { g with stage := .published }
    | some j => { g with stage := .entered j }
  match g.stage with
  | .published => seen
  | .entered j => if names j then g else seen
  | .covered _ => g
  | .taken => g

/-- The chain after `used.index` has moved by `n` from `old`: its entry, if it has one there, is covered. -/
def Grant.indexMoved (g : Grant) (old : U16) (n : Nat) : Grant :=
  match g.stage with
  | .published => g
  | .entered j => if (j - old).toNat < n then { g with stage := .covered j } else g
  | .covered _ => g
  | .taken => g

/-- The engine has read the entry at position `j`. -/
def Grant.entryRead (g : Grant) (j : U16) : Grant :=
  match g.stage with
  | .published => g
  | .entered _ => g
  | .covered k => if k = j then { g with stage := .taken } else g
  | .taken => g

/-- The ledger after the device has written the addresses `as`, which leaves memory `m`; `old` is `used.index` of the ring at
`base` before. -/
def Ledger.deviceWrote (l : Ledger) (as : List Nat) (base : U64) (old : U16) (m : Memory) : Ledger :=
  let grants := l.grants.map fun g => (g.wrote as).idsSeen m base (touchedEntries base old as)
  let n := (m.usedIndex base - old).toNat
  if n = 0 then { l with grants := grants }
  else { l with grants := grants.map fun g => g.indexMoved old n, owes := true }

/-- The ledger after a write of `v` to the device register at offset `off`: a write of 0 to status takes everything back
(spec/70_reset_and_hazards.md R262). -/
def Ledger.registerWritten (l : Ledger) (c : Config) (off v : U32) : Ledger :=
  if off = c.off.status ∧ v = 0 then Ledger.empty else l

/-- The ledger after a write by the device of bytes at `addr`, in the state `s` the write leaves; `old` is
the memory before it. -/
def State.ledgerAfterDevice (s : State) (old : Memory) (addr : U64) (n : Nat) : Ledger :=
  match s.ledger.ring with
  | none => { s.ledger with grants := s.ledger.grants.map fun g => g.wrote (addresses addr n) }
  | some base =>
    s.ledger.deviceWrote (addresses addr n) base (old.usedIndex base) s.mem

/-- The ledger after event `e`, in the state `s` in which it is recorded. The write of `avail.index` publishes the chain
(R274, spec/20_memory.md R90); the read of the length completes the reading of the entry at the cursor; a signal takes the
slot's chain back (R274); a command that completes in phase `RING_READY` or `LIVE` does so over the ring region at `qbase`.
The device's own writes are entered where they are made (`State.ledgerAfterDevice`). -/
def State.ledgerAfter (s : State) : Event → Ledger
  | .issue _ _ _ _ _ _ _ => s.ledger
  | .complete _ _ _ _ => if s.eng.phase.running then { s.ledger with ring := some s.eng.qbase } else s.ledger
  | .memR a n _ =>
    if n = 4 ∧ a = s.eng.usedLenAddr (modQ s.eng.lastConsumedUsed) then
      { s.ledger with grants := s.ledger.grants.map fun g => g.entryRead s.eng.lastConsumedUsed }
    else s.ledger
  | .memW a n _ =>
    if n = 2 ∧ a = s.eng.availIndexAddr then { s.ledger with grants := s.newGrant :: s.ledger.grants } else s.ledger
  | .mmioR _ _ => s.ledger
  | .mmioW off v => s.ledger.registerWritten s.cfg off v
  | .signal i => { s.ledger with grants := s.ledger.grants.filter fun g => g.head != i }
  | .devMemW _ _ _ => s.ledger
  | .devMemR _ _ _ => s.ledger
  | .devIrq bits => if bits &&& usedRingBit != 0 then { s.ledger with owes := false } else s.ledger

/-- Append an event to the history (spec/10_state.md R39); the ledger follows. -/
def State.log (s : State) (e : Event) : State := { s with history := e :: s.history, ledger := s.ledgerAfter e }

end Sys2Proof.Machine
end

