-- ==== Sys2Proof/Machine/Environment.lean ====
section
/-! DEFINITION. The moves of the environment: host software, the device, the platform (spec/00_scope.md R6,
spec/60_exceptions.md R243 to R249), and `RST` (spec/70_reset_and_hazards.md R260 to R262). -/

namespace Sys2Proof.Machine

/-- Write operand register `A<k>` and mark it written. -/
def Port.setA (q : Port) (k : Fin 4) (v : U64) : Port :=
  match k with
  | 0 => { q with a0 := v, written := { q.written with a0 := true } }
  | 1 => { q with a1 := v, written := { q.written with a1 := true } }
  | 2 => { q with a2 := v, written := { q.written with a2 := true } }
  | 3 => { q with a3 := v, written := { q.written with a3 := true } }

/-- A write of `word` to `CMD` of an idle port: the word and the operands are sampled and `BUSY` becomes 1
(spec/10_state.md R21, R22; spec/20_memory.md R95). -/
def Port.issued (q : Port) (word : U32) : Port :=
  { q with
    work := .outstanding
    sample := { word := word, a0 := q.a0, a1 := q.a1, a2 := q.a2, a3 := q.a3, pbuf := q.pbuf } }

/-- A write of `word` to `CMD` of port `p`: dropped while `BUSY = 1` (R21), and where there is no such port. -/
def State.issue (s : State) (p : Nat) (word : U32) : State :=
  if p ≤ s.cfg.nsub ∧ (s.port p).busy = false then
    let q := s.port p
    (s.setPort p fun q => q.issued word).log (.issue p word q.a0 q.a1 q.a2 q.a3 q.pbuf)
  else s

/-- `RST` (R260 to R262): every engine register and every port at its reset value, commands in progress abandoned, the
history and the ghosts empty; shared memory, the device and what belongs to the device are not touched (R262), the
environment's moves and the arbiter's choices to come stay to come. -/
def State.afterRst (s : State) : State :=
  { s with eng := Engine.reset, ports := Port.resetAll s.cfg, cur := 0, history := [] }

/-- Software's bytes of `PBUF` from byte `k` on (spec/10_state.md R26). DESIGN CHOICE (notes/assumptions/27): PBUF has one
mark "written" for R22 and U9, which any such write sets, one of some of its bytes or of none included. -/
def Port.setPbuf (q : Port) (k : Nat) (bytes : List Byte) : Port :=
  { q with pbuf := overwrite q.pbuf k bytes, written := { q.written with pbuf := true } }

/-- The device writes bytes of shared memory. -/
def State.deviceWrite (s : State) (addr : U64) (bytes : List Byte) : State :=
  let t := (s.setMem (s.mem.store addr bytes)).log (.devMemW addr bytes.length (ofLE bytes))
  t.setLedger fun _ => t.ledgerAfterDevice s.mem addr bytes.length

/-- The effect of one move of the environment. -/
def State.applyMove (s : State) : Move → State
  | .hostA p k v => s.setPort p fun q => q.setA k v
  | .hostPbuf p k bytes => s.setPort p fun q => q.setPbuf k bytes
  | .issue p word => s.issue p word
  | .hostMemW addr bytes => s.setMem (s.mem.store addr bytes)
  | .hostMmioW r v =>
    (s.setDev (s.dev.react v r)).setLedger fun l => l.registerWritten s.cfg (s.cfg.writeOff r) v
  | .hostConfigW offset b => s.setDev { s.dev with configSpace := SMap.insert offset b s.dev.configSpace }
  | .devMemW addr bytes => s.deviceWrite addr bytes
  | .devMemR addr n => s.log (.devMemR addr n (ofLE (s.mem.load addr n)))
  | .devIrq bits => (s.setDev { s.dev with interruptStatus := s.dev.interruptStatus ||| bits }).log (.devIrq bits)
  | .devIrqDrop bits => s.setDev { s.dev with interruptStatus := s.dev.interruptStatus &&& ~~~bits }
  | .devDecline => s.setDev { s.dev with status := s.dev.status &&& ~~~s.cfg.stFeaturesOk }
  | .devStatus bits => s.setDev { s.dev with status := s.dev.status ||| (bits &&& ~~~s.cfg.namedStatus) }
  | .devStatusDrop bits => s.setDev { s.dev with status := s.dev.status &&& ~~~(bits &&& ~~~s.cfg.namedStatus) }
  | .devOffer sel w => s.setDev { s.dev with hostFeatures := SMap.insert sel w s.dev.hostFeatures }
  | .devQueueMax q m => s.setDev (s.dev.setQueue q fun r => { r with max := m })
  | .devQueueRegs q num pfn => s.setDev (s.dev.setQueue q fun r => { r with num := num, pfn := pfn })
  | .devSeen i => s.setDev { s.dev with availSeen := i }
  | .devConfig offset b => s.setDev { s.dev with configSpace := SMap.insert offset b s.dev.configSpace }
  | .rst => s.afterRst

/-- Moves in order. -/
def State.applyMoves (s : State) (ms : List Move) : State := ms.foldl State.applyMove s

/-- The move asserts `RST`. -/
def Move.isRst : Move → Bool
  | .hostA _ _ _ => false
  | .hostPbuf _ _ _ => false
  | .issue _ _ => false
  | .hostMemW _ _ => false
  | .hostMmioW _ _ => false
  | .hostConfigW _ _ => false
  | .devMemW _ _ => false
  | .devMemR _ _ => false
  | .devIrq _ => false
  | .devIrqDrop _ => false
  | .devDecline => false
  | .devStatus _ => false
  | .devStatusDrop _ => false
  | .devOffer _ _ => false
  | .devQueueMax _ _ => false
  | .devQueueRegs _ _ _ => false
  | .devSeen _ => false
  | .devConfig _ _ => false
  | .rst => true

/-- The environment's moves at one point: the head of the script. -/
def State.turn (s : State) : State :=
  match s.script with
  | [] => s
  | ms :: rest => State.applyMoves { s with script := rest } ms

/-- `RST` is among the moves at the next point. -/
def State.rstNext (s : State) : Bool :=
  match s.script with
  | [] => false
  | ms :: _ => ms.any Move.isRst

/-- What the environment alone would have made of `s` in its next `k` points. -/
def State.environmentAlone : Nat → State → State
  | 0, s => s
  | k + 1, s => State.environmentAlone k s.turn

end Sys2Proof.Machine
end

