-- ==== Sys2Proof/Machine/Ops.lean ====
section
/-! DEFINITION. The shared operations of commands: the environment's points, the access primitives (spec/00_scope.md
R10), completion, protocol faults (R11, spec/60_exceptions.md R228), the order of checks (spec/30_encoding.md R119), holds
and their release, the choice of the next command. -/

namespace Sys2Proof.Machine

/-- What a part of a command ends in: it goes on with a value, or the command ends here (a protocol fault was raised, or
`RST` abandoned it). -/
inductive Acc (α : Type) where
  | ok (v : α) (s : State)
  | stop (r : Result)

/-- Go on with the rest of the command. -/
def Acc.bind {α β : Type} (x : Acc α) (f : α → State → Acc β) : Acc β :=
  match x with
  | .ok v s => f v s
  | .stop r => .stop r

/-- What the whole command ends in. -/
def Acc.result (x : Acc Unit) : Result :=
  match x with
  | .ok _ s => .next s
  | .stop r => r

/-- The environment's point before each step of the engine (spec/00_scope.md R6, spec/20_memory.md R88, R98): before a
command is taken up, before a bus access, and before an internal update that follows an access (notes/assumptions/8). It makes
its next moves; if `RST` is among them the running command is abandoned (spec/70_reset_and_hazards.md R260). -/
def point (s : State) : Acc Unit := if s.rstNext then .stop (.next s.turn) else .ok () s.turn

/-- `raise ProtocolFault(PFn)` on the state (R228, spec/10_state.md R37, R38): the first fault is kept, and with
`DEBUG_ASSERT` the `PFAULT` bit of a detected fault is set. -/
def State.raise (s : State) (pf : PF) : State :=
  s.setEng fun e =>
    { e with
      pfault := some (e.pfault.getD pf)
      pfaultReg := if s.cfg.debugAssert && pf.detected then e.pfaultReg ||| BitVec.twoPow 16 pf.number else e.pfaultReg }

/-- `raise ProtocolFault(PFn)`: the command ends in the faulted state. -/
def raise {α : Type} (pf : PF) (s : State) : Acc α := .stop (.next (s.raise pf))

/-- A port whose command has completed with `e` (R11): `ERR <- e`, `BUSY` clears. -/
def Port.completed (q : Port) (e : ErrVal) : Port := { q with err := e, work := .idle }

/-- The command of port `p` completes with `e` (R11), and the event. -/
def State.complete (s : State) (p : Nat) (e : ErrVal) : State :=
  (s.setPort p fun q => q.completed e).log (.complete p e (s.port p).r0 (s.port p).r1)

/-- `done(e)` of the running command. -/
def done (e : ErrVal) (s : State) : Acc Unit := .ok () (s.complete s.cur e)

/-- The internal update `f` and `done(e)` of a command that has made accesses: the environment may act between the last of
them and this (R6). -/
def finish (e : ErrVal) (f : State → State) (s : State) : Acc Unit := (point s).bind fun _ s => done e (f s)

/-- `MMIORead`. -/
def mmioRead (r : ReadReg) (s : State) : Acc U32 :=
  (point s).bind fun _ s => .ok (s.dev.answer r) (s.log (.mmioR (s.cfg.readOff r) (s.dev.answer r)))

/-- `MMIOWrite`. -/
def mmioWrite (r : WriteReg) (v : U32) (s : State) : Acc Unit :=
  (point s).bind fun _ s => .ok () ((s.setDev (s.dev.react v r)).log (.mmioW (s.cfg.writeOff r) v))

/-- `MemRead(addr, n)`, one atomic access. -/
def memRead (addr : U64) (n : Nat) (s : State) : Acc Nat :=
  (point s).bind fun _ s => .ok (ofLE (s.mem.load addr n)) (s.log (.memR addr n (ofLE (s.mem.load addr n))))

/-- `MemRead(addr, 2)`. -/
def memRead16 (addr : U64) (s : State) : Acc U16 := (memRead addr 2 s).bind fun v s => .ok (BitVec.ofNat 16 v) s

/-- `MemRead(addr, 4)`. -/
def memRead32 (addr : U64) (s : State) : Acc U32 := (memRead addr 4 s).bind fun v s => .ok (BitVec.ofNat 32 v) s

/-- `MemWrite(addr, n, v)`, one atomic access (spec/20_memory.md R83: widths 2 and 4; single bytes of a byte string). -/
def memWrite (addr : U64) (n : Nat) (v : Nat) (s : State) : Acc Unit :=
  (point s).bind fun _ s => .ok () ((s.setMem (s.mem.store addr (leBytes n v))).log (.memW addr n v))

/-- The bytes of one access that is not single-copy atomic: the environment has a point before each. -/
def storeTorn (addr : U64) : List Byte → State → Acc Unit
  | [], s => .ok () s
  | b :: bs, s => (point s).bind fun _ s => storeTorn (addr + 1) bs (s.setMem (s.mem.write addr.toNat b))

/-- `MemWrite(addr, 8, v)`: not guaranteed single-copy atomic (spec/20_memory.md R83, notes/assumptions/15). -/
def memWrite64 (addr : U64) (v : U64) (s : State) : Acc Unit :=
  (storeTorn addr (leBytes 8 v.toNat) s).bind fun _ s => .ok () (s.log (.memW addr 8 v.toNat))

/-- `MemWriteBytes(addr, b)`: byte writes at consecutive addresses, with no atomicity as a whole (R83,
notes/assumptions/14). -/
def memWriteBytes (addr : U64) : List Byte → State → Acc Unit
  | [], s => .ok () s
  | b :: bs, s => (memWrite addr 1 b.toNat s).bind fun _ s => memWriteBytes (addr + 1) bs s

/-- `MemFill(addr, n, 0)`: `n` zero bytes. -/
def memFill (addr : U64) (n : Nat) (s : State) : Acc Unit := memWriteBytes addr (List.replicate n 0) s

/-- "sets" a status bit: read, OR, write (spec/40_control_register_ops.md R141). -/
def setStatus (bit : U32) (s : State) : Acc Unit :=
  (mmioRead .status s).bind fun v s => mmioWrite .status (v ||| bit) s

/-- The checks of R119, steps 2 to 5, in order. -/
def checks (i : Instr) (s : State) : Acc Unit :=
  if contextAllows i s.cur = false then raise .pf5 s
  else if phaseAllows i s.eng.phase = false then raise .pf6 s
  else if needsLock i = true ∧ s.eng.lock ≠ .held s.cur then raise .pf4 s
  else if slotOk i = false then raise .pf7 s
  else .ok () s

/-- A command: the checks, then its own rule. -/
def command (i : Instr) (body : State → Acc Unit) (s : State) : Result :=
  ((checks i s).bind fun _ s => body s).result

/-- The ports whose `work` is `w`, in order. -/
def State.portsAt (s : State) (w : Work) : List Nat :=
  (List.range s.ports.length).filter fun p => (s.port p).work == w

/-- Complete the commands held on the ports `ps`, with `OK`. -/
def State.release (s : State) (ps : List Nat) : State := ps.foldl (fun s p => s.complete p .ok) s

/-- `completion[i] <- SIGNALED; event Signal(i); complete every WAIT currently holding on slot i`, in one step
(spec/42_slot_pool_ops.md R182; order of the completions: notes/assumptions/13). -/
def State.signalSlot (s : State) (i : Nat) : State :=
  ((s.setEng fun e => { e with completion := setSignaled e.completion i }).log (.signal i)).release (s.portsAt (.holdWait i))

/-- Hold the running command (R11): `BUSY` stays 1 and nothing else changes. -/
def hold (w : Work) (s : State) : Acc Unit := .ok () (s.setPort s.cur fun q => { q with work := w })

/-- One of several candidates, none promised (R186, R233): the next of the arbiter's choices if it names a candidate,
else a free value (notes/assumptions/9). With one candidate there is no choice. -/
def choose (cands : List Nat) (s : State) : Option (Nat × State) :=
  match cands with
  | [] => none
  | [p] => some (p, s)
  | c :: cs =>
    match s.choices with
    | p :: ps => if (c :: cs).contains p then some (p, { s with choices := ps }) else some (freeChoice c cs s)
    | [] => some (freeChoice c cs s)
where
  freeChoice (c : Nat) (cs : List Nat) (s : State) : Nat × State :=
    ((c :: cs)[freePick s.freeCount % (cs.length + 1)]?.getD c,
     { s with choices := s.choices.tail, freeCount := s.freeCount + 1 })

/-- The command the engine takes up next, if any is outstanding (R233), and the state in which it runs. -/
def takeUp (s : State) : Option (Nat × State) :=
  (choose (s.portsAt .outstanding) s).map fun c => (c.1, { c.2 with cur := c.1 })

/-- What a command that is not one does (R115, R116): `ERR = 5`, nothing else, in every phase and on every port. -/
def illegalCommand (s : State) : Result := (done .illegalCommand s).result

/-- The port whose context a command belongs to, where it is placed from outside (R242): 0 for the handler's own
commands, else 1 (notes/assumptions/11). -/
def homePort (w : U32) : Nat :=
  match decode w with
  | .instr i => if contextAllows i 1 then 1 else 0
  | .illegalRsv _ => 1
  | .illegalOpc _ => 1

/-- Place a command word so that the very next step takes it up: an environment point with no moves, the port idle, the
word issued on it, and, if other commands are outstanding, the arbiter's next choice (notes/assumptions/11). -/
def State.place (s : State) (word : U32) : State :=
  let p := homePort word
  let s := { s with script := if s.script.isEmpty then [] else [] :: s.script }
  let s := (s.setPort p fun q => { q with work := .idle }).issue p word
  if (s.portsAt .outstanding).length ≤ 1 then s else { s with choices := p :: s.choices }

end Sys2Proof.Machine
end

