-- ==== Sys2Proof/Machine/ControlRegister.lean ====
section
/-! DEFINITION. The Control-Register Interface commands (spec/40_control_register_ops.md R140 to R145). -/

namespace Sys2Proof.Machine

/-- R141. -/
def negotiateBody (s : State) : Acc Unit :=
  (mmioWrite .status 0 s).bind fun _ s =>
  (setStatus s.cfg.stAcknowledge s).bind fun _ s =>
  (setStatus s.cfg.stDriver s).bind fun _ s =>
  (mmioRead .hostFeatures s).bind fun hf s =>
  let gf := hf &&& low32 s.operands.a0
  (mmioWrite .guestFeatures gf s).bind fun _ s =>
  (setStatus s.cfg.stFeaturesOk s).bind fun _ s =>
  (mmioRead .status s).bind fun s4 s =>
  if s4 &&& s.cfg.stFeaturesOk = 0 then
    finish .featureFail (fun s => s.setEng fun e => { e with phase := .failed }) s
  else
    finish .ok (fun s => (s.setEng fun e => { e with features := gf, phase := .featuresOk }).setR0 (zext64 gf)) s

/-- `NEGOTIATE` (R141). -/
def execNegotiate (s : State) : Result := command .negotiate negotiateBody s

/-- R142. -/
def cfgringBody (index : U16) (s : State) : Acc Unit :=
  let size := low32 s.operands.a0
  let pageSize := low32 s.operands.a1
  let pfn := low32 s.operands.a2
  (mmioWrite .queueSel (zext32 index) s).bind fun _ s =>
  (mmioRead .queueNumMax s).bind fun max s =>
  if max < size then
    finish .ringSizeTooSmall (fun s => s.setEng fun e => { e with phase := .failed }) s
  else
    (mmioWrite .queueNum size s).bind fun _ s =>
    (mmioWrite .guestPageSize pageSize s).bind fun _ s =>
    (mmioWrite .queuePfn pfn s).bind fun _ s =>
    finish .ok (fun s => s.setEng fun e =>
      { e with cfgSize := size, cfgPage := pageSize, cfgPfn := pfn, phase := .ringConfigured }) s

/-- `CFGRING` (R142). -/
def execCfgring (index : U16) (s : State) : Result := command (.cfgring index) (cfgringBody index) s

/-- R143. -/
def drvokBody (s : State) : Acc Unit :=
  (setStatus s.cfg.stDriverOk s).bind fun _ s => finish .ok (fun s => s.setEng fun e => { e with phase := .live }) s

/-- `DRVOK` (R143). -/
def execDrvok (s : State) : Result := command .drvok drvokBody s

/-- R144. -/
def notifyBody (queue : U16) (s : State) : Acc Unit :=
  (mmioWrite .queueNotify (zext32 queue) s).bind fun _ s => finish .ok id s

/-- `NOTIFY` (R144). -/
def execNotify (queue : U16) (s : State) : Result := command (.notify queue) (notifyBody queue) s

/-- R145. -/
def ipendBody (s : State) : Acc Unit :=
  (mmioRead .interruptStatus s).bind fun v s => finish .ok (fun s => s.setR0 (zext64 v)) s

/-- `IPEND` (R145). -/
def execIpend (s : State) : Result := command .ipend ipendBody s

end Sys2Proof.Machine
end

