-- ==== Sys2Proof/Machine/RingTransport.lean ====
section
/-! DEFINITION. The Ring Transport commands (spec/41_ring_transport_ops.md R160 to R167). A line `[contract]` of the spec
is a test that raises a protocol fault without a bus event (R160); a line `[ghost]` updates `inflight`. -/

namespace Sys2Proof.Machine

/-- The condition of QINIT's contract (R162): size, page size, and no region past 2^64. -/
abbrev State.layoutFits (s : State) (pool : U64) : Prop :=
  s.eng.cfgSize.toNat = qsize ∧ s.eng.cfgPage.toNat = pageBytes
    ∧ s.eng.cfgPfn.toNat * s.eng.cfgPage.toNat + ringPages * pageBytes ≤ 2 ^ 64
    ∧ pool.toNat + qsize * s.cfg.reqStride ≤ 2 ^ 64

/-- The registers after construction (R162): cursors, chain registers, completions, the ghost map, the phase. -/
def Engine.constructed (e : Engine) : Engine :=
  { e with
    nextFreeDesc := 0, lastConsumedUsed := 0, chainHead := 0, chainLen := 0, chainOpen := false,
    completion := BitVec.allOnes 128, inflight := [], phase := .ringReady }

/-- R162. -/
def qinitBody (s : State) : Acc Unit :=
  let pool := s.operands.a0
  if s.layoutFits pool then
    let s := s.setEng fun e => { e with qbase := zext64 e.cfgPfn * zext64 e.cfgPage, poolBase := pool }
    (memFill s.eng.qbase (ringPages * pageBytes) s).bind fun _ s =>
    finish .ok (fun s => s.setEng Engine.constructed) s
  else raise .pf9 s

/-- `QINIT` (R162). -/
def execQinit (s : State) : Result := command .qinit qinitBody s

/-- R161. -/
def allocBody (s : State) : Acc Unit := done .ok (s.setR0 (zext64 s.eng.nextFreeDesc))

/-- `ALLOC` (R161). -/
def execAlloc (s : State) : Result := command .alloc allocBody s

/-- `min(chain_len + 1, QSIZE + 1)` (R163, spec/10_state.md R30). -/
def chainLenSucc (len : U16) : U16 := if len.toNat + 1 ≤ qsize + 1 then len + 1 else BitVec.ofNat 16 (qsize + 1)

/-- The `next` field ADDDESC writes (R163): the next index where `NEXT` is set, else 0. -/
def Engine.nextField (e : Engine) (cont : Bool) : U16 := if cont then modQ (e.nextFreeDesc + 1) else 0

/-- The chain registers after one more descriptor (R163). -/
def Engine.described (e : Engine) (cont : Bool) : Engine :=
  { e with nextFreeDesc := modQ (e.nextFreeDesc + 1), chainLen := chainLenSucc e.chainLen, chainOpen := cont }

/-- R163. -/
def adddescBody (flags : U16) (s : State) : Acc Unit :=
  if 0 < s.eng.chainLen.toNat ∧ s.eng.chainOpen = false then raise .pf2 s
  else if ¬ s.eng.chainLen.toNat < qsize then raise .pf1 s
  else if s.eng.inFlightDesc s.eng.nextFreeDesc.toNat then raise .pf8 s
  else
    let addr := s.operands.a0
    let len := low32 s.operands.a1
    let cont := s.cfg.hasNext flags
    let at_ := s.eng.descAddr s.eng.nextFreeDesc
    let next := s.eng.nextField cont
    (memWrite64 at_ addr s).bind fun _ s =>
    (memWrite (at_ + 8) 4 len.toNat s).bind fun _ s =>
    (memWrite (at_ + 12) 2 flags.toNat s).bind fun _ s =>
    (memWrite (at_ + 14) 2 next.toNat s).bind fun _ s =>
    finish .ok (fun s => s.setEng fun e => e.described cont) s

/-- `ADDDESC` (R163). -/
def execAdddesc (flags : U16) (s : State) : Result := command (.adddesc flags) (adddescBody flags) s

/-- The chain registers and the ghost map after a publication (R164, spec/10_state.md R59). -/
def Engine.published (e : Engine) : Engine :=
  { e with
    inflight := SMap.insert e.chainHead.toNat (chainIndices e.chainHead e.chainLen) e.inflight
    chainHead := e.nextFreeDesc, chainLen := 0, chainOpen := false }

/-- R164: the ring entry is written before the index (spec/20_memory.md R90). -/
def publishBody (s : State) : Acc Unit :=
  if 1 ≤ s.eng.chainLen.toNat ∧ s.eng.chainOpen = false then
    (memRead16 s.eng.availIndexAddr s).bind fun idx s =>
    (memWrite (s.eng.availRingAddr (modQ idx)) 2 s.eng.chainHead.toNat s).bind fun _ s =>
    (memWrite s.eng.availIndexAddr 2 (idx + 1).toNat s).bind fun _ s =>
    finish .ok (fun s => s.setEng Engine.published) s
  else raise .pf2 s

/-- `PUBLISH` (R164). -/
def execPublish (s : State) : Result := command .publish publishBody s

/-- R165. -/
def pollBody (s : State) : Acc Unit :=
  (memRead16 s.eng.usedIndexAddr s).bind fun u s =>
  finish .ok (fun s => s.setR0 (if pending u s.eng.lastConsumedUsed then 1 else 0)) s

/-- `POLL` (R165). -/
def execPoll (s : State) : Result := command .poll pollBody s

/-- Read the next used-ring entry and, in the internal update that follows the reads, advance the cursor (R166, R200; the
`used.index` test is the caller's). -/
def takeEntry (s : State) : Acc (U32 × U32) :=
  (memRead32 (s.eng.usedIdAddr (modQ s.eng.lastConsumedUsed)) s).bind fun id s =>
  (memRead32 (s.eng.usedLenAddr (modQ s.eng.lastConsumedUsed)) s).bind fun len s =>
  (point s).bind fun _ s =>
  .ok (id, len) (s.setEng fun e => { e with lastConsumedUsed := e.lastConsumedUsed + 1 })

/-- `[ghost] remove key id from inflight (if present)` (R166, spec/10_state.md R59). -/
def State.landed (s : State) (id : U32) : State :=
  s.setEng fun e => { e with inflight := SMap.erase id.toNat e.inflight }

/-- `used.index` as it stands in memory, for the contract of TAKE: no bus event (spec/60_exceptions.md R227). -/
def State.usedIndexNow (s : State) : U16 := BitVec.ofNat 16 (ofLE (s.mem.load s.eng.usedIndexAddr 2))

/-- R166. -/
def takeBody (s : State) : Acc Unit :=
  if pending s.usedIndexNow s.eng.lastConsumedUsed then
    (takeEntry s).bind fun e s => done .ok (((s.landed e.1).setR0 (zext64 e.1)).setR1 e.2)
  else raise .pf3 s

/-- `TAKE` (R166). -/
def execTake (s : State) : Result := command .take takeBody s

end Sys2Proof.Machine
end

