-- ==== Sys2Proof/Machine/SlotPool.lean ====
section
/-! DEFINITION. The Slot Pool and synchronizer commands (spec/42_slot_pool_ops.md R180 to R187). -/

namespace Sys2Proof.Machine

/-- R180. -/
def getBody (slot : U16) (s : State) : Acc Unit :=
  done .ok ((s.setR0 (s.payload slot)).setR1 (if s.eng.signaled slot.toNat then 1 else 0))

/-- `GET` (R180). -/
def execGet (slot : U16) (s : State) : Result := command (.get slot) (getBody slot) s

/-- `PBUF[0 .. REQ_BYTES-1]` as sampled (spec/10_state.md R26). -/
def State.payloadBytes (s : State) : List Byte := s.operands.pbuf.take s.cfg.reqBytes

/-- R181. -/
def installBody (slot : U16) (s : State) : Acc Unit :=
  if s.eng.signaled slot.toNat = false then done .requestError s
  else
    (memWriteBytes (s.payload slot) s.payloadBytes s).bind fun _ s =>
    finish .ok (fun s => (s.setEng fun e => { e with completion := setPending e.completion slot.toNat }).setR0 (s.payload slot)) s

/-- `INSTALL` (R181). -/
def execInstall (slot : U16) (s : State) : Result := command (.install slot) (installBody slot) s

/-- R182. -/
def signalBody (slot : U16) (s : State) : Acc Unit :=
  if s.eng.inFlightHead slot.toNat then raise .pf8 s else done .ok (s.signalSlot slot.toNat)

/-- `SIGNAL` (R182). -/
def execSignal (slot : U16) (s : State) : Result := command (.signal slot) (signalBody slot) s

/-- R184: a level test that does not consume the signal (R183). -/
def waitBody (slot : U16) (s : State) : Acc Unit :=
  if s.eng.signaled slot.toNat then done .ok s else hold (.holdWait slot.toNat) s

/-- `WAIT` (R184). -/
def execWait (slot : U16) (s : State) : Result := command (.wait slot) (waitBody slot) s

/-- `lock <- v`. -/
def State.setLock (s : State) (v : Lock) : State := s.setEng fun e => { e with lock := v }

/-- R186: the test and the write are one step. -/
def lockBody (s : State) : Acc Unit :=
  match s.eng.lock with
  | .free => done .ok (s.setLock (.held s.cur))
  | .held _ => hold .holdLock s

/-- `LOCK` (R186). -/
def execLock (s : State) : Result := command .lock lockBody s

/-- The lock becomes free, and one of the ports holding in LOCK, if any, acquires it (R186, R187). -/
def State.unlocked (s : State) : State :=
  match choose (s.portsAt .holdLock) s with
  | none => s.setLock .free
  | some (q, s) => (s.setLock (.held q)).complete q .ok

/-- R187. -/
def unlockBody (s : State) : Acc Unit :=
  if s.eng.chainLen.toNat = 0 then done .ok s.unlocked else raise .pf2 s

/-- `UNLOCK` (R187). -/
def execUnlock (s : State) : Result := command .unlock unlockBody s

end Sys2Proof.Machine
end

