-- ==== Sys2Proof/Machine/Protocol.lean ====
section
/-! DEFINITION. The interrupt handler command IRQH (spec/43_protocol_ops.md R200), and the pseudo-instructions of R201,
R202, R205 as the command listings they stand for (spec/30_encoding.md R121). -/

namespace Sys2Proof.Machine

/-- The loop of R200, `n` completions signalled so far; `n` is the 32-bit result of spec/30_encoding.md R113. The cursor, the
ghost, the completion bit, the signal and the released WAITs are one internal update after the entry's reads. `fuel` bounds
the number of index reads; `drainFuel` is always enough (Laws/Drain.lean, notes/assumptions/19), so the first case is not
reached. -/
def drain : Nat → U32 → State → Acc U32
  | 0, n, s => .ok n s
  | fuel + 1, n, s =>
    (memRead16 s.eng.usedIndexAddr s).bind fun u s =>
    if pending u s.eng.lastConsumedUsed then
      (takeEntry s).bind fun e s =>
      if e.1.toNat < qsize then drain fuel (n + 1) ((s.landed e.1).signalSlot e.1.toNat) else raise .pf7 s
    else .ok n s

/-- A bound on the index reads of one run: while the environment still has moves to make a run may go on, and after the
last of them `used.index` stands still and the cursor reaches it within 65536 reads. -/
def State.drainFuel (s : State) : Nat := s.script.length + 65536

/-- R200. -/
def irqhBody (s : State) : Acc Unit :=
  (mmioRead .interruptStatus s).bind fun st s =>
  if st = 0 then finish .noInterrupt id s
  else
    (mmioWrite .interruptAck st s).bind fun _ s =>
    (drain s.drainFuel 0 s).bind fun n s => finish .ok (fun s => s.setR0 (zext64 n)) s

/-- `IRQH` (R200). -/
def execIrqh (s : State) : Result := command .irqh irqhBody s

/-- One command of a listing: the operand registers it sets, then the word (spec/30_encoding.md R120). -/
structure Cmd where
  instr : Instr
  a0 : Option U64 := none
  a1 : Option U64 := none
  a2 : Option U64 := none
  pbuf : Option (List Byte) := none
deriving DecidableEq, Repr

/-- The moves by which software issues a command on port `p`. -/
def Cmd.moves (c : Cmd) (p : Nat) : List Move :=
  (c.a0.map (Move.hostA p 0)).toList ++ (c.a1.map (Move.hostA p 1)).toList ++ (c.a2.map (Move.hostA p 2)).toList
    ++ (c.pbuf.map (Move.hostPbuf p 0)).toList ++ [Move.issue p (encode c.instr)]

/-- `SETUP mask, index, pfn, pool_base` (R202): the five steps; software stops after a command that ends with
`ERR` not 0. -/
def setupListing (mask : U32) (index : U16) (pfn : U32) (pool : U64) : List Cmd :=
  [ { instr := .negotiate, a0 := some (zext64 mask) },
    { instr := .cfgring index, a0 := some (BitVec.ofNat 64 qsize), a1 := some (BitVec.ofNat 64 pageBytes), a2 := some (zext64 pfn) },
    { instr := .qinit, a0 := some pool },
    { instr := .drvok } ]

/-- One descriptor of a request: address, length, flags. -/
structure Desc where
  addr : U64
  len : U32
  flags : U16
deriving DecidableEq, Repr

/-- Step 3 of R201: `NEXT` set on every descriptor but the last, clear on the last. -/
def buildListing (fNext : U16) : List Desc → List Cmd
  | [] => []
  | [d] => [{ instr := .adddesc (d.flags &&& ~~~fNext), a0 := some d.addr, a1 := some (zext64 d.len) }]
  | d :: ds => { instr := .adddesc (d.flags ||| fNext), a0 := some d.addr, a1 := some (zext64 d.len) } :: buildListing fNext ds

/-- Steps 1 and 2 of `SUBMIT` (R201) up to ALLOC, whose result is the slot. -/
def submitOpening : List Cmd := [{ instr := .lock }, { instr := .alloc }]

/-- Step 2 of R201: the payload into the slot. -/
def submitInstall (slot : U16) (payload : List Byte) : Cmd := { instr := .install slot, pbuf := some payload }

/-- Steps 3 to 6 of R201 after a successful INSTALL: build, publish, unlock, notify. -/
def submitPost (c : Config) (ds : List Desc) : List Cmd :=
  buildListing c.fNext ds ++ [{ instr := .publish }, { instr := .unlock }, { instr := .notify c.qidx }]

/-- Step 7 and the commands of step 8 of R201: the wait, and the second notify and wait only with `DOUBLE_NOTIFY`. -/
def submitWait (c : Config) (slot : U16) : List Cmd :=
  { instr := .wait slot } :: if c.doubleNotify then [{ instr := .notify c.qidx }, { instr := .wait slot }] else []

/-- Steps 3 to 8 of R201 after a successful INSTALL. -/
def submitRest (c : Config) (slot : U16) (ds : List Desc) : List Cmd := submitPost c ds ++ submitWait c slot

/-- Where the status byte of the payload at `h` stands (R201 step 8). -/
def statusAddr (c : Config) (h : U64) : U64 := h + BitVec.ofNat 64 c.statusOff

/-- Steps 8 and 9 of R201: the submitter's own read of the status byte at `h + STATUS_OFF`. -/
def State.submitSucceeded (s : State) (h : U64) : Bool :=
  s.cfg.okStatus.contains (s.mem.read (statusAddr s.cfg h).toNat)

/-- `HANDLER` (R121). -/
def handlerListing : List Cmd := [{ instr := .irqh }]

/-- `DRAIN` (R205, R121) where IPEND answers non-zero, for the completions whose ids are `ids`: IPEND, then POLL, TAKE,
SIGNAL for each, then the POLL that answers 0. Where IPEND answers zero it is IPEND alone (`DrainAt`, Machine/Software.lean). -/
def drainListing (ids : List U16) : List Cmd :=
  { instr := .ipend } :: ids.flatMap (fun id => [{ instr := .poll }, { instr := .take }, { instr := .signal id }])
    ++ [{ instr := .poll }]

end Sys2Proof.Machine
end

