-- ==== Sys2Proof/Machine/Dispatch.lean ====
section
/-! DEFINITION. One arm per command. -/

namespace Sys2Proof.Machine

def exec (i : Instr) (s : State) : Host.Outcome State Fault Refusal :=
  match i with
  | .negotiate => Sys2Proof.Machine.execNegotiate s
  | .cfgring index => Sys2Proof.Machine.execCfgring index s
  | .drvok => Sys2Proof.Machine.execDrvok s
  | .notify queue => Sys2Proof.Machine.execNotify queue s
  | .ipend => Sys2Proof.Machine.execIpend s
  | .qinit => Sys2Proof.Machine.execQinit s
  | .alloc => Sys2Proof.Machine.execAlloc s
  | .adddesc flags => Sys2Proof.Machine.execAdddesc flags s
  | .publish => Sys2Proof.Machine.execPublish s
  | .poll => Sys2Proof.Machine.execPoll s
  | .take => Sys2Proof.Machine.execTake s
  | .get slot => Sys2Proof.Machine.execGet slot s
  | .install slot => Sys2Proof.Machine.execInstall slot s
  | .signal slot => Sys2Proof.Machine.execSignal slot s
  | .wait slot => Sys2Proof.Machine.execWait slot s
  | .lock => Sys2Proof.Machine.execLock s
  | .unlock => Sys2Proof.Machine.execUnlock s
  | .irqh => Sys2Proof.Machine.execIrqh s

end Sys2Proof.Machine
end

