-- ==== Sys2Proof/Machine/Step.lean ====
section
/-! DEFINITION. One step of the engine, and placing a command from outside. -/

namespace Sys2Proof.Machine

/-- Run the command of the issuing port (spec/30_encoding.md R119 step 1, R115). -/
def runWord (word : U32) (s : State) : Host.Outcome State Fault Refusal :=
  match decode word with
  | .instr i => exec i s
  | .illegalRsv _ => illegalCommand s
  | .illegalOpc _ => illegalCommand s

/-- One step (notes/assumptions/8): the environment makes its moves; a faulted state stops (spec/60_exceptions.md R228);
else the engine takes up one outstanding command (R233) and runs it to its completion or hold, or, with none outstanding,
stays as it is (spec/10_state.md R54). -/
def step (s : State) : Host.Outcome State Fault Refusal :=
  match point s with
  | .stop r => r
  | .ok _ s =>
    match s.eng.pfault with
    | some pf => .fault (.protocol pf)
    | none =>
      match takeUp s with
      | none => .next s
      | some (p, s) => runWord (s.port p).sample.word s

/-- `s` with the command word of the bits `w` placed where the next step takes it up (notes/assumptions/11). -/
def State.withFetchWord (s : State) (nbits w : Nat) : State := s.place (tableWord nbits w)

end Sys2Proof.Machine
end

