-- ==== Sys2Proof/Machine/Software.lean ====
section
/-! DEFINITION. The pseudo-instructions of spec/43_protocol_ops.md R201, R202, R205 with software's own control flow between
their commands (spec/30_encoding.md R121): what is issued next depends on what the command before it answered. -/

namespace Sys2Proof.Machine

/-- What software reads of its port when a command has completed (spec/10_state.md R23, R24). -/
structure Reply where
  err : ErrVal
  r0 : U64
  r1 : U32
deriving DecidableEq, Repr

/-- A sequence of commands with control flow: end with a value, issue a command and go on with its reply, or read a byte
of shared memory and go on with it. -/
inductive Routine (α : Type) where
  | ret (v : α)
  | issue (c : Cmd) (next : Reply → Routine α)
  | read (addr : U64) (next : Byte → Routine α)

/-- Commands in order, their replies unused, then `next`. -/
def Routine.cmds {α : Type} (cs : List Cmd) (next : Routine α) : Routine α :=
  cs.foldr (fun c r => .issue c fun _ => r) next

/-- The result of `SUBMIT` (R201). -/
inductive SubmitResult where
  | requestError
  | success
  | failure
deriving DecidableEq, Repr

/-- Steps 1 and 2 of R201: the lock, the slot, the payload; on `RequestError` software unlocks and gives that up, else it
goes on with the slot and the payload's address. -/
def submitWith {α : Type} (payload : List Byte) (refused : α) (next : U16 → U64 → Routine α) : Routine α :=
  .issue { instr := .lock } fun _ =>
  .issue { instr := .alloc } fun a =>
  .issue (submitInstall (a.r0.setWidth 16) payload) fun h =>
  if h.err = .requestError then .issue { instr := .unlock } fun _ => .ret refused
  else next (a.r0.setWidth 16) h.r0

/-- `SUBMIT payload; descriptors; QIDX` (R201): the nine steps, and their result. -/
def submit (c : Config) (payload : List Byte) (ds : List Desc) : Routine SubmitResult :=
  submitWith payload .requestError fun slot h =>
    .cmds (submitRest c slot ds) <|
    .read (statusAddr c h) fun b => .ret (if c.okStatus.contains b then .success else .failure)

/-- The asynchronous form (R205): steps 1 to 6 only; it returns the slot at once, or `none` on `RequestError`. -/
def submitAsync (c : Config) (payload : List Byte) (ds : List Desc) : Routine (Option U16) :=
  submitWith payload none fun slot _ => .cmds (submitPost c ds) (.ret (some slot))

/-- `SETUP` (R202): the error of a step that ends with one is fatal and surfaced, and the later steps are not issued. -/
def setup (mask : U32) (index : U16) (pfn : U32) (pool : U64) : Routine ErrVal :=
  go (setupListing mask index pfn pool)
where
  go : List Cmd → Routine ErrVal
    | [] => .ret .ok
    | c :: cs => .issue c fun r => if r.err = .ok then go cs else .ret r.err

/-- `HANDLER` (R121): the handler's error value and count. -/
def handler : Routine (ErrVal × U64) := .issue { instr := .irqh } fun r => .ret (r.err, r.r0)

/-- Where the `DRAIN` sequence stands (R205): it has no bound of its own, so it is given by its next command. -/
inductive DrainAt where
  | ipend
  | poll
  | take
  | signal (id : U16)
  | finished
  /-- TAKE has returned an id that names no slot. -/
  | badId (id : U64)
deriving DecidableEq, Repr

/-- The command `DRAIN` issues next, on port 0. -/
def DrainAt.cmd : DrainAt → Option Cmd
  | .ipend => some { instr := .ipend }
  | .poll => some { instr := .poll }
  | .take => some { instr := .take }
  | .signal id => some { instr := .signal id }
  | .finished => none
  | .badId _ => none

/-- How `DRAIN` goes on with a reply: it returns if IPEND answers zero, and repeats while POLL answers 1. DESIGN
CHOICE (notes/assumptions/25): where TAKE returns an id that names no slot, which R166 leaves to the caller to check and of
which the spec says no more, it signals nothing and ends with that id. -/
def DrainAt.next (d : DrainAt) (r : Reply) : DrainAt :=
  match d with
  | .ipend => if r.r0 = 0 then .finished else .poll
  | .poll => if r.r0 = 1 then .take else .finished
  | .take => if r.r0.toNat < qsize then .signal (r.r0.setWidth 16) else .badId r.r0
  | .signal _ => .poll
  | .finished => .finished
  | .badId id => .badId id

/-- At most `n` commands of `DRAIN` from where it stands; the value says where it then stands. -/
def drainRoutine : Nat → DrainAt → Routine DrainAt
  | 0, d => .ret d
  | n + 1, d =>
    match d.cmd with
    | none => .ret d
    | some c => .issue c fun r => drainRoutine n (d.next r)

/-- The commands a routine issues when its commands are answered as `replies` say and its reads as `bytes` say, and its
value if it comes to its end. -/
def Routine.trace {α : Type} : Routine α → List Reply → List Byte → List Cmd × Option α
  | .ret v, _, _ => ([], some v)
  | .issue c _, [], _ => ([c], none)
  | .issue c next, r :: rs, bs => (c :: ((next r).trace rs bs).1, ((next r).trace rs bs).2)
  | .read _ _, _, [] => ([], none)
  | .read _ next, rs, b :: bs => (next b).trace rs bs

/-- Step until the command of port `p` has completed, at most `n` steps. -/
def settle (p : Nat) : Nat → State → Option State
  | 0, s => if (s.port p).busy then none else some s
  | n + 1, s =>
    if (s.port p).busy then
      match step s with
      | .next t => settle p n t
      | .fault _ => none
      | .refused _ => none
    else some s

/-- Run a routine on port `p` of the machine: each command with its operands written and issued, at most `n` steps for
each to complete, its reply read from the port; `none` if one does not complete. -/
def Routine.drive {α : Type} (p n : Nat) : Routine α → State → Option (α × State)
  | .ret v, s => some (v, s)
  | .issue c next, s =>
    match settle p n (s.applyMoves (c.moves p)) with
    | none => none
    | some t => (next { err := (t.port p).err, r0 := (t.port p).r0, r1 := (t.port p).r1 }).drive p n t
  | .read addr next, s => (next (s.mem.read addr.toNat)).drive p n s

end Sys2Proof.Machine
end

