-- ==== Sys2Proof/WellFormed.lean ====
section
/-! DEFINITION. What is well formed: commands, command words, configurations. -/

namespace Sys2Proof

/-- The opcodes of spec/30_encoding.md R114. -/
def definedOpcodes : List (BitVec 8) :=
  [0x01, 0x02, 0x03, 0x04, 0x05, 0x10, 0x11, 0x12, 0x13, 0x14, 0x15, 0x20, 0x21, 0x22, 0x23, 0x24, 0x25, 0x30]

/-- The opcodes that spec/30_encoding.md R115 lists as illegal. -/
def reservedOpcode (o : BitVec 8) : Bool :=
  o == 0x00 || decide (0x06 ≤ o ∧ o ≤ 0x0F) || decide (0x16 ≤ o ∧ o ≤ 0x1F) || decide (0x26 ≤ o ∧ o ≤ 0x2F) || decide (0x31 ≤ o)

/-- A command word is legal when its `RSV` field is 0 (R116) and its `OPC` is defined (R115). -/
def wordWellFormed (w : U32) : Bool :=
  w.extractLsb' 8 8 == 0 && definedOpcodes.contains (w.extractLsb' 0 8)

/-- Every command term is well formed: an operand is a 16-bit field and the encoding admits all its values (R112:
no immediate is signed, scaled or shifted). A slot index of 128 or more is a well-formed operand; it is the protocol
fault PF7 when the command is taken up (R119, vector V-EN-22). -/
def Instr.wellFormed : Instr → Bool
  | .negotiate => true
  | .cfgring _ => true
  | .drvok => true
  | .notify _ => true
  | .ipend => true
  | .qinit => true
  | .alloc => true
  | .adddesc _ => true
  | .publish => true
  | .poll => true
  | .take => true
  | .get _ => true
  | .install _ => true
  | .signal _ => true
  | .wait _ => true
  | .lock => true
  | .unlock => true
  | .irqh => true

/-- The register offsets in block order (spec/10_state.md R40). -/
def Offsets.list (o : Offsets) : List U32 :=
  [o.magic, o.version, o.deviceId, o.vendorId, o.hostFeatures, o.hostFeaturesSel, o.guestFeatures, o.guestFeaturesSel,
   o.guestPageSize, o.queueSel, o.queueNumMax, o.queueNum, o.queueAlign, o.queuePfn, o.queueNotify, o.interruptStatus,
   o.interruptAck, o.status, o.queueDescLow, o.queueDescHigh, o.queueDriverLow, o.queueDriverHigh, o.queueDeviceLow,
   o.queueDeviceHigh, o.config]

/-- R40: the offsets are distinct and multiples of 4. No rule asks more of them for what the engine does. -/
def Offsets.distinct (o : Offsets) : Bool :=
  decide o.list.Nodup && o.list.all fun v => v.extractLsb' 0 2 == 0

/-- R40, spec/20_memory.md R85: distinct multiples of 4, and the registers in the order the document fixes; the numbers are free
(spec/92_eei_decisions.md D32). -/
def Offsets.wellFormed (o : Offsets) : Bool :=
  o.distinct && decide (o.list.Pairwise fun a b => a.toNat < b.toNat)

/-- A word with exactly one bit set. -/
def singleBit {n : Nat} (v : BitVec n) : Bool :=
  (List.range n).any fun k => v == BitVec.twoPow n k

/-- What spec/00_scope.md R7 and spec/92_eei_decisions.md D5, D9, D29, D32 require of the parameters. -/
def Config.wellFormed (c : Config) : Bool :=
  decide (1 ≤ c.reqBytes) && decide (c.reqBytes ≤ c.reqStride) && decide (1 ≤ c.nsub) && decide (c.statusOff < c.reqBytes)
    && c.mmioBase.extractLsb' 0 2 == 0
    && c.off.wellFormed
    && [c.stAcknowledge, c.stDriver, c.stDriverOk, c.stFeaturesOk].all singleBit
    && decide [c.stAcknowledge, c.stDriver, c.stDriverOk, c.stFeaturesOk].Nodup
    && [c.fNext, c.fWrite, c.fIndirect].all singleBit
    && decide [c.fNext, c.fWrite, c.fIndirect].Nodup

end Sys2Proof
end

