-- ==== Sys2Proof/Safety.lean ====
section
/-! DEFINITION. What runs are called safe, stuck, quiescent, and what the environment is assumed to do: the duties of
spec/60_exceptions.md R243 to R249 as predicates that a claim can name as premises (R243's preamble). The machine itself
enforces none of them. -/

namespace Sys2Proof.Machine

/-- A faulted state (spec/60_exceptions.md R228). -/
abbrev State.faulted (s : State) : Prop := s.eng.pfault ≠ none

/-- The move issues a command. -/
def Move.isIssue : Move → Bool
  | .hostA _ _ _ => false
  | .hostPbuf _ _ _ => false
  | .issue _ _ => true
  | .hostMemW _ _ => false
  | .hostMmioW _ _ => false
  | .hostConfigW _ _ => false
  | .devMemW _ _ => false
  | .devMemR _ _ => false
  | .devIrq _ => false
  | .devIrqDrop _ => false
  | .devDecline => false
  | .devStatus _ => false
  | .devStatusDrop _ => false
  | .devOffer _ _ => false
  | .devQueueMax _ _ => false
  | .devQueueRegs _ _ _ => false
  | .devSeen _ => false
  | .devConfig _ _ => false
  | .rst => false

/-- Every command of every port's list has been issued: the environment's moves to come issue none
(spec/70_reset_and_hazards.md R282). -/
abbrev State.allIssued (s : State) : Prop := ∀ ms ∈ s.script, ∀ m ∈ ms, m.isIssue = false

/-- Quiescence, the final state of a run (spec/70_reset_and_hazards.md R282): every port idle with every command of its
list issued, nothing published and uncompleted, interrupt status 0, no fault. -/
abbrev State.quiescent (s : State) : Prop :=
  (∀ q ∈ s.ports, q.busy = false) ∧ s.allIssued ∧ s.eng.inflight = [] ∧ s.dev.interruptStatus = 0 ∧ s.eng.pfault = none

/-- A run that is still running: the device owes a completion (R282). -/
abbrev State.stillRunning (s : State) : Prop := s.eng.inflight ≠ [] ∧ s.eng.pfault = none

/-- Port `p` is in a hold (spec/10_state.md R56). -/
def State.holding (s : State) (p : Nat) : Bool :=
  match (s.port p).work with
  | .idle => false
  | .outstanding => false
  | .holdWait _ => true
  | .holdLock => true

/-- The state `n` steps on, if no step before has stopped. -/
def State.after : Nat → State → Option State
  | 0, s => some s
  | n + 1, s =>
    match step s with
    | .next t => State.after n t
    | .fault _ => none
    | .refused _ => none

/-- Port `p` holds for ever (spec/70_reset_and_hazards.md R282, R275): the run goes on without end, and in all of it `p` is
in the hold it is in now. -/
def State.holdsForEver (s : State) (p : Nat) : Prop :=
  p < s.ports.length ∧ s.holding p = true ∧ ∀ n, ∃ t, State.after n s = some t ∧ (t.port p).work = (s.port p).work

/-- A stuck state: some port holds for ever (R282). -/
def State.stuck (s : State) : Prop := ∃ p, s.holdsForEver p

/-- Self-deadlock: the owner of the lock holds in LOCK (spec/42_slot_pool_ops.md R186). -/
abbrev State.selfDeadlocked (s : State) (p : Nat) : Prop := (s.port p).work = .holdLock ∧ s.eng.lock = .held p

/-- The device's interrupt line (spec/60_exceptions.md R231). -/
def State.irqLine (s : State) : Bool := s.dev.interruptStatus != 0

/-- The environment makes no move while the command runs. -/
abbrev State.quiet (s : State) : Prop := s.script = []

/-- `RST` is not among the moves to come. -/
abbrev State.calm (s : State) : Prop := ∀ ms ∈ s.script, ∀ m ∈ ms, m.isRst = false

/-- The issuing port exists and its command is running: issued and not completed. -/
abbrev State.running (s : State) : Prop := s.cur < s.ports.length ∧ (s.port s.cur).work = .outstanding

/-- The running command passes the checks of spec/30_encoding.md R119 (steps 2 to 5) in a state that is not faulted. -/
abbrev State.admits (s : State) (i : Instr) : Prop :=
  s.eng.pfault = none ∧ contextAllows i s.cur = true ∧ phaseAllows i s.eng.phase = true
    ∧ (needsLock i = true → s.eng.lock = .held s.cur) ∧ slotOk i = true

/-- An event that the engine itself makes on a bus, or a signal. -/
def Event.isAccess : Event → Bool
  | .issue _ _ _ _ _ _ _ => false
  | .complete _ _ _ _ => false
  | .memR _ _ _ => true
  | .memW _ _ _ => true
  | .mmioR _ _ => true
  | .mmioW _ _ => true
  | .signal _ => true
  | .devMemW _ _ _ => false
  | .devMemR _ _ _ => false
  | .devIrq _ => false

/-- The engine's bus accesses and signals so far, newest first. -/
def State.accesses (s : State) : List Event := s.history.filter Event.isAccess

/-- The slot that an event signals. -/
def Event.signalled : Event → Option Nat
  | .issue _ _ _ _ _ _ _ => none
  | .complete _ _ _ _ => none
  | .memR _ _ _ => none
  | .memW _ _ _ => none
  | .mmioR _ _ => none
  | .mmioW _ _ => none
  | .signal i => some i
  | .devMemW _ _ _ => none
  | .devMemR _ _ _ => none
  | .devIrq _ => none

/-- The slots signalled so far, newest first. -/
def State.signals (s : State) : List Nat := s.accesses.filterMap Event.signalled

/-- The events of a byte string written one byte at a time, newest first (spec/20_memory.md R83). -/
def byteWrites (a : U64) : List Byte → List Event
  | [] => []
  | b :: bs => byteWrites (a + 1) bs ++ [.memW a 1 b.toNat]

/-- The accesses that some rule names: device registers of spec/10_state.md R40 "accessed by", fields of the ring region at
their own width (spec/20_memory.md R83), signals of slots; single bytes at the addresses in `B` (R83: zero fill and
payload). -/
def State.names (s : State) (B : Nat → Prop) : Event → Prop
  | .issue _ _ _ _ _ _ _ => False
  | .complete _ _ _ _ => False
  | .memR a n _ =>
    (n = 2 ∧ (a = s.eng.usedIndexAddr ∨ a = s.eng.availIndexAddr))
      ∨ (n = 4 ∧ ∃ j : U16, j.toNat < qsize ∧ (a = s.eng.usedIdAddr j ∨ a = s.eng.usedLenAddr j))
  | .memW a n _ =>
    (n = 1 ∧ B a.toNat) ∨ (n = 2 ∧ a = s.eng.availIndexAddr)
      ∨ ∃ j : U16, j.toNat < qsize ∧
          ((n = 2 ∧ a = s.eng.availRingAddr j) ∨ (n = 8 ∧ a = s.eng.descAddr j) ∨ (n = 4 ∧ a = s.eng.descAddr j + 8)
            ∨ (n = 2 ∧ a = s.eng.descAddr j + 12) ∨ (n = 2 ∧ a = s.eng.descAddr j + 14))
  | .mmioR off _ =>
    off = s.cfg.off.hostFeatures ∨ off = s.cfg.off.queueNumMax ∨ off = s.cfg.off.interruptStatus ∨ off = s.cfg.off.status
  | .mmioW off _ =>
    off = s.cfg.off.guestFeatures ∨ off = s.cfg.off.guestPageSize ∨ off = s.cfg.off.queueSel ∨ off = s.cfg.off.queueNum
      ∨ off = s.cfg.off.queuePfn ∨ off = s.cfg.off.queueNotify ∨ off = s.cfg.off.interruptAck ∨ off = s.cfg.off.status
  | .signal i => i < qsize
  | .devMemW _ _ _ => False
  | .devMemR _ _ _ => False
  | .devIrq _ => False

/-- The addresses of single bytes that a command writes (R83): QINIT the ring region, INSTALL the slot's payload. -/
def State.byteAddresses (s : State) : Instr → Nat → Prop
  | .negotiate, _ => False
  | .cfgring _, _ => False
  | .drvok, _ => False
  | .notify _, _ => False
  | .ipend, _ => False
  | .qinit, a => inBytes s.eng.qbase (ringPages * pageBytes) a
  | .alloc, _ => False
  | .adddesc _, _ => False
  | .publish, _ => False
  | .poll, _ => False
  | .take, _ => False
  | .get _, _ => False
  | .install slot, a => inBytes (s.payload slot) s.cfg.reqBytes a
  | .signal _, _ => False
  | .wait _, _ => False
  | .lock, _ => False
  | .unlock, _ => False
  | .irqh, _ => False

/-! What a command leaves as it was. The environment may move while a command runs, so "unchanged" is said of what the
environment's own moves up to then make of the state (`environmentUntil`); with no such moves that is the state itself. -/

/-- A command may be taken up and run to its end: no `RST` to come, the port's command running, no fault. -/
abbrev State.ready (s : State) : Prop := s.calm ∧ s.running ∧ s.eng.pfault = none

/-- Phase `RING_READY` or `LIVE` (spec/60_exceptions.md R241). -/
abbrev State.ringUp (s : State) : Prop := s.eng.phase = .ringReady ∨ s.eng.phase = .live

/-- The issuing port holds the coarse lock (spec/42_slot_pool_ops.md R185). -/
abbrev State.holdsLock (s : State) : Prop := s.eng.lock = .held s.cur

/-- What the environment's moves between `s` and `t` alone would have made of `s`. -/
def State.environmentUntil (s t : State) : State := State.environmentAlone (s.script.length - t.script.length) s

/-- The registers of a port that commands never write (spec/10_state.md R22, R26). -/
def Port.operandRegs (q : Port) : (U64 × U64 × U64 × U64) × List Byte × Written := ((q.a0, q.a1, q.a2, q.a3), q.pbuf, q.written)

/-- The registers of a port that no move other than `RST` writes: results and error (spec/10_state.md R23, R24). -/
abbrev Port.sameResults (q r : Port) : Prop := q.r0 = r.r0 ∧ q.r1 = r.r1 ∧ q.err = r.err

/-- A port of which software has changed operand registers only, or whose idle `CMD` it has written. -/
abbrev Port.hostChanged (q r : Port) : Prop :=
  q.sameResults r ∧ (r.busy = true → q.work = r.work ∧ q.sample = r.sample)
    ∧ (r.busy = false → q.work = .idle ∨ q.work = .outstanding)

/-- Parameters, issuer, number of ports, operand registers, and every byte of shared memory outside `W` are as the
environment left them. -/
def State.kept (s t : State) (W : Nat → Prop) : Prop :=
  t.cfg = s.cfg ∧ t.cur = s.cur ∧ t.ports.length = s.ports.length
    ∧ (∀ q, (t.port q).operandRegs = ((s.environmentUntil t).port q).operandRegs)
    ∧ ∀ a, ¬ W a → t.mem.read a = (s.environmentUntil t).mem.read a

/-- The device's registers are as the environment left them. -/
def State.deviceKept (s t : State) : Prop := t.dev = (s.environmentUntil t).dev

/-- The arbiter has chosen nothing. -/
def State.arbiterKept (s t : State) : Prop := t.choices = s.choices ∧ t.freeCount = s.freeCount

/-- Every port but the issuer has its results, and its command if it is busy. -/
def State.othersKept (s t : State) : Prop := ∀ q, q ≠ s.cur → (t.port q).hostChanged (s.port q)

/-- A port after the slots `ids` have been signalled: a WAIT held on one of them is complete with `OK`
(spec/42_slot_pool_ops.md R182). -/
def Port.released (q : Port) (ids : List Nat) : Port :=
  if ids.any fun i => q.work == .holdWait i then q.completed .ok else q

/-- Every port but the issuer has its results, and its command if it is busy, but for the WAITs that signalling the slots
`ids` releases. -/
def State.othersReleased (s t : State) (ids : List Nat) : Prop :=
  ∀ q, q ≠ s.cur → (t.port q).hostChanged ((s.port q).released ids)

/-- What a command that stores only at addresses in `W`, and chooses and releases no other port, leaves as it was. -/
def State.frame (s t : State) (W : Nat → Prop) : Prop :=
  s.kept t W ∧ s.arbiterKept t ∧ s.othersKept t

/-- The issuing port's command is complete: `ERR = e`, `BUSY = 0`, `R0`, `R1`, and its event is the last of the history
(spec/10_state.md R24, R25, R39). -/
def State.finished (s t : State) (e : ErrVal) (r0 : U64) (r1 : U32) : Prop :=
  (t.port s.cur).err = e ∧ (t.port s.cur).busy = false ∧ (t.port s.cur).r0 = r0 ∧ (t.port s.cur).r1 = r1
    ∧ t.history.head? = some (.complete s.cur e r0 r1)

/-- The engine's registers after the entries with the ids `ids` have been consumed and signalled, in that order
(spec/43_protocol_ops.md R200). -/
def Engine.drained (e : Engine) (ids : List Nat) : Engine :=
  { e with
    lastConsumedUsed := e.lastConsumedUsed + BitVec.ofNat 16 ids.length
    completion := ids.foldl setSignaled e.completion
    inflight := ids.foldl (fun m i => SMap.erase i m) e.inflight }

/-- One iteration of the loop of IRQH: the index read, then the entry. -/
structure Drain where
  index : U16
  id : U32
  len : U32
deriving DecidableEq, Repr

/-- The accesses and signals of the iterations `xs` from cursor value `c` on, newest first (R200). -/
def drainTrace (e : Engine) : U16 → List Drain → List Event
  | _, [] => []
  | c, x :: xs =>
    drainTrace e (c + 1) xs ++
      [.signal x.id.toNat, .memR (e.usedLenAddr (modQ c)) 4 x.len.toNat, .memR (e.usedIdAddr (modQ c)) 4 x.id.toNat,
       .memR e.usedIndexAddr 2 x.index.toNat]

/-- In each of the iterations `xs` from cursor value `c` on, the index read says pending and the id names a slot (R200). -/
def drainSound : U16 → List Drain → Prop
  | _, [] => True
  | c, x :: xs => x.index ≠ c ∧ x.id.toNat < qsize ∧ drainSound (c + 1) xs

/-- The slots that the iterations `xs` signal, oldest first. -/
def drainIds (xs : List Drain) : List Nat := xs.map fun x => x.id.toNat

/-! Reachable bookkeeping: the invariants of spec/10_state.md R30, R59 and spec/00_scope.md R14. -/

/-- R14, R28, R30: the cursor and the head are reduced, and `next_free_desc = (chain_head + chain_len) mod QSIZE`. -/
abbrev Engine.chainOk (e : Engine) : Prop :=
  e.nextFreeDesc.toNat < qsize ∧ e.chainHead.toNat < qsize ∧ e.chainLen.toNat ≤ qsize
    ∧ e.nextFreeDesc.toNat = (e.chainHead.toNat + e.chainLen.toNat) % qsize

/-- Two lists of indices have no element in common. -/
abbrev disjointLists (l m : List Nat) : Prop := ∀ i ∈ l, i ∉ m

/-- R59: the keys rise, every chain in flight holds its own head and has distinct descriptor indices below `QSIZE`, the
sets of two keys are disjoint, and none meets the chain being built. -/
abbrev Engine.flightOk (e : Engine) : Prop :=
  SMap.Sorted e.inflight ∧ (∀ c ∈ e.inflight, c.1 ∈ c.2 ∧ c.2.Nodup ∧ ∀ i ∈ c.2, i < qsize)
    ∧ e.inflight.Pairwise (fun c d => disjointLists c.2 d.2)
    ∧ ∀ c ∈ e.inflight, disjointLists c.2 (chainIndices e.chainHead e.chainLen)

/-- Ports, lock and holds: one port for each number up to NSUB (R20), the lock owned by a submitter port (R32), nobody
holding in LOCK while the lock is free, nobody holding in WAIT on a signalled slot (R182, R184, R187), nobody holding
outside the phases that permit WAIT and LOCK (R241). -/
abbrev State.portsOk (s : State) : Prop :=
  1 ≤ s.cfg.nsub ∧ s.ports.length = s.cfg.nsub + 1
    ∧ (∀ p, s.eng.lock = .held p → 1 ≤ p ∧ p ≤ s.cfg.nsub)
    ∧ (∀ p < s.ports.length, (s.port p).work = .holdLock → 1 ≤ p ∧ s.eng.lock ≠ .free)
    ∧ (∀ p < s.ports.length, ∀ i, (s.port p).work = .holdWait i → 1 ≤ p ∧ s.eng.signaled i = false)
    ∧ ∀ p < s.ports.length, s.holding p = true → s.eng.phase.running = true

/-! The duties. -/

/-- The operand registers a command uses have been written since reset (spec/10_state.md R22, R26,
spec/93_implementation_defined.md U9): software is never offered a step that breaks this (notes/assumptions/1). -/
def Written.covers (w : Written) : Instr → Bool
  | .negotiate => w.a0
  | .cfgring _ => w.a0 && w.a1 && w.a2
  | .drvok => true
  | .notify _ => true
  | .ipend => true
  | .qinit => w.a0
  | .alloc => true
  | .adddesc _ => w.a0 && w.a1
  | .publish => true
  | .poll => true
  | .take => true
  | .get _ => true
  | .install _ => w.pbuf
  | .signal _ => true
  | .wait _ => true
  | .lock => true
  | .unlock => true
  | .irqh => true

/-- The device may read rings and descriptors only after DRIVER_OK (spec/60_exceptions.md R244 (a)). -/
def State.driverOk (s : State) : Bool := s.dev.status &&& s.cfg.stDriverOk != 0

/-- The ids of the unread used entries, oldest first, while `used.index` is `u`. -/
def State.unreadIds (s : State) (u : U16) : List Nat :=
  (List.range (u - s.eng.lastConsumedUsed).toNat).map fun k =>
    ofLE (s.mem.load (s.eng.usedIdAddr (modQ (s.eng.lastConsumedUsed + BitVec.ofNat 16 k))) 4)

/-- The ring region that stands in the engine's registers: from CFGRING on, which fixes its address with the device
(spec/43_protocol_ops.md R202), by the latches, and from QINIT on by `qbase`. -/
def Engine.ring? (e : Engine) : Option U64 :=
  match e.phase with
  | .reset => none
  | .featuresOk => none
  | .ringConfigured => some (zext64 e.cfgPfn * zext64 e.cfgPage)
  | .ringReady => some e.qbase
  | .live => some e.qbase
  | .failed => none

/-- The ring regions that belong to engine and device: the one of the engine's registers, and the one the device has been
given and keeps after `RST` until status is cleared (spec/70_reset_and_hazards.md R262). -/
def State.rings (s : State) : List U64 := s.ledger.ring.toList ++ s.eng.ring?.toList

/-- The byte at `a` is in the payload of a slot whose completion is `PENDING`: INSTALL to SIGNAL (spec/20_memory.md R82). -/
def State.pendingPayload (s : State) (a : Nat) : Bool :=
  s.eng.phase.running && (List.range qsize).any fun i =>
    !s.eng.signaled i && within (s.payload (BitVec.ofNat 16 i)) s.cfg.reqBytes a

/-- The byte at `a` is in the payload that an INSTALL issued and not completed is to write, or is writing (spec/20_memory.md
R82: the engine in INSTALL). DESIGN CHOICE (notes/assumptions/30): from the write of `CMD` on. -/
def State.installing (s : State) (a : Nat) : Bool :=
  s.eng.phase.running && (List.range qsize).any fun i =>
    within (s.payload (BitVec.ofNat 16 i)) s.cfg.reqBytes a
      && s.ports.any fun q => q.work == .outstanding && decode q.sample.word == .instr (.install (BitVec.ofNat 16 i))

/-- The byte at `a` is in a request buffer of the chain whose PUBLISH the lock's owner has issued and which is not complete:
software has filled it before it issued PUBLISH (spec/20_memory.md R89, spec/60_exceptions.md R248). -/
def State.publishing (s : State) (a : Nat) : Bool :=
  match s.eng.lock with
  | .free => false
  | .held p =>
    s.eng.phase.running && (s.port p).work == .outstanding && decode (s.port p).sample.word == .instr .publish
      && s.chainBuffers.any fun b => b.contains a

/-- The byte at `a` belongs to the device as payload or buffer of a published chain: PUBLISH to the signal of its slot
(spec/70_reset_and_hazards.md R274), or, where `RST` comes between, to the write of 0 to status (R262). -/
def State.granted (s : State) (a : Nat) : Bool :=
  s.ledger.grants.any fun g => within g.payload s.cfg.reqBytes a || g.buffers.any fun b => b.contains a

/-- The byte at `a` is the status byte of the chain's payload: the in-place result (spec/60_exceptions.md R244 (d),
spec/43_protocol_ops.md R201). -/
def State.isStatusByte (s : State) (g : Grant) (a : Nat) : Bool :=
  a == (statusAddr s.cfg g.payload).toNat

/-- The device may write the byte at `a` of a `WRITE` buffer of the chain (R243, R274): the status byte only before the
chain's used entry is written (R244 (d), spec/20_memory.md R93), and once `used.index` covers the entry only bytes already
among those its length counts (R244 (c); notes/assumptions/28). -/
def State.grantWritable (s : State) (g : Grant) (a : Nat) : Bool :=
  g.writable a &&
    match g.stage with
    | .published => true
    | .entered _ => !s.isStatusByte g a
    | .covered _ => !s.isStatusByte g a && g.written.contains a
    | .taken => !s.isStatusByte g a && g.written.contains a

/-- The device may write the byte at `a` of a buffer of a published chain, once status has `DRIVER_OK` (R244 (a)). -/
def State.bufferWritable (s : State) (a : Nat) : Bool := s.driverOk && s.ledger.grants.any fun g => s.grantWritable g a

/-- The byte at `a` is in an entry of the used ring that is covered and unread (R93). -/
def State.unreadEntry (s : State) (a : Nat) : Bool :=
  s.ledger.ring.toList.any fun base =>
    s.ledger.grants.any fun g =>
      match g.stage with
      | .published => false
      | .entered _ => false
      | .covered j => within (entryAddr base j) 8 a
      | .taken => false

/-- The device may write the byte at `a`: of a used ring (R243), or of a buffer; neither of the descriptor table or the
availability ring (R244 (f)), nor of an unread entry. -/
def State.deviceWritable (s : State) (a : Nat) : Bool :=
  ((s.rings.any fun base => within (base + BitVec.ofNat 64 usedOff) (ringBytes - usedOff) a) || s.bufferWritable a)
    && !(s.rings.any fun base => within base usedOff a) && !s.unreadEntry a

/-- The entry at position `j` of the ring at `base` stands complete in memory: it names a published chain that the device has
entered there, with the number of bytes it wrote as its length (R244 (c), (d)). -/
def State.entryStands (s : State) (base : U64) (j : U16) : Bool :=
  s.ledger.grants.any fun g =>
    g.stage == .entered j && s.mem.entryId base j == g.head && s.mem.entryLen base j == g.written.length

/-- R244 (c), (d), (e), R93: a device write of the addresses `as` that leaves memory `m` keeps `used.index` of the ring at
`base`, or moves it past entries that stood there before the write, one for each. DESIGN CHOICE (notes/assumptions/31): R244
(e) "advances by one per entry" admits one write that covers several entries. -/
def State.usedIndexOk (s : State) (m : Memory) (as : List Nat) (base : U64) : Bool :=
  let u := s.mem.usedIndex base
  let n := (m.usedIndex base - u).toNat
  n == 0 ||
    (decide (n ≤ qsize) && s.driverOk && s.ledger.ring == some base
      && ((positionsFrom u).take n).all fun j => as.all (fun a => !within (entryAddr base j) 8 a) && s.entryStands base j)

/-- A device write that keeps the duties of R244 (a), (c) to (f), R93. -/
def State.deviceWriteOk (s : State) (addr : U64) (bytes : List Byte) : Bool :=
  let as := addresses addr bytes.length
  as.all s.deviceWritable
    && s.rings.all fun base => s.usedIndexOk (s.mem.store addr bytes) as base

/-- A device read of the byte at `a` that keeps the duties of R244 (a), (b): descriptors of published chains only, and
neither them nor the availability ring before `DRIVER_OK`. -/
def State.deviceReadOk (s : State) (a : Nat) : Bool :=
  s.rings.all fun base =>
    if within base availOff a then
      s.driverOk && s.ledger.grants.any fun g => g.descs.contains ((a - base.toNat) / 16)
    else !within (base + BitVec.ofNat 64 availOff) 262 a || s.driverOk

/-- A flag word with named bits only, `INDIRECT` not among them: front-ends must not set the others
(spec/93_implementation_defined.md U19). -/
def flagsPlain (c : Config) (flags : U16) : Bool := flags &&& ~~~(c.fNext ||| c.fWrite) == 0

/-- The command names no descriptor flag that front-ends must not set (U19). -/
def flagsOk (c : Config) : Instr → Bool
  | .negotiate => true
  | .cfgring _ => true
  | .drvok => true
  | .notify _ => true
  | .ipend => true
  | .qinit => true
  | .alloc => true
  | .adddesc flags => flagsPlain c flags
  | .publish => true
  | .poll => true
  | .take => true
  | .get _ => true
  | .install _ => true
  | .signal _ => true
  | .wait _ => true
  | .lock => true
  | .unlock => true
  | .irqh => true

/-- A move that keeps its agent's duties in state `s`. -/
def State.dutiful (s : State) : Move → Bool
  -- R279: no write of operands while BUSY.
  | .hostA p _ _ => !(s.port p).busy
  | .hostPbuf p _ _ => !(s.port p).busy
  -- R21: no CMD write while BUSY; R22, R26: operands written before; U19: descriptor flags.
  | .issue p word =>
    decide (p ≤ s.cfg.nsub) && !(s.port p).busy &&
      match decode word with
      | .instr i => (s.port p).written.covers i && flagsOk s.cfg i
      | .illegalRsv _ => true
      | .illegalOpc _ => true
  -- R82, R89, R262, R274: software writes neither a ring region, nor the payload of a slot that INSTALL is writing or that is
  -- pending, nor a buffer of a chain whose PUBLISH is issued, nor what is granted; the payload of a free slot it may write (notes/assumptions/30).
  | .hostMemW addr bytes =>
    (addresses addr bytes.length).all fun a =>
      !(s.rings.any fun base => within base (ringPages * pageBytes) a) && !s.pendingPayload a
        && !s.installing a && !s.publishing a && !s.granted a
  -- R205: a front-end with its own handler writes the interrupt acknowledge; nothing else is named, and another engine
  -- instance on the same register block (R250) is no exception (DESIGN CHOICE, notes/assumptions/35).
  | .hostMmioW r _ => r == .interruptAck
  -- R41: configuration space belongs to the front-ends.
  | .hostConfigW _ _ => true
  | .devMemW addr bytes => s.deviceWriteOk addr bytes
  | .devMemR addr n => (addresses addr n).all s.deviceReadOk
  -- R93, R230, R244 (d): an interrupt for the used ring follows DRVOK and an index not yet interrupted for.
  | .devIrq bits => bits &&& usedRingBit == 0 || (s.driverOk && s.ledger.owes)
  -- R56, R243, R245: liberties.
  | .devIrqDrop _ => true
  | .devDecline => true
  | .devStatus _ => true
  | .devStatusDrop _ => true
  | .devOffer _ _ => true
  | .devQueueMax _ _ => true
  | .devQueueRegs _ _ _ => true
  | .devSeen _ => true
  | .devConfig _ _ => true
  -- R262: the platform may reset at any time.
  | .rst => true

/-- Moves made in order, each dutiful where it is made. -/
def State.dutifulAll (s : State) : List Move → Bool
  | [] => true
  | m :: ms => s.dutiful m && (s.applyMove m).dutifulAll ms

/-- Pairwise disjoint regions (spec/70_reset_and_hazards.md R264): ring region and payload array. -/
abbrev State.regionsApart (s : State) : Prop :=
  s.eng.qbase.toNat + ringPages * pageBytes ≤ s.eng.poolBase.toNat
    ∨ s.eng.poolBase.toNat + qsize * s.cfg.reqStride ≤ s.eng.qbase.toNat

end Sys2Proof.Machine
end

