-- ==== Sys2Proof/Certificates/Slice0/Obligations.lean ====
section
/-! DEFINITION. The statements for the provers. Each follows the rules of spec/ that its docstring names; what rests on a
choice of the model names the log entry. A command's own statement says what it does in every calm environment (no `RST`
to come while it runs), and, where only that pins a value, what it does when the environment makes no move at all. -/

open Sys2Proof Sys2Proof.Machine

/-! ### Encoding -/

/-- R110, R114: no bit of an encoding is dropped. -/
def Obligations.EveryCommandDecodesFromItsWord : Prop :=
  ∀ i : Instr, i.wellFormed = true → decode (encode i) = .instr i ∧ decodeTableWord 32 (encode i).toNat = some i

/-- R110, R113, R114, R117: a word is read by its three fields, and an immediate the command does not use is normalised. -/
def Obligations.DecodingReadsTheThreeFields : Prop :=
  ∀ (w : U32) (i : Instr),
    decode w = .instr i ↔ rsvField w = 0 ∧ opcField w = i.opcode ∧ i.imm = if i.usesImm then immField w else 0

/-- R115, R116: an illegal word ends with `ERR = 5` and does nothing else; every other word is a command. -/
def Obligations.IllegalWordsOnlyReportIllegalCommand : Prop :=
  (∀ (w : U32) (s : State), s.running → (rsvField w ≠ 0 ∨ reservedOpcode (opcField w) = true) →
    ∃ t, runWord w s = .next t
      ∧ s.finished t .illegalCommand (s.port s.cur).r0 (s.port s.cur).r1
      ∧ (t.port s.cur).operandRegs = (s.port s.cur).operandRegs
      ∧ t.eng = s.eng ∧ t.mem = s.mem ∧ t.dev = s.dev ∧ t.accesses = s.accesses ∧ t.cfg = s.cfg
      ∧ (∀ q, q ≠ s.cur → t.port q = s.port q) ∧ s.arbiterKept t)
  ∧ ∀ w : U32, rsvField w = 0 → reservedOpcode (opcField w) = false → ∃ i, decode w = .instr i

/-- R114's examples of full words, one more word of each family, and two illegal ones. -/
def Obligations.SampleWordsDecodeAsTheSpecWritesThem : Prop :=
  decode 0x00030012 = .instr (.adddesc 3) ∧ decode 0x00050021 = .instr (.install 5) ∧ decode 0x00000004 = .instr (.notify 0)
    ∧ decode 0x00010002 = .instr (.cfgring 1) ∧ decode 0x00000001 = .instr .negotiate ∧ decode 0x00000013 = .instr .publish
    ∧ decode 0x007F0023 = .instr (.wait 127) ∧ decode 0x00000030 = .instr .irqh
    ∧ decode 0x00000112 = .illegalRsv 0x01 ∧ decode 0x00000006 = .illegalOpc 0x06

/-- R12: reduction modulo `QSIZE` keeps the low seven bits. -/
def Obligations.ReductionModuloQsizeKeepsTheLowSevenBits : Prop :=
  ∀ v : U16, modQ v = (v.extractLsb' 0 7).setWidth 16 ∧ (modQ v).toNat = v.toNat % qsize

/-! ### The step -/

/-- R54, R233, R115: after the environment's turn the word taken up, one of those outstanding, is what the step runs: a
command, or an illegal word. That a step is the environment's point and one whole command, and that taking up changes only
`cur` and the arbiter's own fields, is the model's choice (notes/assumptions/8, notes/assumptions/9). -/
def Obligations.StepRunsTheCommandTakenUp : Prop :=
  ∀ (s u v : State) (p : Nat), point s = .ok () u → u.eng.pfault = none → takeUp u = some (p, v) →
    step s = runWord (u.port p).sample.word v
      ∧ (∀ i, decode (u.port p).sample.word = .instr i → step s = exec i v)
      ∧ ((∀ i, decode (u.port p).sample.word ≠ .instr i) → step s = illegalCommand v)
      ∧ p < u.ports.length ∧ (u.port p).work = .outstanding
      ∧ ∃ (choices : List Nat) (n : Nat), v = { u with choices := choices, freeCount := n, cur := p }

/-- R54, R233, R115: a single outstanding command, an illegal word included, is taken up with nothing else touched; with none
outstanding the step is the environment's alone. The extent of a step is the model's choice (notes/assumptions/8). -/
def Obligations.StepTakesUpTheOnlyOutstandingCommand : Prop :=
  (∀ (s : State) (p : Nat), s.quiet → s.eng.pfault = none → p < s.ports.length →
    (∀ q < s.ports.length, (s.port q).work = .outstanding ↔ q = p) →
    step s = runWord (s.port p).sample.word { s with cur := p }
      ∧ ∀ i, decode (s.port p).sample.word = .instr i → step s = exec i { s with cur := p })
  ∧ ∀ s : State, s.rstNext = false → s.turn.eng.pfault = none →
    (∀ q < s.ports.length, (s.turn.port q).work ≠ .outstanding) → step s = .next s.turn

/-- R233: "the engine may take any of them next": every outstanding command is taken up under some choice of the arbiter
(notes/assumptions/9), and some command is taken up whenever one is outstanding. -/
def Obligations.AnyOutstandingCommandMayBeTakenUpNext : Prop :=
  (∀ (s : State) (p : Nat), p < s.ports.length → (s.port p).work = .outstanding →
    ∃ (choices : List Nat) (v : State), takeUp { s with choices := choices } = some (p, v))
  ∧ ∀ s : State, takeUp s = none ↔ ∀ p < s.ports.length, (s.port p).work ≠ .outstanding

/-- R37, R228: a fault once recorded stays while no `RST` comes; a faulted state takes no command up (the model's choice,
notes/assumptions/10). -/
def Obligations.FaultsAreStickyAndStopTheMachine : Prop :=
  (∀ (i : Instr) (s t : State) (pf : PF), s.calm → s.running → s.eng.pfault = some pf → exec i s = .next t → t.eng.pfault = some pf)
  ∧ (∀ (s : State) (m : Move), m.isRst = false → (s.applyMove m).eng.pfault = s.eng.pfault)
  ∧ ∀ (s : State) (pf : PF), s.rstNext = false → s.eng.pfault = some pf → step s = .fault (.protocol pf)

/-- R37, R38, R226, R227: the first fault is kept, `PFAULT` records those the engine detects and only with `DEBUG_ASSERT`,
and raising changes nothing else: the command does not complete (notes/assumptions/10). -/
def Obligations.RaisingRecordsTheFaultAndNothingElse : Prop :=
  (∀ (s : State) (pf : PF),
    (s.eng.pfault = none → (s.raise pf).eng.pfault = some pf)
    ∧ (∀ old, s.eng.pfault = some old → (s.raise pf).eng.pfault = some old)
    ∧ (∀ n < 16, (s.raise pf).eng.pfaultReg.getLsbD n
        = (s.eng.pfaultReg.getLsbD n
            || (s.cfg.debugAssert && decide (pf ≠ .pf3) && decide (pf ≠ .pf8) && decide (n = pf.number))))
    ∧ s.raise pf = { s with eng := { s.eng with pfault := (s.raise pf).eng.pfault, pfaultReg := (s.raise pf).eng.pfaultReg } })
  ∧ ∀ (s : State) (p : Nat), p ≤ s.cfg.nsub →
    s.windowRead p 0x0C = if s.cfg.debugAssert then some (zext64 s.eng.pfaultReg) else none

/-- R261: the reset values the spec gives. -/
def Obligations.ResetLeavesWhatTheTableSays : Prop :=
  State.reset.eng.nextFreeDesc = 0 ∧ State.reset.eng.lastConsumedUsed = 0 ∧ State.reset.eng.chainHead = 0
    ∧ State.reset.eng.chainLen = 0 ∧ State.reset.eng.chainOpen = false ∧ (∀ i < qsize, State.reset.eng.signaled i = true)
    ∧ State.reset.eng.lock = .free ∧ State.reset.eng.phase = .reset ∧ State.reset.eng.features = 0
    ∧ State.reset.eng.cfgSize = 0 ∧ State.reset.eng.cfgPage = 0 ∧ State.reset.eng.cfgPfn = 0
    ∧ State.reset.eng.pfault = none ∧ State.reset.eng.pfaultReg = 0 ∧ State.reset.eng.inflight = [] ∧ State.reset.history = []
    ∧ ∀ p, (State.reset.port p).err = .ok ∧ (State.reset.port p).busy = false

/-- R260, R262: `RST` gives every register its reset value, abandons commands in progress (held ones, and a running one at
its next access or update) without completing them, and touches neither shared memory nor the device (notes/assumptions/16;
`qbase` and `pool_base`, which R58 leaves unspecified, notes/assumptions/3). -/
def Obligations.RstResetsTheEngineAndAbandonsCommands : Prop :=
  (∀ (s : State) (rest : List (List Move)), s.script = [.rst] :: rest →
    ∃ t, step s = .next t ∧ t.eng = Engine.reset ∧ t.history = [] ∧ t.ports.length = s.cfg.nsub + 1
      ∧ (∀ p, (t.port p).busy = false ∧ (t.port p).err = .ok) ∧ t.mem = s.mem ∧ t.dev = s.dev ∧ t.cfg = s.cfg
      ∧ t.script = rest)
  ∧ ∀ s : State, s.rstNext = true →
    step s = .next s.turn
      ∧ (∀ r, mmioRead r s = .stop (.next s.turn)) ∧ (∀ r v, mmioWrite r v s = .stop (.next s.turn))
      ∧ (∀ a n, memRead a n s = .stop (.next s.turn)) ∧ (∀ a n v, memWrite a n v s = .stop (.next s.turn))
      ∧ (∀ a v, memWrite64 a v s = .stop (.next s.turn)) ∧ ∀ e f, finish e f s = .stop (.next s.turn)

/-- R95, R21, R22, R26, R111: a command is the word written to `CMD` with the operands held at that moment; later writes do
not alter it, and a second word is dropped (notes/assumptions/12). -/
def Obligations.IssuedCommandIsFixedAtItsWrite : Prop :=
  (∀ (s : State) (p : Nat) (w : U32), p ≤ s.cfg.nsub → p < s.ports.length → (s.port p).busy = false →
    ((s.applyMove (.issue p w)).port p).work = .outstanding
      ∧ ((s.applyMove (.issue p w)).port p).sample
          = { word := w, a0 := (s.port p).a0, a1 := (s.port p).a1, a2 := (s.port p).a2, a3 := (s.port p).a3,
              pbuf := (s.port p).pbuf }
      ∧ ((s.applyMove (.issue p w)).port p).operandRegs = (s.port p).operandRegs
      ∧ ((s.applyMove (.issue p w)).port p).sameResults (s.port p)
      ∧ (s.applyMove (.issue p w)).history
          = .issue p w (s.port p).a0 (s.port p).a1 (s.port p).a2 (s.port p).a3 (s.port p).pbuf :: s.history
      ∧ ∀ q, q ≠ p → (s.applyMove (.issue p w)).port q = s.port q)
  ∧ (∀ (s : State) (p : Nat) (w : U32), (s.port p).busy = true → s.applyMove (.issue p w) = s)
  ∧ ∀ (s : State) (m : Move) (q : Nat), m.isRst = false → (s.port q).busy = true →
    ((s.applyMove m).port q).work = (s.port q).work ∧ ((s.applyMove m).port q).sample = (s.port q).sample
      ∧ ((s.applyMove m).port q).sameResults (s.port q)

/-! ### Checks before a command's own rule -/

/-- R119, steps 1 to 5. -/
def Obligations.ChecksAreMadeInOrder : Prop :=
  (∀ (w : U32) (s : State), (∀ i, decode w ≠ .instr i) → runWord w s = illegalCommand s)
  ∧ ∀ (i : Instr) (s : State),
    (contextAllows i s.cur = false → exec i s = .next (s.raise .pf5))
    ∧ (contextAllows i s.cur = true → phaseAllows i s.eng.phase = false → exec i s = .next (s.raise .pf6))
    ∧ (contextAllows i s.cur = true → phaseAllows i s.eng.phase = true → needsLock i = true → ¬ s.holdsLock →
        exec i s = .next (s.raise .pf4))
    ∧ (contextAllows i s.cur = true → phaseAllows i s.eng.phase = true → (needsLock i = true → s.holdsLock) →
        slotOk i = false → exec i s = .next (s.raise .pf7))

/-- R242: what each context permits, by opcode; anything else is PF5, and nothing permitted ever is. -/
def Obligations.EachContextPermitsItsCommands : Prop :=
  ∀ (i : Instr) (s : State),
    let permitted : List (BitVec 8) :=
      if s.cur = 0 then [0x30, 0x05, 0x14, 0x15, 0x20, 0x22, 0x04]
      else [0x01, 0x02, 0x10, 0x03, 0x04, 0x05, 0x11, 0x12, 0x13, 0x14, 0x20, 0x21, 0x23, 0x24, 0x25]
    (i.opcode ∉ permitted → exec i s = .next (s.raise .pf5))
    ∧ (i.opcode ∈ permitted → s.ready → ∀ t, exec i s = .next t → t.eng.pfault ≠ some .pf5)

/-- R241: what each phase permits, by opcode; anything else is PF6 on a port whose context permits the command, and nothing
permitted ever is; illegal words are accepted in every phase; a phase is left by the one command the table names. -/
def Obligations.EachPhasePermitsItsCommands : Prop :=
  ∀ (i : Instr) (s : State),
    let permitted : List (BitVec 8) :=
      match s.eng.phase with
      | .reset => [0x01, 0x05]
      | .featuresOk => [0x02, 0x05]
      | .ringConfigured => [0x10, 0x05]
      | .ringReady => [0x03, 0x05, 0x11, 0x12, 0x13, 0x14, 0x15, 0x20, 0x21, 0x22, 0x23, 0x24, 0x25]
      | .live => [0x04, 0x05, 0x30, 0x11, 0x12, 0x13, 0x14, 0x15, 0x20, 0x21, 0x22, 0x23, 0x24, 0x25]
      | .failed => [0x05]
    (i.opcode ∉ permitted → contextAllows i s.cur = true → exec i s = .next (s.raise .pf6))
    ∧ (i.opcode ∈ permitted → s.ready → ∀ t, exec i s = .next t → t.eng.pfault ≠ some .pf6)
    ∧ (∀ w : U32, (∀ j, decode w ≠ .instr j) → runWord w s = illegalCommand s)
    ∧ (s.calm → s.running → ∀ t, exec i s = .next t → t.eng.phase ≠ s.eng.phase →
        (s.eng.phase = .reset ∧ i.opcode = 0x01) ∨ (s.eng.phase = .featuresOk ∧ i.opcode = 0x02)
          ∨ (s.eng.phase = .ringConfigured ∧ i.opcode = 0x10) ∨ (s.eng.phase = .ringReady ∧ i.opcode = 0x03))

/-! ### Control-Register Interface -/

/-- R141. `s1` to `s4` and `hf` are the device's answers. -/
def Obligations.NegotiateMakesItsAccessesAndDecidesByTheLatch : Prop :=
  ∀ s : State,
    (s.ready → 1 ≤ s.cur → s.eng.phase = .reset →
      ∃ (t : State) (s1 s2 hf s3 s4 : U32),
        exec .negotiate s = .next t
        ∧ t.accesses =
            [.mmioR s.cfg.off.status s4, .mmioW s.cfg.off.status (s3 ||| s.cfg.stFeaturesOk), .mmioR s.cfg.off.status s3,
             .mmioW s.cfg.off.guestFeatures (hf &&& low32 s.operands.a0), .mmioR s.cfg.off.hostFeatures hf,
             .mmioW s.cfg.off.status (s2 ||| s.cfg.stDriver), .mmioR s.cfg.off.status s2,
             .mmioW s.cfg.off.status (s1 ||| s.cfg.stAcknowledge), .mmioR s.cfg.off.status s1, .mmioW s.cfg.off.status 0]
            ++ s.accesses
        ∧ (s4 &&& s.cfg.stFeaturesOk = 0 →
            t.eng = { s.eng with phase := .failed } ∧ s.finished t .featureFail (s.port s.cur).r0 (s.port s.cur).r1)
        ∧ (s4 &&& s.cfg.stFeaturesOk ≠ 0 →
            t.eng = { s.eng with features := hf &&& low32 s.operands.a0, phase := .featuresOk }
              ∧ s.finished t .ok (zext64 (hf &&& low32 s.operands.a0)) (s.port s.cur).r1)
        ∧ s.frame t fun _ => False)
    ∧ (s.cur = 0 → exec .negotiate s = .next (s.raise .pf5))
    ∧ (1 ≤ s.cur → s.eng.phase ≠ .reset → exec .negotiate s = .next (s.raise .pf6))

/-- R141, R52, R98, R245: a device that keeps what is written latches and negotiation succeeds, whatever the status word held
before; a device that clears `FEATURES_OK` between the last write and the read-back makes it fail. That the opening write of 0
to status changes no other device register, so that the feature word read and the device afterwards are as stated, is the
model's choice (notes/assumptions/17). -/
def Obligations.NegotiationSucceedsUnlessTheDeviceDeclines : Prop :=
  ∀ s : State, s.running → s.eng.pfault = none → 1 ≤ s.cur → s.eng.phase = .reset → s.cfg.stFeaturesOk ≠ 0 →
    (s.quiet →
      ∃ t, exec .negotiate s = .next t
        ∧ t.eng = { s.eng with features := s.dev.answer .hostFeatures &&& low32 s.operands.a0, phase := .featuresOk }
        ∧ t.dev = { s.dev with
            status := s.cfg.stAcknowledge ||| s.cfg.stDriver ||| s.cfg.stFeaturesOk
            guestFeatures := s.dev.answer .hostFeatures &&& low32 s.operands.a0 }
        ∧ s.finished t .ok (zext64 (s.dev.answer .hostFeatures &&& low32 s.operands.a0)) (s.port s.cur).r1
        ∧ t.mem = s.mem)
    ∧ (s.script = [[], [], [], [], [], [], [], [], [], [.devDecline]] →
      ∃ t, exec .negotiate s = .next t
        ∧ t.eng = { s.eng with phase := .failed }
        ∧ t.dev = { s.dev with
            status := (s.cfg.stAcknowledge ||| s.cfg.stDriver ||| s.cfg.stFeaturesOk) &&& ~~~s.cfg.stFeaturesOk
            guestFeatures := s.dev.answer .hostFeatures &&& low32 s.operands.a0 }
        ∧ s.finished t .featureFail (s.port s.cur).r0 (s.port s.cur).r1
        ∧ t.mem = s.mem)

/-- R142. `max` is the device's answer. The write of the queue selector before the read is an inference the spec marks as its
own (R142, derived there from R45). -/
def Obligations.CfgringCommitsOrRefusesTheSize : Prop :=
  ∀ (index : U16) (s : State),
    (s.ready → 1 ≤ s.cur → s.eng.phase = .featuresOk →
      ∃ (t : State) (max : U32),
        exec (.cfgring index) s = .next t
        ∧ (max.toNat < (low32 s.operands.a0).toNat →
            t.accesses = [.mmioR s.cfg.off.queueNumMax max, .mmioW s.cfg.off.queueSel (zext32 index)] ++ s.accesses
              ∧ t.eng = { s.eng with phase := .failed }
              ∧ s.finished t .ringSizeTooSmall (s.port s.cur).r0 (s.port s.cur).r1)
        ∧ ((low32 s.operands.a0).toNat ≤ max.toNat →
            t.accesses =
                [.mmioW s.cfg.off.queuePfn (low32 s.operands.a2), .mmioW s.cfg.off.guestPageSize (low32 s.operands.a1),
                 .mmioW s.cfg.off.queueNum (low32 s.operands.a0), .mmioR s.cfg.off.queueNumMax max,
                 .mmioW s.cfg.off.queueSel (zext32 index)] ++ s.accesses
              ∧ t.eng = { s.eng with
                  cfgSize := low32 s.operands.a0, cfgPage := low32 s.operands.a1, cfgPfn := low32 s.operands.a2,
                  phase := .ringConfigured }
              ∧ s.finished t .ok (s.port s.cur).r0 (s.port s.cur).r1)
        ∧ s.frame t fun _ => False)
    ∧ (s.cur = 0 → exec (.cfgring index) s = .next (s.raise .pf5))
    ∧ (1 ≤ s.cur → s.eng.phase ≠ .featuresOk → exec (.cfgring index) s = .next (s.raise .pf6))

/-- R142, R44 to R48, R245: in a quiet environment the maximum is that of the queue selected, and size, page size and
page-frame-number land in the device's registers of that queue, or, on failure, the selector alone does. -/
def Obligations.CfgringReadsTheSelectedQueuesMaximum : Prop :=
  ∀ (index : U16) (s : State), s.quiet → s.running → s.eng.pfault = none → 1 ≤ s.cur → s.eng.phase = .featuresOk →
    ((s.dev.queue index.toNat).max.toNat < (low32 s.operands.a0).toNat →
      ∃ t, exec (.cfgring index) s = .next t ∧ (t.port s.cur).err = .ringSizeTooSmall
        ∧ t.dev = { s.dev with queueSel := zext32 index })
    ∧ ((low32 s.operands.a0).toNat ≤ (s.dev.queue index.toNat).max.toNat →
      ∃ t, exec (.cfgring index) s = .next t ∧ (t.port s.cur).err = .ok
        ∧ t.dev.queueSel = zext32 index ∧ t.dev.guestPageSize = low32 s.operands.a1
        ∧ t.dev.queue index.toNat
            = { max := (s.dev.queue index.toNat).max, num := low32 s.operands.a0, pfn := low32 s.operands.a2 }
        ∧ (∀ q, q ≠ index.toNat → t.dev.queue q = s.dev.queue q)
        ∧ t.dev = { s.dev with
            queueSel := t.dev.queueSel, guestPageSize := t.dev.guestPageSize, queues := t.dev.queues })

/-- R143. `v` is the status word the device answers. After it no further configuration is permitted. -/
def Obligations.DrvokSetsTheBitAndGoesLive : Prop :=
  ∀ s : State,
    (s.ready → 1 ≤ s.cur → s.eng.phase = .ringReady →
      ∃ (t : State) (v : U32),
        exec .drvok s = .next t
        ∧ t.accesses = [.mmioW s.cfg.off.status (v ||| s.cfg.stDriverOk), .mmioR s.cfg.off.status v] ++ s.accesses
        ∧ t.eng = { s.eng with phase := .live }
        ∧ (s.quiet → v = s.dev.status ∧ t.dev = { s.dev with status := s.dev.status ||| s.cfg.stDriverOk })
        ∧ s.finished t .ok (s.port s.cur).r0 (s.port s.cur).r1 ∧ s.frame t fun _ => False)
    ∧ (s.cur = 0 → exec .drvok s = .next (s.raise .pf5))
    ∧ (1 ≤ s.cur → s.eng.phase ≠ .ringReady → exec .drvok s = .next (s.raise .pf6))
    ∧ (1 ≤ s.cur → s.eng.phase = .live →
        exec .negotiate s = .next (s.raise .pf6) ∧ (∀ q, exec (.cfgring q) s = .next (s.raise .pf6))
          ∧ exec .qinit s = .next (s.raise .pf6))

/-- R144: on every port, in phase `LIVE`. Of the device's registers only queue notify differs from what the environment left;
that it holds the index afterwards is said where the environment does not write it again. -/
def Obligations.NotifyWritesTheQueueIndex : Prop :=
  ∀ (queue : U16) (s : State),
    (s.ready → s.eng.phase = .live →
      ∃ t, exec (.notify queue) s = .next t
        ∧ t.accesses = .mmioW s.cfg.off.queueNotify (zext32 queue) :: s.accesses
        ∧ t.eng = s.eng ∧ (∃ n, t.dev = { (s.environmentUntil t).dev with queueNotify := n })
        ∧ (s.quiet → t.dev = { s.dev with queueNotify := zext32 queue })
        ∧ s.finished t .ok (s.port s.cur).r0 (s.port s.cur).r1 ∧ s.frame t fun _ => False)
    ∧ (s.eng.phase ≠ .live → exec (.notify queue) s = .next (s.raise .pf6))

/-- R145: on every port, in every phase. The word is the one that the environment's next turn leaves. -/
def Obligations.IpendReturnsTheInterruptStatus : Prop :=
  ∀ s : State, s.ready →
    ∃ t, exec .ipend s = .next t
      ∧ t.accesses = .mmioR s.cfg.off.interruptStatus s.turn.dev.interruptStatus :: s.accesses
      ∧ t.eng = s.eng ∧ s.deviceKept t
      ∧ s.finished t .ok (zext64 s.turn.dev.interruptStatus) (s.port s.cur).r1 ∧ s.frame t fun _ => False

/-! ### Ring Transport -/

/-- R162: construction, or PF9. In a quiet environment the whole ring region reads 0 afterwards and `POLL` would answer 0. That
the zero fill is 8192 writes of single bytes in rising order is the model's choice (notes/assumptions/14). -/
def Obligations.QinitConstructsTheRingOrFaults : Prop :=
  ∀ s : State,
    (s.ready → 1 ≤ s.cur → s.eng.phase = .ringConfigured →
      (s.eng.cfgSize.toNat = 128 ∧ s.eng.cfgPage.toNat = 4096
          ∧ s.eng.cfgPfn.toNat * s.eng.cfgPage.toNat + 2 * 4096 ≤ 2 ^ 64
          ∧ s.operands.a0.toNat + 128 * s.cfg.reqStride ≤ 2 ^ 64 →
        ∃ t, exec .qinit s = .next t
          ∧ t.eng.qbase.toNat = s.eng.cfgPfn.toNat * s.eng.cfgPage.toNat
          ∧ t.eng = { s.eng with
              qbase := t.eng.qbase, poolBase := s.operands.a0, nextFreeDesc := 0, lastConsumedUsed := 0, chainHead := 0,
              chainLen := 0, chainOpen := false, completion := t.eng.completion, inflight := [], phase := .ringReady }
          ∧ (∀ i < qsize, t.eng.signaled i = true)
          ∧ t.accesses = byteWrites t.eng.qbase (List.replicate 8192 0) ++ s.accesses
          ∧ s.finished t .ok (s.port s.cur).r0 (s.port s.cur).r1
          ∧ s.frame t (inBytes t.eng.qbase 8192) ∧ s.deviceKept t
          ∧ (s.quiet → (∀ a, inBytes t.eng.qbase 8192 a → t.mem.read a = 0)
              ∧ pending t.usedIndexNow t.eng.lastConsumedUsed = false))
      ∧ (¬ (s.eng.cfgSize.toNat = 128 ∧ s.eng.cfgPage.toNat = 4096
          ∧ s.eng.cfgPfn.toNat * s.eng.cfgPage.toNat + 2 * 4096 ≤ 2 ^ 64
          ∧ s.operands.a0.toNat + 128 * s.cfg.reqStride ≤ 2 ^ 64) → exec .qinit s = .next (s.raise .pf9)))
    ∧ (s.cur = 0 → exec .qinit s = .next (s.raise .pf5))
    ∧ (1 ≤ s.cur → s.eng.phase ≠ .ringConfigured → exec .qinit s = .next (s.raise .pf6))

/-- R161, whose own "below QSIZE, and equal to `chain_head` when `chain_len` is 0" is an inference the spec marks as its own
(derived there from R30; R14 is one too): the clause under `chainOk`. -/
def Obligations.AllocReturnsTheNextFreeDescriptor : Prop :=
  ∀ s : State,
    (s.ready → 1 ≤ s.cur → s.ringUp → s.holdsLock →
      ∃ t, exec .alloc s = .next t
        ∧ t.accesses = s.accesses ∧ t.eng = s.eng
        ∧ s.finished t .ok (zext64 s.eng.nextFreeDesc) (s.port s.cur).r1
        ∧ (s.eng.chainOk → (zext64 s.eng.nextFreeDesc).toNat < qsize
            ∧ (s.eng.chainLen = 0 → s.eng.nextFreeDesc = s.eng.chainHead))
        ∧ s.frame t (fun _ => False) ∧ s.deviceKept t)
    ∧ (s.cur = 0 → exec .alloc s = .next (s.raise .pf5))
    ∧ (1 ≤ s.cur → ¬ s.ringUp → exec .alloc s = .next (s.raise .pf6))
    ∧ (1 ≤ s.cur → s.ringUp → ¬ s.holdsLock → exec .alloc s = .next (s.raise .pf4))

/-- R163: the contracts in their order, then the four field writes and the registers. In a quiet environment descriptor `i`
holds the four values afterwards. -/
def Obligations.AdddescAppendsOneDescriptorOrFaults : Prop :=
  ∀ (flags : U16) (s : State),
    (s.ready → 1 ≤ s.cur → s.ringUp → s.holdsLock →
      ¬ (0 < s.eng.chainLen.toNat ∧ s.eng.chainOpen = false) → s.eng.chainLen.toNat < qsize →
      s.eng.inFlightDesc s.eng.nextFreeDesc.toNat = false →
      let i := s.eng.nextFreeDesc
      let cont := decide (flags &&& s.cfg.fNext ≠ 0)
      let next : U16 := if cont then modQ (i + 1) else 0
      ∃ t, exec (.adddesc flags) s = .next t
        ∧ t.accesses =
            [.memW (s.eng.descAddr i + 14) 2 next.toNat, .memW (s.eng.descAddr i + 12) 2 flags.toNat,
             .memW (s.eng.descAddr i + 8) 4 (low32 s.operands.a1).toNat, .memW (s.eng.descAddr i) 8 s.operands.a0.toNat]
            ++ s.accesses
        ∧ t.eng = { s.eng with nextFreeDesc := modQ (i + 1), chainLen := s.eng.chainLen + 1, chainOpen := cont }
        ∧ s.finished t .ok (s.port s.cur).r0 (s.port s.cur).r1
        ∧ s.frame t (inBytes (s.eng.descAddr i) 16) ∧ s.deviceKept t
        ∧ (s.quiet → ofLE (t.mem.load (s.eng.descAddr i) 8) = s.operands.a0.toNat
            ∧ ofLE (t.mem.load (s.eng.descAddr i + 8) 4) = (low32 s.operands.a1).toNat
            ∧ ofLE (t.mem.load (s.eng.descAddr i + 12) 2) = flags.toNat
            ∧ ofLE (t.mem.load (s.eng.descAddr i + 14) 2) = next.toNat))
    ∧ (1 ≤ s.cur → s.ringUp → s.holdsLock → 0 < s.eng.chainLen.toNat → s.eng.chainOpen = false →
        exec (.adddesc flags) s = .next (s.raise .pf2))
    ∧ (1 ≤ s.cur → s.ringUp → s.holdsLock → qsize ≤ s.eng.chainLen.toNat → s.eng.chainOpen = true →
        exec (.adddesc flags) s = .next (s.raise .pf1))
    ∧ (1 ≤ s.cur → s.ringUp → s.holdsLock → ¬ (0 < s.eng.chainLen.toNat ∧ s.eng.chainOpen = false) →
        s.eng.chainLen.toNat < qsize → (∃ c ∈ s.eng.inflight, s.eng.nextFreeDesc.toNat ∈ c.2) →
        exec (.adddesc flags) s = .next (s.raise .pf8))
    ∧ (s.cur = 0 → exec (.adddesc flags) s = .next (s.raise .pf5))
    ∧ (1 ≤ s.cur → ¬ s.ringUp → exec (.adddesc flags) s = .next (s.raise .pf6))
    ∧ (1 ≤ s.cur → s.ringUp → ¬ s.holdsLock → exec (.adddesc flags) s = .next (s.raise .pf4))

/-- R164, R90: the ring entry, then the index, and the chain is in flight; or PF2. `idx` is `avail.index` as read; in a quiet
environment it is what memory held, it has grown by one, and the entry holds the head. -/
def Obligations.PublishCommitsTheChainOrFaults : Prop :=
  ∀ s : State,
    (s.ready → 1 ≤ s.cur → s.ringUp → s.holdsLock → 1 ≤ s.eng.chainLen.toNat → s.eng.chainOpen = false →
      ∃ (t : State) (idx : U16),
        exec .publish s = .next t
        ∧ t.accesses =
            [.memW s.eng.availIndexAddr 2 (idx + 1).toNat, .memW (s.eng.availRingAddr (modQ idx)) 2 s.eng.chainHead.toNat,
             .memR s.eng.availIndexAddr 2 idx.toNat] ++ s.accesses
        ∧ t.eng = { s.eng with
            inflight := t.eng.inflight, chainHead := s.eng.nextFreeDesc, chainLen := 0, chainOpen := false }
        ∧ SMap.find? s.eng.chainHead.toNat t.eng.inflight
            = some ((List.range s.eng.chainLen.toNat).map fun k => (s.eng.chainHead.toNat + k) % qsize)
        ∧ (∀ h, h ≠ s.eng.chainHead.toNat → SMap.find? h t.eng.inflight = SMap.find? h s.eng.inflight)
        ∧ s.finished t .ok (s.port s.cur).r0 (s.port s.cur).r1
        ∧ s.frame t (fun a => inBytes (s.eng.availRingAddr (modQ idx)) 2 a ∨ inBytes s.eng.availIndexAddr 2 a)
        ∧ s.deviceKept t
        ∧ (s.quiet → idx.toNat = ofLE (s.mem.load s.eng.availIndexAddr 2)
            ∧ ofLE (t.mem.load s.eng.availIndexAddr 2) = (idx.toNat + 1) % 65536
            ∧ ofLE (t.mem.load (s.eng.availRingAddr (modQ idx)) 2) = s.eng.chainHead.toNat))
    ∧ (1 ≤ s.cur → s.ringUp → s.holdsLock → (s.eng.chainLen = 0 ∨ s.eng.chainOpen = true) →
        exec .publish s = .next (s.raise .pf2))
    ∧ (s.cur = 0 → exec .publish s = .next (s.raise .pf5))
    ∧ (1 ≤ s.cur → ¬ s.ringUp → exec .publish s = .next (s.raise .pf6))
    ∧ (1 ≤ s.cur → s.ringUp → ¬ s.holdsLock → exec .publish s = .next (s.raise .pf4))

/-- R165, R53: on every port. The index is the one that the environment's next turn leaves in memory. -/
def Obligations.PollComparesTheUsedIndexWithTheCursor : Prop :=
  ∀ s : State,
    (s.ready → s.ringUp →
      ∃ t, exec .poll s = .next t
        ∧ t.accesses = .memR s.eng.usedIndexAddr 2 s.turn.usedIndexNow.toNat :: s.accesses
        ∧ t.eng = s.eng
        ∧ s.finished t .ok (if s.turn.usedIndexNow ≠ s.eng.lastConsumedUsed then 1 else 0) (s.port s.cur).r1
        ∧ s.frame t (fun _ => False) ∧ s.deviceKept t)
    ∧ (¬ s.ringUp → exec .poll s = .next (s.raise .pf6))

/-- R166, R13: the entry at the cursor, without a read of `used.index`; or PF3. `id`, `len` are the device's; in a quiet
environment they are what memory held. -/
def Obligations.TakeReturnsTheNextUsedEntryOrFaults : Prop :=
  ∀ s : State,
    (s.ready → s.cur = 0 → s.ringUp → s.usedIndexNow ≠ s.eng.lastConsumedUsed →
      ∃ (t : State) (id len : U32),
        exec .take s = .next t
        ∧ t.accesses =
            [.memR (s.eng.usedLenAddr (modQ s.eng.lastConsumedUsed)) 4 len.toNat,
             .memR (s.eng.usedIdAddr (modQ s.eng.lastConsumedUsed)) 4 id.toNat] ++ s.accesses
        ∧ t.eng = { s.eng with lastConsumedUsed := s.eng.lastConsumedUsed + 1, inflight := t.eng.inflight }
        ∧ SMap.find? id.toNat t.eng.inflight = none
        ∧ (∀ h, h ≠ id.toNat → SMap.find? h t.eng.inflight = SMap.find? h s.eng.inflight)
        ∧ s.finished t .ok (zext64 id) len
        ∧ (s.quiet → id.toNat = ofLE (s.mem.load (s.eng.usedIdAddr (modQ s.eng.lastConsumedUsed)) 4)
            ∧ len.toNat = ofLE (s.mem.load (s.eng.usedLenAddr (modQ s.eng.lastConsumedUsed)) 4))
        ∧ s.frame t (fun _ => False) ∧ s.deviceKept t)
    ∧ (s.cur = 0 → s.ringUp → s.usedIndexNow = s.eng.lastConsumedUsed → exec .take s = .next (s.raise .pf3))
    ∧ (1 ≤ s.cur → exec .take s = .next (s.raise .pf5))
    ∧ (s.cur = 0 → ¬ s.ringUp → exec .take s = .next (s.raise .pf6))

/-! ### Slot Pool and synchronizer -/

/-- R180: on every port. -/
def Obligations.GetReturnsThePayloadAddressAndTheCompletionBit : Prop :=
  ∀ (slot : U16) (s : State),
    (s.ready → s.ringUp → slot.toNat < qsize →
      ∃ t, exec (.get slot) s = .next t
        ∧ t.accesses = s.accesses ∧ t.eng = s.eng
        ∧ s.finished t .ok (s.eng.poolBase + BitVec.ofNat 64 (slot.toNat * s.cfg.reqStride))
            (if s.eng.signaled slot.toNat then 1 else 0)
        ∧ s.frame t (fun _ => False) ∧ s.deviceKept t)
    ∧ (s.ringUp → qsize ≤ slot.toNat → exec (.get slot) s = .next (s.raise .pf7))
    ∧ (¬ s.ringUp → exec (.get slot) s = .next (s.raise .pf6))

/-- R181, R223: the payload into a free slot, which becomes `PENDING`; or `RequestError` with nothing written. In a quiet
environment the payload's bytes are the sampled `PBUF`. That they are written one at a time in rising order is the model's
choice (notes/assumptions/14). -/
def Obligations.InstallWritesAFreeSlotOrRefuses : Prop :=
  ∀ (slot : U16) (s : State),
    (s.ready → 1 ≤ s.cur → s.ringUp → s.holdsLock → slot.toNat < qsize →
      let bytes := s.operands.pbuf.take s.cfg.reqBytes
      (s.eng.signaled slot.toNat = true →
        ∃ t, exec (.install slot) s = .next t
          ∧ t.accesses = byteWrites (s.payload slot) bytes ++ s.accesses
          ∧ t.eng = { s.eng with completion := t.eng.completion }
          ∧ (∀ j < qsize, t.eng.signaled j = (s.eng.signaled j && decide (j ≠ slot.toNat)))
          ∧ s.finished t .ok (s.payload slot) (s.port s.cur).r1
          ∧ s.frame t (inBytes (s.payload slot) bytes.length) ∧ s.deviceKept t
          ∧ (s.quiet → bytes.length < 2 ^ 64 → t.mem.load (s.payload slot) bytes.length = bytes))
      ∧ (s.eng.signaled slot.toNat = false →
        ∃ t, exec (.install slot) s = .next t ∧ t.accesses = s.accesses ∧ t.eng = s.eng ∧ t.mem = s.mem ∧ t.dev = s.dev
          ∧ s.finished t .requestError (s.port s.cur).r0 (s.port s.cur).r1 ∧ s.frame t fun _ => False))
    ∧ (1 ≤ s.cur → s.ringUp → s.holdsLock → qsize ≤ slot.toNat → exec (.install slot) s = .next (s.raise .pf7))
    ∧ (s.cur = 0 → exec (.install slot) s = .next (s.raise .pf5))
    ∧ (1 ≤ s.cur → ¬ s.ringUp → exec (.install slot) s = .next (s.raise .pf6))
    ∧ (1 ≤ s.cur → s.ringUp → ¬ s.holdsLock → exec (.install slot) s = .next (s.raise .pf4))

/-- R182, R278: the bit, the event, and every WAIT held on the slot completes in the same step; or PF8. -/
def Obligations.SignalReleasesEveryWaitOnTheSlotOrFaults : Prop :=
  ∀ (slot : U16) (s : State),
    (s.ready → s.cur = 0 → s.ringUp → slot.toNat < qsize → (∀ c ∈ s.eng.inflight, c.1 ≠ slot.toNat) →
      ∃ t, exec (.signal slot) s = .next t
        ∧ t.accesses = .signal slot.toNat :: s.accesses
        ∧ t.eng = { s.eng with completion := t.eng.completion }
        ∧ (∀ j < qsize, t.eng.signaled j = (s.eng.signaled j || decide (j = slot.toNat)))
        ∧ s.finished t .ok (s.port s.cur).r0 (s.port s.cur).r1
        ∧ (∀ q, q ≠ s.cur →
            t.port q = if (s.port q).work = .holdWait slot.toNat then { s.port q with err := .ok, work := .idle } else s.port q)
        ∧ s.kept t (fun _ => False) ∧ s.arbiterKept t ∧ s.deviceKept t)
    ∧ (s.cur = 0 → s.ringUp → slot.toNat < qsize → (∃ c ∈ s.eng.inflight, c.1 = slot.toNat) →
        exec (.signal slot) s = .next (s.raise .pf8))
    ∧ (s.cur = 0 → s.ringUp → qsize ≤ slot.toNat → exec (.signal slot) s = .next (s.raise .pf7))
    ∧ (1 ≤ s.cur → exec (.signal slot) s = .next (s.raise .pf5))
    ∧ (s.cur = 0 → ¬ s.ringUp → exec (.signal slot) s = .next (s.raise .pf6))

/-- R184, R183, R277: a level test that consumes nothing. On a signalled slot WAIT completes at once, else it holds and
nothing but its own port's hold changes. -/
def Obligations.WaitCompletesOnASignalledSlotAndElseHolds : Prop :=
  ∀ (slot : U16) (s : State),
    (s.ready → 1 ≤ s.cur → s.ringUp → slot.toNat < qsize →
      (s.eng.signaled slot.toNat = true →
        ∃ t, exec (.wait slot) s = .next t ∧ t.accesses = s.accesses ∧ t.eng = s.eng
          ∧ s.finished t .ok (s.port s.cur).r0 (s.port s.cur).r1 ∧ s.frame t (fun _ => False) ∧ s.deviceKept t)
      ∧ (s.eng.signaled slot.toNat = false →
        ∃ t, exec (.wait slot) s = .next t ∧ t.history = s.history ∧ t.eng = s.eng
          ∧ t.port s.cur = { s.port s.cur with work := .holdWait slot.toNat } ∧ (t.port s.cur).busy = true
          ∧ s.frame t (fun _ => False) ∧ s.deviceKept t))
    ∧ (1 ≤ s.cur → s.ringUp → qsize ≤ slot.toNat → exec (.wait slot) s = .next (s.raise .pf7))
    ∧ (s.cur = 0 → exec (.wait slot) s = .next (s.raise .pf5))
    ∧ (1 ≤ s.cur → ¬ s.ringUp → exec (.wait slot) s = .next (s.raise .pf6))

/-- R186: a free lock is acquired in the one step that tests it, else LOCK holds (by its owner too), and nothing but its own
port's hold changes. -/
def Obligations.LockAcquiresAFreeLockAndElseHolds : Prop :=
  ∀ s : State,
    (s.ready → 1 ≤ s.cur → s.ringUp →
      (s.eng.lock = .free →
        ∃ t, exec .lock s = .next t ∧ t.accesses = s.accesses ∧ t.eng = { s.eng with lock := .held s.cur }
          ∧ s.finished t .ok (s.port s.cur).r0 (s.port s.cur).r1 ∧ s.frame t (fun _ => False) ∧ s.deviceKept t)
      ∧ (s.eng.lock ≠ .free →
        ∃ t, exec .lock s = .next t ∧ t.history = s.history ∧ t.eng = s.eng
          ∧ t.port s.cur = { s.port s.cur with work := .holdLock } ∧ (t.port s.cur).busy = true
          ∧ s.frame t (fun _ => False) ∧ s.deviceKept t))
    ∧ (s.cur = 0 → exec .lock s = .next (s.raise .pf5))
    ∧ (1 ≤ s.cur → ¬ s.ringUp → exec .lock s = .next (s.raise .pf6))

/-- R187, R186: with nobody holding in LOCK the lock becomes free; else exactly one of the holders acquires it and completes,
and any of them may be the one (notes/assumptions/9); or PF2. -/
def Obligations.UnlockFreesTheLockOrHandsItToOneWaiter : Prop :=
  ∀ s : State,
    (s.ready → 1 ≤ s.cur → s.ringUp → s.holdsLock → s.eng.chainLen = 0 →
      ((∀ q < s.ports.length, (s.port q).work ≠ .holdLock) →
        ∃ t, exec .unlock s = .next t ∧ t.accesses = s.accesses ∧ t.eng = { s.eng with lock := .free }
          ∧ s.finished t .ok (s.port s.cur).r0 (s.port s.cur).r1 ∧ s.frame t (fun _ => False) ∧ s.deviceKept t)
      ∧ ((∃ q < s.ports.length, (s.port q).work = .holdLock) →
        ∃ (t : State) (w : Nat), exec .unlock s = .next t ∧ w < s.ports.length ∧ (s.port w).work = .holdLock
          ∧ t.accesses = s.accesses ∧ t.eng = { s.eng with lock := .held w }
          ∧ t.port w = { s.port w with err := .ok, work := .idle }
          ∧ (∀ q, q ≠ s.cur → q ≠ w → t.port q = s.port q)
          ∧ s.finished t .ok (s.port s.cur).r0 (s.port s.cur).r1 ∧ s.kept t (fun _ => False) ∧ s.deviceKept t)
      ∧ (∀ w < s.ports.length, (s.port w).work = .holdLock →
        ∃ (choices : List Nat) (t : State), exec .unlock { s with choices := choices } = .next t ∧ t.eng.lock = .held w))
    ∧ (1 ≤ s.cur → s.ringUp → s.holdsLock → s.eng.chainLen ≠ 0 → exec .unlock s = .next (s.raise .pf2))
    ∧ (s.cur = 0 → exec .unlock s = .next (s.raise .pf5))
    ∧ (1 ≤ s.cur → ¬ s.ringUp → exec .unlock s = .next (s.raise .pf6))
    ∧ (1 ≤ s.cur → s.ringUp → ¬ s.holdsLock → exec .unlock s = .next (s.raise .pf4))

/-! ### The handler -/

/-- R200, R224: a spurious interrupt: one read, `NoInterrupt`, nothing else. -/
def Obligations.IrqhReportsASpuriousInterrupt : Prop :=
  ∀ s : State,
    (s.ready → s.cur = 0 → s.eng.phase = .live → s.turn.dev.interruptStatus = 0 →
      ∃ t, exec .irqh s = .next t
        ∧ t.accesses = .mmioR s.cfg.off.interruptStatus 0 :: s.accesses ∧ t.eng = s.eng
        ∧ s.finished t .noInterrupt (s.port s.cur).r0 (s.port s.cur).r1
        ∧ s.frame t (fun _ => False) ∧ s.deviceKept t)
    ∧ (1 ≤ s.cur → exec .irqh s = .next (s.raise .pf5))
    ∧ (s.cur = 0 → s.eng.phase ≠ .live → exec .irqh s = .next (s.raise .pf6))

/-- R200: with a cause pending the handler acknowledges what it read, then drains entry by entry: every slot it reads it
signals exactly once, in the order of the ring, and it ends when the index it reads equals the cursor, or with PF7 at an id
that names no slot. That after PF7 the port is still busy and all else is as made so far is the model's reading
(notes/assumptions/10). -/
def Obligations.IrqhAcknowledgesAndDrainsEntryByEntry : Prop :=
  ∀ s : State, s.ready → s.cur = 0 → s.eng.phase = .live → s.turn.dev.interruptStatus ≠ 0 →
    ∃ (t : State) (xs : List Drain),
      exec .irqh s = .next t ∧ drainSound s.eng.lastConsumedUsed xs
      ∧ t.signals = (drainIds xs).reverse ++ s.signals
      ∧ s.kept t (fun _ => False) ∧ s.arbiterKept t ∧ s.othersReleased t (drainIds xs)
      ∧ ((t.eng = s.eng.drained (drainIds xs)
          ∧ t.accesses = .memR s.eng.usedIndexAddr 2 t.eng.lastConsumedUsed.toNat
              :: (drainTrace s.eng s.eng.lastConsumedUsed xs
                ++ [.mmioW s.cfg.off.interruptAck s.turn.dev.interruptStatus,
                    .mmioR s.cfg.off.interruptStatus s.turn.dev.interruptStatus] ++ s.accesses)
          ∧ s.finished t .ok (zext64 (BitVec.ofNat 32 xs.length)) (s.port s.cur).r1)
        ∨ ∃ x : Drain, qsize ≤ x.id.toNat ∧ x.index ≠ (s.eng.drained (drainIds xs)).lastConsumedUsed
          ∧ t.eng = { s.eng.drained (drainIds xs) with
              lastConsumedUsed := (s.eng.drained (drainIds xs)).lastConsumedUsed + 1
              pfault := some .pf7, pfaultReg := t.eng.pfaultReg }
          ∧ t.accesses =
              [.memR (s.eng.usedLenAddr (modQ (s.eng.drained (drainIds xs)).lastConsumedUsed)) 4 x.len.toNat,
               .memR (s.eng.usedIdAddr (modQ (s.eng.drained (drainIds xs)).lastConsumedUsed)) 4 x.id.toNat,
               .memR s.eng.usedIndexAddr 2 x.index.toNat]
              ++ (drainTrace s.eng s.eng.lastConsumedUsed xs
                ++ [.mmioW s.cfg.off.interruptAck s.turn.dev.interruptStatus,
                    .mmioR s.cfg.off.interruptStatus s.turn.dev.interruptStatus] ++ s.accesses)
          ∧ (t.port s.cur).busy = true)

/-- R200, R166 for the whole run in a quiet environment: every unread entry is consumed in order, its chain leaves the map,
its slot is signalled once, its waiters complete, and nothing is pending afterwards. That the acknowledge clears the whole
interrupt status rests on the model's device (PRESUMED, notes/assumptions/17). -/
def Obligations.IrqhDrainsEveryUnreadEntry : Prop :=
  ∀ s : State, s.quiet → s.running → s.eng.pfault = none → s.cur = 0 → s.eng.phase = .live → s.dev.interruptStatus ≠ 0 →
    (∀ id ∈ s.unreadIds s.usedIndexNow, id < qsize) →
    ∃ t, exec .irqh s = .next t
      ∧ t.eng = s.eng.drained (s.unreadIds s.usedIndexNow)
      ∧ t.signals = (s.unreadIds s.usedIndexNow).reverse ++ s.signals
      ∧ (∀ j < qsize, t.eng.signaled j = (s.eng.signaled j || decide (j ∈ s.unreadIds s.usedIndexNow)))
      ∧ (∀ h, SMap.find? h t.eng.inflight
          = if h ∈ s.unreadIds s.usedIndexNow then none else SMap.find? h s.eng.inflight)
      ∧ t.eng.lastConsumedUsed = s.usedIndexNow ∧ pending t.usedIndexNow t.eng.lastConsumedUsed = false
      ∧ t.mem = s.mem ∧ t.dev = { s.dev with interruptStatus := 0 }
      ∧ s.finished t .ok (zext64 (s.usedIndexNow - s.eng.lastConsumedUsed)) (s.port s.cur).r1
      ∧ (∀ q, q ≠ s.cur → t.port q = (s.port q).released (s.unreadIds s.usedIndexNow))
      ∧ s.arbiterKept t

/-- R200 "The loop ends": the bound given to the loop never cuts it short (notes/assumptions/19). -/
def Obligations.TheHandlersLoopEndsWithinItsBound : Prop :=
  ∀ (s : State) (fuel : Nat) (n : U32), s.drainFuel ≤ fuel → drain fuel n s = drain s.drainFuel n s

/-! ### Rules of the whole machine -/

/-- R70, R72 and the model's canonical form (notes/assumptions/6). -/
def Obligations.EveryStepKeepsMemoryCanonical : Prop :=
  ∀ s t : State, Memory.wf s.mem → step s = .next t → Memory.wf t.mem

/-- R28, R30, R59, R14: the cursor, the chain under construction and the chains in flight stay in step. -/
def Obligations.EveryStepKeepsTheChainBookkeeping : Prop :=
  ∀ s t : State, s.eng.chainOk → s.eng.flightOk → step s = .next t → t.eng.chainOk ∧ t.eng.flightOk

/-- R20, R32, R182, R184, R187, R241: ports, lock and holds stay in step: nobody holds on a free lock or a signalled slot. -/
def Obligations.EveryStepKeepsPortsLockAndHolds : Prop :=
  ∀ s t : State, s.portsOk → step s = .next t → t.portsOk

/-- The three invariants hold at reset. -/
def Obligations.ResetMeetsTheInvariants : Prop :=
  Memory.wf State.reset.mem ∧ State.reset.eng.chainOk ∧ State.reset.eng.flightOk ∧ State.reset.portsOk

/-- R164, R266: the descriptors of the chains in flight and of the one being built never exceed the table. -/
def Obligations.ChainsNeverExceedTheTable : Prop :=
  ∀ e : Engine, e.chainOk → e.flightOk →
    (e.inflight.map fun c => c.2.length).sum + e.chainLen.toNat ≤ qsize ∧ e.inflight.length ≤ qsize

/-- R33: the six transitions, each by its command whenever that completes, and no other; `RST` apart. -/
def Obligations.PhasesChangeOnlyAsTheLifecycleSays : Prop :=
  (∀ (i : Instr) (s t : State), s.calm → s.running → exec i s = .next t →
    (t.eng.phase = s.eng.phase
      ∧ ((t.port s.cur).busy = false → i.opcode ∉ ([0x01, 0x02, 0x10, 0x03] : List (BitVec 8))))
    ∨ (i = .negotiate ∧ s.eng.phase = .reset ∧ t.eng.phase = .featuresOk ∧ (t.port s.cur).err = .ok)
    ∨ (i = .negotiate ∧ s.eng.phase = .reset ∧ t.eng.phase = .failed ∧ (t.port s.cur).err = .featureFail)
    ∨ ((∃ q, i = .cfgring q) ∧ s.eng.phase = .featuresOk ∧ t.eng.phase = .ringConfigured ∧ (t.port s.cur).err = .ok)
    ∨ ((∃ q, i = .cfgring q) ∧ s.eng.phase = .featuresOk ∧ t.eng.phase = .failed ∧ (t.port s.cur).err = .ringSizeTooSmall)
    ∨ (i = .qinit ∧ s.eng.phase = .ringConfigured ∧ t.eng.phase = .ringReady)
    ∨ (i = .drvok ∧ s.eng.phase = .ringReady ∧ t.eng.phase = .live))
  ∧ (∀ s t : State, s.calm → step s = .next t → (s.eng.phase = .live ∨ s.eng.phase = .failed) → t.eng.phase = s.eng.phase)
  ∧ State.reset.eng.phase = .reset

/-- R28 to R38, R185: which commands write which engine register; the producer's registers only under the lock; the fault
registers only a command that raises a fault and does not complete, on the first fault the one, and `PFAULT` with
`DEBUG_ASSERT` alone, by the bit of a fault the engine detects. That a command which raises a fault leaves its port busy, and
that the `PFAULT` bit is set in that same step, is the model's reading (DEDUCED, notes/assumptions/10; R228 says nothing of
it). -/
def Obligations.EveryEngineRegisterHasItsWriters : Prop :=
  ∀ (i : Instr) (s t : State), s.calm → s.running → exec i s = .next t →
    (t.eng.nextFreeDesc ≠ s.eng.nextFreeDesc → i = .qinit ∨ ((∃ f, i = .adddesc f) ∧ s.holdsLock))
    ∧ (t.eng.lastConsumedUsed ≠ s.eng.lastConsumedUsed → i = .qinit ∨ i = .take ∨ i = .irqh)
    ∧ ((t.eng.chainHead ≠ s.eng.chainHead ∨ t.eng.chainLen ≠ s.eng.chainLen ∨ t.eng.chainOpen ≠ s.eng.chainOpen) →
        i = .qinit ∨ (((∃ f, i = .adddesc f) ∨ i = .publish) ∧ s.holdsLock))
    ∧ (t.eng.lock ≠ s.eng.lock → i = .lock ∧ s.eng.lock = .free ∨ i = .unlock ∧ s.holdsLock)
    ∧ (t.eng.features ≠ s.eng.features → i = .negotiate)
    ∧ ((t.eng.cfgSize ≠ s.eng.cfgSize ∨ t.eng.cfgPage ≠ s.eng.cfgPage ∨ t.eng.cfgPfn ≠ s.eng.cfgPfn) → ∃ q, i = .cfgring q)
    ∧ ((t.eng.qbase ≠ s.eng.qbase ∨ t.eng.poolBase ≠ s.eng.poolBase) → i = .qinit)
    ∧ (t.eng.phase ≠ s.eng.phase → i = .negotiate ∨ (∃ q, i = .cfgring q) ∨ i = .qinit ∨ i = .drvok)
    ∧ (t.eng.pfault ≠ s.eng.pfault → s.eng.pfault = none ∧ t.eng.pfault ≠ none ∧ (t.port s.cur).busy = true)
    ∧ (t.eng.pfaultReg ≠ s.eng.pfaultReg → s.cfg.debugAssert = true ∧ (t.port s.cur).busy = true
        ∧ ∃ pf : PF, pf ≠ .pf3 ∧ pf ≠ .pf8 ∧ (s.eng.pfault = none → t.eng.pfault = some pf)
          ∧ t.eng.pfaultReg = s.eng.pfaultReg ||| BitVec.twoPow 16 pf.number)
    ∧ (∀ j < qsize, s.eng.signaled j = true → t.eng.signaled j = false →
        ∃ slot : U16, i = .install slot ∧ slot.toNat = j ∧ s.holdsLock)
    ∧ (∀ j < qsize, s.eng.signaled j = false → t.eng.signaled j = true →
        i = .qinit ∨ i = .irqh ∨ ∃ slot : U16, i = .signal slot ∧ slot.toNat = j)
    ∧ (∀ h, SMap.find? h s.eng.inflight = none → SMap.find? h t.eng.inflight ≠ none →
        i = .publish ∧ h = s.eng.chainHead.toNat)
    ∧ (∀ h, SMap.find? h s.eng.inflight ≠ none → SMap.find? h t.eng.inflight = none → i = .qinit ∨ i = .take ∨ i = .irqh)

/-- R206, R272: what the handler's commands may change, and what they may not. -/
def Obligations.TheHandlerTouchesOnlyTheConsumerSide : Prop :=
  ∀ (i : Instr) (s t : State), s.calm → s.running → s.cur = 0 → exec i s = .next t →
    t.eng = { s.eng with
      lastConsumedUsed := t.eng.lastConsumedUsed, completion := t.eng.completion, inflight := t.eng.inflight,
      pfault := t.eng.pfault, pfaultReg := t.eng.pfaultReg }
    ∧ (∀ j < qsize, s.eng.signaled j = true → t.eng.signaled j = true)
    ∧ s.kept t (fun _ => False)

/-- R23, R24, R113, R220 to R224: which commands raise which error, and that an error, or a command not stated to write a
result, leaves the result registers alone. -/
def Obligations.ErrorsAreRaisedByTheirCommandsAndLeaveResults : Prop :=
  ∀ (i : Instr) (s t : State), s.calm → s.running → exec i s = .next t →
    ((t.port s.cur).busy = true → (t.port s.cur).sameResults (s.port s.cur))
    ∧ ((t.port s.cur).busy = false →
        ((t.port s.cur).err = .ok
          ∨ (i = .negotiate ∧ (t.port s.cur).err = .featureFail)
          ∨ ((∃ q, i = .cfgring q) ∧ (t.port s.cur).err = .ringSizeTooSmall)
          ∨ ((∃ slot, i = .install slot) ∧ (t.port s.cur).err = .requestError)
          ∨ (i = .irqh ∧ (t.port s.cur).err = .noInterrupt)))
    ∧ ((t.port s.cur).err ≠ .ok → (t.port s.cur).r0 = (s.port s.cur).r0 ∧ (t.port s.cur).r1 = (s.port s.cur).r1)
    ∧ ((t.port s.cur).r0 ≠ (s.port s.cur).r0 →
        i.opcode ∈ ([0x01, 0x05, 0x11, 0x14, 0x15, 0x20, 0x21, 0x30] : List (BitVec 8)))
    ∧ ((t.port s.cur).r1 ≠ (s.port s.cur).r1 → i.opcode ∈ ([0x15, 0x20] : List (BitVec 8)))

/-- R82, R81, R140: only QINIT, ADDDESC, PUBLISH and INSTALL store, and no other command changes a byte, whatever it ends in. -/
def Obligations.OnlyFourCommandsStoreToMemory : Prop :=
  ∀ (i : Instr) (s t : State), s.calm → s.running → exec i s = .next t →
    i ≠ .qinit → (∀ f, i ≠ .adddesc f) → i ≠ .publish → (∀ slot, i ≠ .install slot) → s.kept t fun _ => False

/-- R40, R83: every access is at an offset or address, and of the width, that a rule names; single bytes in QINIT's zero fill
of the ring region and INSTALL's payload alone. That a byte string is accesses of width 1 is the model's choice
(notes/assumptions/14). -/
def Obligations.EveryAccessIsAFieldTheRulesName : Prop :=
  ∀ (i : Instr) (s t : State), s.calm → s.running → s.eng.chainOk → exec i s = .next t →
    ∃ evs, t.accesses = evs ++ s.accesses
      ∧ ∀ e ∈ evs, t.names (t.byteAddresses i) e

/-- R184, R186, R203, R275: nothing but a signal of its slot lifts a WAIT, and nothing but acquiring the lock lifts a LOCK:
no timeout, no cancellation; `RST` apart. -/
def Obligations.HoldsAreLiftedOnlyByTheirSignalOrTheLock : Prop :=
  ∀ (s t : State) (p : Nat), s.calm → step s = .next t → p < s.ports.length →
    (∀ i, (s.port p).work = .holdWait i →
      ((t.port p).work = .holdWait i ∧ (t.port p).sample = (s.port p).sample ∧ (t.port p).sameResults (s.port p))
      ∨ ((t.port p).hostChanged ((s.port p).completed .ok) ∧ ∃ new, t.signals = new ++ s.signals ∧ i ∈ new))
    ∧ ((s.port p).work = .holdLock →
      ((t.port p).work = .holdLock ∧ (t.port p).sample = (s.port p).sample ∧ (t.port p).sameResults (s.port p))
      ∨ (t.port p = (s.turn.port p).completed .ok ∧ t.eng.lock = .held p))

/-- R39: the history only grows; `RST` apart. -/
def Obligations.TheHistoryIsAppendOnly : Prop :=
  ∀ s t : State, s.calm → step s = .next t → ∃ evs, t.history = evs ++ s.history

/-- R7, R273: no step changes a parameter, `RST` included. -/
def Obligations.NoStepChangesAParameter : Prop :=
  ∀ s t : State, step s = .next t → t.cfg = s.cfg

/-- R71: each of the four bytes of a register that reads as `v` or, written only, holds `v`: `+0` bits 7:0, `+3` bits 31:24;
so the register is the number its four bytes spell, low byte first. The offsets are distinct multiples of 4 (R40). -/
def Obligations.TheRegisterBlockIsLittleEndian : Prop :=
  ∀ (s : State) (off v : U32), s.cfg.off.distinct = true →
    ((∃ r : ReadReg, off = s.cfg.readOff r ∧ v = s.dev.answer r)
      ∨ ∃ r : WriteReg, off = s.cfg.writeOff r ∧ s.dev.stored r = some v) →
    let base := s.cfg.mmioBase + off.setWidth 64
    s.blockByte base = some (v.extractLsb' 0 8) ∧ s.blockByte (base + 1) = some (v.extractLsb' 8 8)
    ∧ s.blockByte (base + 2) = some (v.extractLsb' 16 8) ∧ s.blockByte (base + 3) = some (v.extractLsb' 24 8)
    ∧ ∀ bytes : List Byte, (List.range 4).map (fun k => s.blockByte (base + BitVec.ofNat 64 k)) = bytes.map some →
        ofLE bytes = v.toNat

/-- R274, R82, R89, R262: in a quiet environment PUBLISH gives the head's payload and the buffers of the chain's descriptors to
the device, so that software may not write them, `RST` leaves them with it, and SIGNAL of the slot, or a write of 0 to
status, takes them back; the payload of a `PENDING` slot is the device's before PUBLISH too, and
the engine's while an INSTALL of the slot is outstanding (from its issue on: notes/assumptions/30), and the buffers of a chain
are closed to software from the issue of its PUBLISH on (R89). The ledger is the model's own
ghost (notes/assumptions/28). -/
def Obligations.BuffersAreTheDevicesFromPublishToSignal : Prop :=
  (∀ s : State, s.quiet → s.running → s.eng.pfault = none → 1 ≤ s.cur → s.ringUp → s.holdsLock →
    1 ≤ s.eng.chainLen.toNat → s.eng.chainOpen = false →
    ∃ (t : State) (g : Grant), exec .publish s = .next t ∧ t.ledger.grants = g :: s.ledger.grants
      ∧ g.head = s.eng.chainHead.toNat ∧ g.payload = s.payload s.eng.chainHead
      ∧ g.descs = (List.range s.eng.chainLen.toNat).map (fun k => (s.eng.chainHead.toNat + k) % qsize)
      ∧ g.buffers = g.descs.map t.bufferOf ∧ g.stage = .published ∧ g.written = []
      ∧ (∀ (addr : U64) (bytes : List Byte) (a : Nat), a ∈ addresses addr bytes.length →
          (within (s.payload s.eng.chainHead) s.cfg.reqBytes a = true ∨ ∃ b ∈ g.buffers, b.contains a = true) →
          t.dutiful (.hostMemW addr bytes) = false)
      ∧ t.afterRst.ledger = t.ledger)
  ∧ (∀ (slot : U16) (s : State), s.ready → s.cur = 0 → s.ringUp → slot.toNat < qsize →
    (∀ c ∈ s.eng.inflight, c.1 ≠ slot.toNat) →
    ∃ t, exec (.signal slot) s = .next t ∧ ∀ g, g ∈ t.ledger.grants ↔ g ∈ s.ledger.grants ∧ g.head ≠ slot.toNat)
  ∧ (∀ (s : State) (slot : U16) (addr : U64) (bytes : List Byte) (a : Nat), s.ringUp → slot.toNat < qsize →
    (s.eng.signaled slot.toNat = false
      ∨ ∃ p < s.ports.length, (s.port p).work = .outstanding ∧ decode (s.port p).sample.word = .instr (.install slot)) →
    a ∈ addresses addr bytes.length →
    within (s.payload slot) s.cfg.reqBytes a = true → s.dutiful (.hostMemW addr bytes) = false)
  ∧ (∀ (s : State) (p : Nat) (addr : U64) (bytes : List Byte) (a k : Nat), s.ringUp → s.eng.lock = .held p →
    (s.port p).work = .outstanding → decode (s.port p).sample.word = .instr .publish → k < s.eng.chainLen.toNat →
    (s.bufferOf ((s.eng.chainHead.toNat + k) % qsize)).contains a = true → a ∈ addresses addr bytes.length →
    s.dutiful (.hostMemW addr bytes) = false)
  ∧ ∀ s : State, s.quiet →
    ∃ t, mmioWrite .status 0 s = .ok () t ∧ t.ledger.grants = [] ∧ t.ledger.ring = none

/-- R6, R88, R98 as litmus cases (notes/assumptions/8): another agent acts between the last access of a command and its
completion. The device may read after PUBLISH's index write and before its completion; `RST` there abandons PUBLISH with the
index written; an entry covered after the last index read of IRQH stays pending. That `RST` lands at an environment point, with
what came before it done and nothing after, is the model's choice too (notes/assumptions/16), and so are the values of `qbase`
and `pool_base` after it (notes/assumptions/3). -/
def Obligations.TheEnvironmentActsBetweenTheLastAccessAndCompletion : Prop :=
  (∀ (s : State) (a : U64) (n : Nat), s.running → s.eng.pfault = none → 1 ≤ s.cur → s.ringUp → s.holdsLock →
    1 ≤ s.eng.chainLen.toNat → s.eng.chainOpen = false →
    (s.script = [[], [], [], [.devMemR a n]] →
      ∃ (t : State) (v w : Nat), exec .publish s = .next t
        ∧ t.history = [.complete s.cur .ok (s.port s.cur).r0 (s.port s.cur).r1, .devMemR a n v, .memW s.eng.availIndexAddr 2 w]
            ++ t.history.drop 3)
    ∧ (s.script = [[], [], [], [.rst]] →
      ∃ t, exec .publish s = .next t ∧ t.history = [] ∧ t.eng = Engine.reset
        ∧ ofLE (t.mem.load s.eng.availIndexAddr 2) = (ofLE (s.mem.load s.eng.availIndexAddr 2) + 1) % 65536))
  ∧ ∀ (s : State) (v : U16), s.running → s.eng.pfault = none → s.cur = 0 → s.eng.phase = .live →
    s.dev.interruptStatus ≠ 0 → s.usedIndexNow = s.eng.lastConsumedUsed →
    s.script = [[], [], [], [.devMemW s.eng.usedIndexAddr (leBytes 2 v.toNat)]] →
    ∃ t, exec .irqh s = .next t ∧ s.finished t .ok 0 (s.port s.cur).r1 ∧ t.eng = s.eng ∧ t.usedIndexNow = v

/-- R282, R275, R203: where nothing is to come and nothing outstanding, a port that holds holds for ever: the state is stuck,
and is not the final state of a run. -/
def Obligations.AHoldWithNothingToComeIsStuck : Prop :=
  ∀ (s : State) (p : Nat), s.quiet → s.eng.pfault = none → (∀ q < s.ports.length, (s.port q).work ≠ .outstanding) →
    p < s.ports.length → s.holding p = true → s.holdsForEver p ∧ ¬ s.quiescent

/-- R245, R244 (g), R50, R51 as the model takes them (notes/assumptions/17): the device answers what was last written or what
it has changed itself, the selected queue's maximum, and an acknowledge clears exactly the bits written. -/
def Obligations.TheDeviceAnswersWhatItHolds : Prop :=
  ∀ (d : Device) (v : U32),
    (d.react v .status).answer .status = v
    ∧ (d.react v .queueSel).answer .queueNumMax = (d.queue v.toNat).max
    ∧ (∀ k < 32, ((d.react v .interruptAck).answer .interruptStatus).getLsbD k
        = ((d.answer .interruptStatus).getLsbD k && !v.getLsbD k))
    ∧ ∀ r : WriteReg, r ≠ .status → (d.react v r).answer .status = d.answer .status
end

