-- ==== Sys2Proof/Laws/State.lean ====
section
/-! SUPPORT. One lemma per field per named update of the state, true by unfolding the update once. -/

namespace Sys2Proof.Machine

variable (s : State)

@[simp] theorem State.setPort_cfg (p : Nat) (f : Port → Port) : (s.setPort p f).cfg = s.cfg := rfl
@[simp] theorem State.setPort_eng (p : Nat) (f : Port → Port) : (s.setPort p f).eng = s.eng := rfl
@[simp] theorem State.setPort_ports (p : Nat) (f : Port → Port) : (s.setPort p f).ports = s.ports.modify p f := rfl
@[simp] theorem State.setPort_cur (p : Nat) (f : Port → Port) : (s.setPort p f).cur = s.cur := rfl
@[simp] theorem State.setPort_mem (p : Nat) (f : Port → Port) : (s.setPort p f).mem = s.mem := rfl
@[simp] theorem State.setPort_dev (p : Nat) (f : Port → Port) : (s.setPort p f).dev = s.dev := rfl
@[simp] theorem State.setPort_history (p : Nat) (f : Port → Port) : (s.setPort p f).history = s.history := rfl
@[simp] theorem State.setPort_script (p : Nat) (f : Port → Port) : (s.setPort p f).script = s.script := rfl
@[simp] theorem State.setPort_choices (p : Nat) (f : Port → Port) : (s.setPort p f).choices = s.choices := rfl
@[simp] theorem State.setPort_freeCount (p : Nat) (f : Port → Port) : (s.setPort p f).freeCount = s.freeCount := rfl

@[simp] theorem State.setEng_cfg (f : Engine → Engine) : (s.setEng f).cfg = s.cfg := rfl
@[simp] theorem State.setEng_eng (f : Engine → Engine) : (s.setEng f).eng = f s.eng := rfl
@[simp] theorem State.setEng_ports (f : Engine → Engine) : (s.setEng f).ports = s.ports := rfl
@[simp] theorem State.setEng_cur (f : Engine → Engine) : (s.setEng f).cur = s.cur := rfl
@[simp] theorem State.setEng_mem (f : Engine → Engine) : (s.setEng f).mem = s.mem := rfl
@[simp] theorem State.setEng_dev (f : Engine → Engine) : (s.setEng f).dev = s.dev := rfl
@[simp] theorem State.setEng_history (f : Engine → Engine) : (s.setEng f).history = s.history := rfl
@[simp] theorem State.setEng_script (f : Engine → Engine) : (s.setEng f).script = s.script := rfl
@[simp] theorem State.setEng_choices (f : Engine → Engine) : (s.setEng f).choices = s.choices := rfl
@[simp] theorem State.setEng_freeCount (f : Engine → Engine) : (s.setEng f).freeCount = s.freeCount := rfl

@[simp] theorem State.setMem_cfg (m : Memory) : (s.setMem m).cfg = s.cfg := rfl
@[simp] theorem State.setMem_eng (m : Memory) : (s.setMem m).eng = s.eng := rfl
@[simp] theorem State.setMem_ports (m : Memory) : (s.setMem m).ports = s.ports := rfl
@[simp] theorem State.setMem_cur (m : Memory) : (s.setMem m).cur = s.cur := rfl
@[simp] theorem State.setMem_mem (m : Memory) : (s.setMem m).mem = m := rfl
@[simp] theorem State.setMem_dev (m : Memory) : (s.setMem m).dev = s.dev := rfl
@[simp] theorem State.setMem_history (m : Memory) : (s.setMem m).history = s.history := rfl
@[simp] theorem State.setMem_script (m : Memory) : (s.setMem m).script = s.script := rfl
@[simp] theorem State.setMem_choices (m : Memory) : (s.setMem m).choices = s.choices := rfl
@[simp] theorem State.setMem_freeCount (m : Memory) : (s.setMem m).freeCount = s.freeCount := rfl

@[simp] theorem State.setDev_cfg (d : Device) : (s.setDev d).cfg = s.cfg := rfl
@[simp] theorem State.setDev_eng (d : Device) : (s.setDev d).eng = s.eng := rfl
@[simp] theorem State.setDev_ports (d : Device) : (s.setDev d).ports = s.ports := rfl
@[simp] theorem State.setDev_cur (d : Device) : (s.setDev d).cur = s.cur := rfl
@[simp] theorem State.setDev_mem (d : Device) : (s.setDev d).mem = s.mem := rfl
@[simp] theorem State.setDev_dev (d : Device) : (s.setDev d).dev = d := rfl
@[simp] theorem State.setDev_history (d : Device) : (s.setDev d).history = s.history := rfl
@[simp] theorem State.setDev_script (d : Device) : (s.setDev d).script = s.script := rfl
@[simp] theorem State.setDev_choices (d : Device) : (s.setDev d).choices = s.choices := rfl
@[simp] theorem State.setDev_freeCount (d : Device) : (s.setDev d).freeCount = s.freeCount := rfl

@[simp] theorem State.log_cfg (e : Event) : (s.log e).cfg = s.cfg := rfl
@[simp] theorem State.log_eng (e : Event) : (s.log e).eng = s.eng := rfl
@[simp] theorem State.log_ports (e : Event) : (s.log e).ports = s.ports := rfl
@[simp] theorem State.log_cur (e : Event) : (s.log e).cur = s.cur := rfl
@[simp] theorem State.log_mem (e : Event) : (s.log e).mem = s.mem := rfl
@[simp] theorem State.log_dev (e : Event) : (s.log e).dev = s.dev := rfl
@[simp] theorem State.log_history (e : Event) : (s.log e).history = e :: s.history := rfl
@[simp] theorem State.log_script (e : Event) : (s.log e).script = s.script := rfl
@[simp] theorem State.log_choices (e : Event) : (s.log e).choices = s.choices := rfl
@[simp] theorem State.log_freeCount (e : Event) : (s.log e).freeCount = s.freeCount := rfl

@[simp] theorem State.setR0_cfg (v : U64) : (s.setR0 v).cfg = s.cfg := rfl
@[simp] theorem State.setR0_eng (v : U64) : (s.setR0 v).eng = s.eng := rfl
@[simp] theorem State.setR0_ports (v : U64) : (s.setR0 v).ports = s.ports.modify s.cur fun q => { q with r0 := v } := rfl
@[simp] theorem State.setR0_cur (v : U64) : (s.setR0 v).cur = s.cur := rfl
@[simp] theorem State.setR0_mem (v : U64) : (s.setR0 v).mem = s.mem := rfl
@[simp] theorem State.setR0_dev (v : U64) : (s.setR0 v).dev = s.dev := rfl
@[simp] theorem State.setR0_history (v : U64) : (s.setR0 v).history = s.history := rfl
@[simp] theorem State.setR0_script (v : U64) : (s.setR0 v).script = s.script := rfl
@[simp] theorem State.setR0_choices (v : U64) : (s.setR0 v).choices = s.choices := rfl
@[simp] theorem State.setR0_freeCount (v : U64) : (s.setR0 v).freeCount = s.freeCount := rfl

@[simp] theorem State.setR1_cfg (v : U32) : (s.setR1 v).cfg = s.cfg := rfl
@[simp] theorem State.setR1_eng (v : U32) : (s.setR1 v).eng = s.eng := rfl
@[simp] theorem State.setR1_ports (v : U32) : (s.setR1 v).ports = s.ports.modify s.cur fun q => { q with r1 := v } := rfl
@[simp] theorem State.setR1_cur (v : U32) : (s.setR1 v).cur = s.cur := rfl
@[simp] theorem State.setR1_mem (v : U32) : (s.setR1 v).mem = s.mem := rfl
@[simp] theorem State.setR1_dev (v : U32) : (s.setR1 v).dev = s.dev := rfl
@[simp] theorem State.setR1_history (v : U32) : (s.setR1 v).history = s.history := rfl
@[simp] theorem State.setR1_script (v : U32) : (s.setR1 v).script = s.script := rfl
@[simp] theorem State.setR1_choices (v : U32) : (s.setR1 v).choices = s.choices := rfl
@[simp] theorem State.setR1_freeCount (v : U32) : (s.setR1 v).freeCount = s.freeCount := rfl

@[simp] theorem State.raise_cfg (pf : PF) : (s.raise pf).cfg = s.cfg := rfl
@[simp] theorem State.raise_eng (pf : PF) : (s.raise pf).eng = { s.eng with pfault := some (s.eng.pfault.getD pf), pfaultReg := if s.cfg.debugAssert && pf.detected then s.eng.pfaultReg ||| BitVec.twoPow 16 pf.number else s.eng.pfaultReg } := rfl
@[simp] theorem State.raise_ports (pf : PF) : (s.raise pf).ports = s.ports := rfl
@[simp] theorem State.raise_cur (pf : PF) : (s.raise pf).cur = s.cur := rfl
@[simp] theorem State.raise_mem (pf : PF) : (s.raise pf).mem = s.mem := rfl
@[simp] theorem State.raise_dev (pf : PF) : (s.raise pf).dev = s.dev := rfl
@[simp] theorem State.raise_history (pf : PF) : (s.raise pf).history = s.history := rfl
@[simp] theorem State.raise_script (pf : PF) : (s.raise pf).script = s.script := rfl
@[simp] theorem State.raise_choices (pf : PF) : (s.raise pf).choices = s.choices := rfl
@[simp] theorem State.raise_freeCount (pf : PF) : (s.raise pf).freeCount = s.freeCount := rfl

@[simp] theorem State.setLock_cfg (v : Lock) : (s.setLock v).cfg = s.cfg := rfl
@[simp] theorem State.setLock_eng (v : Lock) : (s.setLock v).eng = { s.eng with lock := v } := rfl
@[simp] theorem State.setLock_ports (v : Lock) : (s.setLock v).ports = s.ports := rfl
@[simp] theorem State.setLock_cur (v : Lock) : (s.setLock v).cur = s.cur := rfl
@[simp] theorem State.setLock_mem (v : Lock) : (s.setLock v).mem = s.mem := rfl
@[simp] theorem State.setLock_dev (v : Lock) : (s.setLock v).dev = s.dev := rfl
@[simp] theorem State.setLock_history (v : Lock) : (s.setLock v).history = s.history := rfl
@[simp] theorem State.setLock_script (v : Lock) : (s.setLock v).script = s.script := rfl
@[simp] theorem State.setLock_choices (v : Lock) : (s.setLock v).choices = s.choices := rfl
@[simp] theorem State.setLock_freeCount (v : Lock) : (s.setLock v).freeCount = s.freeCount := rfl

@[simp] theorem State.landed_cfg (id : U32) : (s.landed id).cfg = s.cfg := rfl
@[simp] theorem State.landed_eng (id : U32) : (s.landed id).eng = { s.eng with inflight := SMap.erase id.toNat s.eng.inflight } := rfl
@[simp] theorem State.landed_ports (id : U32) : (s.landed id).ports = s.ports := rfl
@[simp] theorem State.landed_cur (id : U32) : (s.landed id).cur = s.cur := rfl
@[simp] theorem State.landed_mem (id : U32) : (s.landed id).mem = s.mem := rfl
@[simp] theorem State.landed_dev (id : U32) : (s.landed id).dev = s.dev := rfl
@[simp] theorem State.landed_history (id : U32) : (s.landed id).history = s.history := rfl
@[simp] theorem State.landed_script (id : U32) : (s.landed id).script = s.script := rfl
@[simp] theorem State.landed_choices (id : U32) : (s.landed id).choices = s.choices := rfl
@[simp] theorem State.landed_freeCount (id : U32) : (s.landed id).freeCount = s.freeCount := rfl

@[simp] theorem State.complete_cfg (p : Nat) (e : ErrVal) : (s.complete p e).cfg = s.cfg := rfl
@[simp] theorem State.complete_eng (p : Nat) (e : ErrVal) : (s.complete p e).eng = s.eng := rfl
@[simp] theorem State.complete_ports (p : Nat) (e : ErrVal) : (s.complete p e).ports = s.ports.modify p fun q => q.completed e := rfl
@[simp] theorem State.complete_cur (p : Nat) (e : ErrVal) : (s.complete p e).cur = s.cur := rfl
@[simp] theorem State.complete_mem (p : Nat) (e : ErrVal) : (s.complete p e).mem = s.mem := rfl
@[simp] theorem State.complete_dev (p : Nat) (e : ErrVal) : (s.complete p e).dev = s.dev := rfl
@[simp] theorem State.complete_history (p : Nat) (e : ErrVal) : (s.complete p e).history = .complete p e (s.port p).r0 (s.port p).r1 :: s.history := rfl
@[simp] theorem State.complete_script (p : Nat) (e : ErrVal) : (s.complete p e).script = s.script := rfl
@[simp] theorem State.complete_choices (p : Nat) (e : ErrVal) : (s.complete p e).choices = s.choices := rfl
@[simp] theorem State.complete_freeCount (p : Nat) (e : ErrVal) : (s.complete p e).freeCount = s.freeCount := rfl

@[simp] theorem State.setLedger_cfg (f : Ledger → Ledger) : (s.setLedger f).cfg = s.cfg := rfl
@[simp] theorem State.setLedger_eng (f : Ledger → Ledger) : (s.setLedger f).eng = s.eng := rfl
@[simp] theorem State.setLedger_ports (f : Ledger → Ledger) : (s.setLedger f).ports = s.ports := rfl
@[simp] theorem State.setLedger_cur (f : Ledger → Ledger) : (s.setLedger f).cur = s.cur := rfl
@[simp] theorem State.setLedger_mem (f : Ledger → Ledger) : (s.setLedger f).mem = s.mem := rfl
@[simp] theorem State.setLedger_dev (f : Ledger → Ledger) : (s.setLedger f).dev = s.dev := rfl
@[simp] theorem State.setLedger_history (f : Ledger → Ledger) : (s.setLedger f).history = s.history := rfl
@[simp] theorem State.setLedger_script (f : Ledger → Ledger) : (s.setLedger f).script = s.script := rfl
@[simp] theorem State.setLedger_choices (f : Ledger → Ledger) : (s.setLedger f).choices = s.choices := rfl
@[simp] theorem State.setLedger_freeCount (f : Ledger → Ledger) : (s.setLedger f).freeCount = s.freeCount := rfl
@[simp] theorem State.setLedger_ledger (f : Ledger → Ledger) : (s.setLedger f).ledger = f s.ledger := rfl

@[simp] theorem State.setPort_ledger (p : Nat) (f : Port → Port) : (s.setPort p f).ledger = s.ledger := rfl
@[simp] theorem State.setEng_ledger (f : Engine → Engine) : (s.setEng f).ledger = s.ledger := rfl
@[simp] theorem State.setMem_ledger (m : Memory) : (s.setMem m).ledger = s.ledger := rfl
@[simp] theorem State.setDev_ledger (d : Device) : (s.setDev d).ledger = s.ledger := rfl
@[simp] theorem State.setR0_ledger (v : U64) : (s.setR0 v).ledger = s.ledger := rfl
@[simp] theorem State.setR1_ledger (v : U32) : (s.setR1 v).ledger = s.ledger := rfl
@[simp] theorem State.raise_ledger (pf : PF) : (s.raise pf).ledger = s.ledger := rfl
@[simp] theorem State.setLock_ledger (v : Lock) : (s.setLock v).ledger = s.ledger := rfl
@[simp] theorem State.landed_ledger (id : U32) : (s.landed id).ledger = s.ledger := rfl
@[simp] theorem State.log_ledger (e : Event) : (s.log e).ledger = s.ledgerAfter e := rfl

@[simp] theorem Port.completed_err (q : Port) (e : ErrVal) : (q.completed e).err = e := rfl
@[simp] theorem Port.completed_work (q : Port) (e : ErrVal) : (q.completed e).work = .idle := rfl
@[simp] theorem Port.completed_r0 (q : Port) (e : ErrVal) : (q.completed e).r0 = q.r0 := rfl
@[simp] theorem Port.completed_r1 (q : Port) (e : ErrVal) : (q.completed e).r1 = q.r1 := rfl
@[simp] theorem Port.completed_sample (q : Port) (e : ErrVal) : (q.completed e).sample = q.sample := rfl

/-- Reading a port after changing one. -/
theorem State.port_setPort (p q : Nat) (f : Port → Port) :
    (s.setPort p f).port q = if p = q ∧ p < s.ports.length then f (s.port q) else s.port q := by
  unfold State.port
  simp only [State.setPort_ports, State.setPort_cfg, List.getElem?_modify]
  by_cases hpq : p = q
  · subst hpq
    by_cases hp : p < s.ports.length
    · simp [hp]
    · simp [hp]
  · simp [hpq]

@[simp] theorem State.port_setEng (f : Engine → Engine) (q : Nat) : (s.setEng f).port q = s.port q := rfl
@[simp] theorem State.port_setMem (m : Memory) (q : Nat) : (s.setMem m).port q = s.port q := rfl
@[simp] theorem State.port_setDev (d : Device) (q : Nat) : (s.setDev d).port q = s.port q := rfl
@[simp] theorem State.port_setLedger (f : Ledger → Ledger) (q : Nat) : (s.setLedger f).port q = s.port q := rfl
@[simp] theorem State.port_log (e : Event) (q : Nat) : (s.log e).port q = s.port q := rfl
@[simp] theorem State.port_raise (pf : PF) (q : Nat) : (s.raise pf).port q = s.port q := rfl
@[simp] theorem State.port_setLock (v : Lock) (q : Nat) : (s.setLock v).port q = s.port q := rfl
@[simp] theorem State.port_landed (id : U32) (q : Nat) : (s.landed id).port q = s.port q := rfl

/-- A port other than the changed one, or past the end, reads as before. -/
theorem State.port_setPort_other {p q : Nat} (f : Port → Port) (h : p ≠ q) : (s.setPort p f).port q = s.port q := by
  rw [State.port_setPort, if_neg fun hc => h hc.1]

/-- The changed port. -/
theorem State.port_setPort_same {p : Nat} (f : Port → Port) (h : p < s.ports.length) :
    (s.setPort p f).port p = f (s.port p) := by
  rw [State.port_setPort, if_pos ⟨rfl, h⟩]

/-- Completing a command changes `ERR` and `work` of its port. -/
theorem State.port_complete (p q : Nat) (e : ErrVal) :
    (s.complete p e).port q
      = if p = q ∧ p < s.ports.length then (s.port q).completed e else s.port q := by
  show (s.setPort p _).port q = _
  rw [State.port_setPort]

/-- Writing `R0` of the issuing port. -/
theorem State.port_setR0 (v : U64) (q : Nat) :
    (s.setR0 v).port q = if s.cur = q ∧ s.cur < s.ports.length then { s.port q with r0 := v } else s.port q := by
  show (s.setPort s.cur _).port q = _
  rw [State.port_setPort]

/-- Writing `R1` of the issuing port. -/
theorem State.port_setR1 (v : U32) (q : Nat) :
    (s.setR1 v).port q = if s.cur = q ∧ s.cur < s.ports.length then { s.port q with r1 := v } else s.port q := by
  show (s.setPort s.cur _).port q = _
  rw [State.port_setPort]

/-- A port number past the last port names no port of the machine. -/
theorem State.port_of_length_le {p : Nat} (h : s.ports.length ≤ p) : s.port p = Port.reset s.cfg := by
  simp [State.port, List.getElem?_eq_none h]

end Sys2Proof.Machine
end

