-- ==== Sys2Proof/Laws/Memory.lean ====
section
/-! SUPPORT. The laws of sparse maps and of shared memory: read after write, and that every operation keeps the canonical
form. -/

namespace Sys2Proof.Machine

variable {β : Type}

theorem SMap.find?_insert_same (k : Nat) (v : β) (m : SMap β) : SMap.find? k (SMap.insert k v m) = some v := by
  induction m with
  | nil => simp [SMap.insert, SMap.find?]
  | cons e m ih =>
    obtain ⟨j, w⟩ := e
    simp only [SMap.insert]
    split_ifs with h1 h2
    · simp [SMap.find?]
    · simp [SMap.find?]
    · have h3 : ¬ j = k := fun h => h2 h.symm
      simp [SMap.find?, ih, h3]

theorem SMap.find?_insert_other {k j : Nat} (v : β) (m : SMap β) (h : j ≠ k) :
    SMap.find? j (SMap.insert k v m) = SMap.find? j m := by
  induction m with
  | nil => simp [SMap.insert, SMap.find?, Ne.symm h]
  | cons e m ih =>
    obtain ⟨i, w⟩ := e
    simp only [SMap.insert]
    split_ifs with h1 h2
    · simp [SMap.find?, Ne.symm h]
    · subst h2
      simp [SMap.find?, Ne.symm h]
    · simp only [SMap.find?, ih]

theorem SMap.find?_erase_same (k : Nat) (m : SMap β) : SMap.find? k (SMap.erase k m) = none := by
  induction m with
  | nil => rfl
  | cons e m ih =>
    obtain ⟨j, w⟩ := e
    by_cases h : j = k
    · simpa [SMap.erase, h] using ih
    · have : SMap.erase k ((j, w) :: m) = (j, w) :: SMap.erase k m := by simp [SMap.erase, h]
      rw [this]
      simp [SMap.find?, h, ih]

theorem SMap.find?_erase_other {k j : Nat} (m : SMap β) (h : j ≠ k) :
    SMap.find? j (SMap.erase k m) = SMap.find? j m := by
  induction m with
  | nil => rfl
  | cons e m ih =>
    obtain ⟨i, w⟩ := e
    by_cases hi : i = k
    · have : SMap.erase k ((i, w) :: m) = SMap.erase k m := by simp [SMap.erase, hi]
      rw [this, ih]
      simp [SMap.find?, hi, Ne.symm h]
    · have : SMap.erase k ((i, w) :: m) = (i, w) :: SMap.erase k m := by simp [SMap.erase, hi]
      rw [this]
      simp only [SMap.find?, ih]

theorem SMap.mem_erase {k : Nat} {m : SMap β} {e : Nat × β} : e ∈ SMap.erase k m ↔ e ∈ m ∧ e.1 ≠ k := by
  simp [SMap.erase]

theorem SMap.mem_insert {k : Nat} {v : β} {m : SMap β} {e : Nat × β} (h : e ∈ SMap.insert k v m) :
    e = (k, v) ∨ e ∈ m := by
  induction m with
  | nil => simpa [SMap.insert] using h
  | cons f m ih =>
    obtain ⟨j, w⟩ := f
    simp only [SMap.insert] at h
    split_ifs at h with h1 h2
    · simpa using h
    · rcases List.mem_cons.mp h with h | h
      · exact .inl h
      · exact .inr (List.mem_cons_of_mem _ h)
    · rcases List.mem_cons.mp h with h | h
      · exact .inr (by simp [h])
      · exact (ih h).imp id (List.mem_cons_of_mem _)

theorem SMap.sorted_erase (k : Nat) {m : SMap β} (h : SMap.Sorted m) : SMap.Sorted (SMap.erase k m) :=
  h.sublist List.filter_sublist

theorem SMap.sorted_insert (k : Nat) (v : β) {m : SMap β} (h : SMap.Sorted m) : SMap.Sorted (SMap.insert k v m) := by
  induction m with
  | nil => simp [SMap.Sorted, SMap.insert]
  | cons f m ih =>
    obtain ⟨j, w⟩ := f
    have hj := List.pairwise_cons.mp h
    simp only [SMap.insert]
    split_ifs with h1 h2
    · exact List.pairwise_cons.mpr ⟨fun e he => by
        rcases List.mem_cons.mp he with rfl | he
        · exact h1
        · exact lt_trans h1 (hj.1 e he), h⟩
    · subst h2
      exact List.pairwise_cons.mpr ⟨hj.1, hj.2⟩
    · refine List.pairwise_cons.mpr ⟨fun e he => ?_, ih hj.2⟩
      rcases SMap.mem_insert he with rfl | he
      · exact show j < k by omega
      · exact hj.1 e he

/-! One byte. -/

theorem Memory.read_write_same (m : Memory) (a : Nat) (b : Byte) : (m.write a b).read a = b := by
  unfold Memory.write Memory.read
  split_ifs with h
  · rw [SMap.find?_erase_same, h]; rfl
  · rw [SMap.find?_insert_same]; rfl

theorem Memory.read_write_other (m : Memory) {a x : Nat} (b : Byte) (h : x ≠ a) : (m.write a b).read x = m.read x := by
  unfold Memory.write Memory.read
  split_ifs
  · rw [SMap.find?_erase_other m h]
  · rw [SMap.find?_insert_other b m h]

/-- A write keeps the canonical form. -/
theorem Memory.wf_write {m : Memory} {a : Nat} (b : Byte) (ha : a < 2 ^ 64) (h : Memory.wf m) :
    Memory.wf (m.write a b) := by
  unfold Memory.write
  split_ifs with hb
  · exact ⟨SMap.sorted_erase a h.1, fun e he => h.2 e (SMap.mem_erase.mp he).1⟩
  · refine ⟨SMap.sorted_insert a b h.1, fun e he => ?_⟩
    rcases SMap.mem_insert he with rfl | he
    · exact ⟨ha, hb⟩
    · exact h.2 e he

/-! Byte strings. -/

/-- A byte-string write keeps the canonical form. -/
theorem Memory.wf_store {m : Memory} (a : U64) (bs : List Byte) (h : Memory.wf m) : Memory.wf (m.store a bs) := by
  induction bs generalizing m a with
  | nil => exact h
  | cons b bs ih => exact ih (a + 1) (Memory.wf_write b a.isLt h)

theorem inBytes_zero (a : U64) (x : Nat) : ¬ inBytes a 0 x := by
  rintro ⟨k, hk, _⟩
  omega

theorem inBytes_succ (a : U64) (n x : Nat) : inBytes a (n + 1) x ↔ a.toNat = x ∨ inBytes (a + 1) n x := by
  constructor
  · rintro ⟨k, hk, h⟩
    cases k with
    | zero => left; simpa using h
    | succ k =>
      right
      refine ⟨k, by omega, ?_⟩
      rw [← h]
      congr 1
      simp only [BitVec.ofNat_add]
      ac_rfl
  · rintro (h | ⟨k, hk, h⟩)
    · exact ⟨0, by omega, by simpa using h⟩
    · refine ⟨k + 1, by omega, ?_⟩
      rw [← h]
      congr 1
      simp only [BitVec.ofNat_add]
      ac_rfl

/-- Every byte outside the stored ones reads as before. -/
theorem Memory.read_store_outside (m : Memory) (a : U64) (bs : List Byte) {x : Nat} (h : ¬ inBytes a bs.length x) :
    (m.store a bs).read x = m.read x := by
  induction bs generalizing m a with
  | nil => rfl
  | cons b bs ih =>
    rw [List.length_cons, inBytes_succ, not_or] at h
    rw [Memory.store, ih _ _ h.2, Memory.read_write_other m b (Ne.symm h.1)]

/-- A stored byte depends on memory through that byte alone. -/
theorem Memory.read_store_congr {m m' : Memory} {x : Nat} (a : U64) (bs : List Byte) (h : m.read x = m'.read x) :
    (m.store a bs).read x = (m'.store a bs).read x := by
  induction bs generalizing m m' a with
  | nil => exact h
  | cons b bs ih =>
    refine ih (a + 1) ?_
    by_cases hx : x = a.toNat
    · subst hx; rw [Memory.read_write_same, Memory.read_write_same]
    · rw [Memory.read_write_other _ _ hx, Memory.read_write_other _ _ hx, h]

@[simp] theorem Memory.load_length (m : Memory) (a : U64) (n : Nat) : (m.load a n).length = n := by
  induction n generalizing a with
  | zero => rfl
  | succ n ih => simp [Memory.load, ih]

/-- A load depends on memory through its own bytes alone. -/
theorem Memory.load_congr {m m' : Memory} (a : U64) (n : Nat) (h : ∀ x, inBytes a n x → m.read x = m'.read x) :
    m.load a n = m'.load a n := by
  induction n generalizing a with
  | zero => rfl
  | succ n ih =>
    have h0 := h a.toNat ((inBytes_succ a n _).mpr (.inl rfl))
    have h1 := ih (a + 1) fun x hx => h x ((inBytes_succ a n x).mpr (.inr hx))
    rw [Memory.load, Memory.load, h0, h1]

theorem not_inBytes_succ_self (a : U64) {n : Nat} (hn : n < 2 ^ 64) : ¬ inBytes (a + 1) n a.toNat := by
  rintro ⟨k, hk, h⟩
  have h1 : (a + 1 + BitVec.ofNat 64 k).toNat = (a.toNat + 1 + k) % 2 ^ 64 := by
    simp [BitVec.toNat_add]
  rw [h1] at h
  have ha := a.isLt
  omega

/-- A load of what was just stored gives it back. -/
theorem Memory.load_store_same (m : Memory) (a : U64) (bs : List Byte) (h : bs.length < 2 ^ 64) :
    (m.store a bs).load a bs.length = bs := by
  induction bs generalizing m a with
  | nil => rfl
  | cons b bs ih =>
    rw [List.length_cons] at h
    rw [Memory.store, List.length_cons, Memory.load, ih _ _ (by omega),
      Memory.read_store_outside _ _ _ (not_inBytes_succ_self a (by omega)), Memory.read_write_same]

/-! Little-endian numbers. -/

@[simp] theorem leBytes_length (n v : Nat) : (leBytes n v).length = n := by
  induction n generalizing v with
  | zero => rfl
  | succ n ih => simp [leBytes, ih]

theorem ofLE_leBytes (n v : Nat) : ofLE (leBytes n v) = v % 256 ^ n := by
  induction n generalizing v with
  | zero => simp [leBytes, ofLE, Nat.mod_one]
  | succ n ih =>
    have e : 256 ^ (n + 1) = 256 * 256 ^ n := by ring
    rw [leBytes, ofLE, ih, e, Nat.mod_mul, BitVec.toNat_ofNat]

theorem ofLE_lt (bs : List Byte) : ofLE bs < 256 ^ bs.length := by
  induction bs with
  | nil => simp [ofLE]
  | cons b bs ih =>
    have hb := b.isLt
    rw [ofLE, List.length_cons, pow_succ]
    omega

@[simp] theorem overwrite_length (old : List Byte) (k : Nat) (bs : List Byte) : (overwrite old k bs).length = old.length := by
  induction bs generalizing old k with
  | nil => rfl
  | cons b bs ih => simp [overwrite, ih]

/-- Two stretches at different distances from one base have no address in common. -/
theorem inBytes_disjoint {a : U64} {j n k m x : Nat} (h1 : inBytes (a + BitVec.ofNat 64 j) n x)
    (h2 : inBytes (a + BitVec.ofNat 64 k) m x) (hjk : j + n ≤ k) (hk : k + m ≤ 2 ^ 64) : False := by
  obtain ⟨p, hp, h1⟩ := h1
  obtain ⟨q, hq, h2⟩ := h2
  simp only [BitVec.toNat_add, BitVec.toNat_ofNat] at h1 h2
  have := a.isLt
  omega

/-- A load beside a store. -/
theorem Memory.load_store_other (m : Memory) {a b : U64} {n : Nat} {bs : List Byte}
    (h : ∀ x, inBytes a n x → ¬ inBytes b bs.length x) : (m.store b bs).load a n = m.load a n :=
  Memory.load_congr a n fun x hx => Memory.read_store_outside m b bs (h x hx)

/-- What was stored, seen through a later store beside it. -/
theorem Memory.load_store_store (m : Memory) {a b : U64} {bs cs : List Byte} (hb : bs.length < 2 ^ 64)
    (h : ∀ x, inBytes a bs.length x → ¬ inBytes b cs.length x) :
    ((m.store a bs).store b cs).load a bs.length = bs := by
  rw [Memory.load_store_other _ h, Memory.load_store_same m a bs hb]

/-- Every byte of a stored string reads as stored. -/
theorem Memory.read_store_zeros (m : Memory) (a : U64) {n x : Nat} (hx : inBytes a n x) :
    (m.store a (List.replicate n 0)).read x = 0 := by
  induction n generalizing m a with
  | zero => exact absurd hx (inBytes_zero a x)
  | succ n ih =>
    rw [List.replicate_succ, Memory.store]
    by_cases h : inBytes (a + 1) n x
    · exact ih _ _ h
    · rw [Memory.read_store_outside _ _ _ (by rwa [List.length_replicate])]
      rcases (inBytes_succ a n x).mp hx with rfl | hc
      · exact Memory.read_write_same _ _ _
      · exact absurd hc h

end Sys2Proof.Machine
end

