-- ==== Sys2Proof/Laws/Environment.lean ====
section
/-! SUPPORT. What the environment's moves can change: each field, unless `RST` is asserted. -/

namespace Sys2Proof.Machine

theorem Port.idle_of_not_busy {q : Port} (h : q.busy = false) : q.work = .idle := by simpa [Port.busy] using h

theorem Port.hostChanged_refl (q : Port) : q.hostChanged q :=
  ⟨⟨rfl, rfl, rfl⟩, fun _ => ⟨rfl, rfl⟩, fun h => .inl (Port.idle_of_not_busy h)⟩

theorem Port.hostChanged_trans {q r t : Port} (h1 : q.hostChanged r) (h2 : r.hostChanged t) : q.hostChanged t := by
  obtain ⟨⟨a1, a2, a3⟩, a4, a5⟩ := h1
  obtain ⟨⟨b1, b2, b3⟩, b4, b5⟩ := h2
  refine ⟨⟨a1.trans b1, a2.trans b2, a3.trans b3⟩, fun ht => ?_, fun ht => ?_⟩
  · have hb := b4 ht
    have hr : r.busy = true := by simpa [Port.busy, hb.1] using ht
    exact ⟨(a4 hr).1.trans hb.1, (a4 hr).2.trans hb.2⟩
  · rcases b5 ht with hr | hr
    · exact a5 (by simp [Port.busy, hr])
    · exact .inr ((a4 (by simp [Port.busy, hr])).1.trans hr)

/-- A change of registers that leaves results, command and sample alone. -/
theorem Port.hostChanged_of_eq {q r : Port} (h1 : q.sameResults r) (h2 : q.work = r.work) (h3 : q.sample = r.sample) :
    q.hostChanged r := ⟨h1, fun _ => ⟨h2, h3⟩, fun h => .inl (h2.trans (Port.idle_of_not_busy h))⟩

theorem State.port_hostChanged_setPort (s : State) (p q : Nat) (f : Port → Port)
    (h : ∀ r : Port, (f r).hostChanged r) : ((s.setPort p f).port q).hostChanged (s.port q) := by
  rw [State.port_setPort]
  split_ifs
  · exact h _
  · exact Port.hostChanged_refl _

/-- What one move that is not `RST` leaves as it was. -/
structure SameEngine (s t : State) : Prop where
  cfg : t.cfg = s.cfg
  eng : t.eng = s.eng
  cur : t.cur = s.cur
  choices : t.choices = s.choices
  freeCount : t.freeCount = s.freeCount
  length : t.ports.length = s.ports.length
  ports : ∀ q, (t.port q).hostChanged (s.port q)
  accesses : t.accesses = s.accesses
  wf : Memory.wf s.mem → Memory.wf t.mem
  history : s.history <:+ t.history

theorem SameEngine.refl (s : State) : SameEngine s s :=
  ⟨rfl, rfl, rfl, rfl, rfl, rfl, fun _ => Port.hostChanged_refl _, rfl, id, List.suffix_refl _⟩

theorem SameEngine.trans {s t u : State} (h1 : SameEngine s t) (h2 : SameEngine t u) : SameEngine s u :=
  ⟨h2.cfg.trans h1.cfg, h2.eng.trans h1.eng, h2.cur.trans h1.cur, h2.choices.trans h1.choices,
   h2.freeCount.trans h1.freeCount, h2.length.trans h1.length,
   fun q => Port.hostChanged_trans (h2.ports q) (h1.ports q), h2.accesses.trans h1.accesses, fun h => h2.wf (h1.wf h),
   h1.history.trans h2.history⟩

theorem State.sameEngine_issue (s : State) (p : Nat) (w : U32) : SameEngine s (s.issue p w) := by
  unfold State.issue
  split_ifs with h
  · refine ⟨rfl, rfl, rfl, rfl, rfl, by simp, fun q => ?_, by simp [State.accesses, Event.isAccess], id,
      List.suffix_cons _ _⟩
    show ((s.setPort p fun q => q.issued w).port q).hostChanged (s.port q)
    rw [State.port_setPort]
    split_ifs with hq
    · refine ⟨⟨rfl, rfl, rfl⟩, fun hb => ?_, fun _ => .inr rfl⟩
      rw [← hq.1, h.2] at hb
      exact absurd hb (by decide)
    · exact Port.hostChanged_refl _
  · exact SameEngine.refl s

/-- One move that is not `RST` changes no engine register, no result register, no busy command, and makes no access of the
engine's. -/
theorem State.sameEngine_applyMove (s : State) {m : Move} (h : m.isRst = false) : SameEngine s (s.applyMove m) := by
  cases m with
  | hostA p k v =>
    refine ⟨rfl, rfl, rfl, rfl, rfl, by simp [State.applyMove], fun q => ?_, rfl, id, List.suffix_refl _⟩
    refine State.port_hostChanged_setPort s p q _ fun r => ?_
    fin_cases k <;> exact Port.hostChanged_of_eq ⟨rfl, rfl, rfl⟩ rfl rfl
  | hostPbuf p k bytes =>
    refine ⟨rfl, rfl, rfl, rfl, rfl, by simp [State.applyMove], fun q => ?_, rfl, id, List.suffix_refl _⟩
    exact State.port_hostChanged_setPort s p q _ fun r => Port.hostChanged_of_eq ⟨rfl, rfl, rfl⟩ rfl rfl
  | issue p w => exact State.sameEngine_issue s p w
  | hostMemW addr bytes =>
    exact ⟨rfl, rfl, rfl, rfl, rfl, rfl, fun _ => Port.hostChanged_refl _, rfl, Memory.wf_store addr bytes, List.suffix_refl _⟩
  | devMemW addr bytes =>
    exact ⟨rfl, rfl, rfl, rfl, rfl, rfl, fun _ => Port.hostChanged_refl _, rfl, Memory.wf_store addr bytes, List.suffix_cons _ _⟩
  | rst => simp [Move.isRst] at h
  | hostMmioW r v => exact ⟨rfl, rfl, rfl, rfl, rfl, rfl, fun _ => Port.hostChanged_refl _, rfl, id, List.suffix_refl _⟩
  | hostConfigW o b => exact ⟨rfl, rfl, rfl, rfl, rfl, rfl, fun _ => Port.hostChanged_refl _, rfl, id, List.suffix_refl _⟩
  | devMemR addr n => exact ⟨rfl, rfl, rfl, rfl, rfl, rfl, fun _ => Port.hostChanged_refl _, rfl, id, List.suffix_cons _ _⟩
  | devIrq bits => exact ⟨rfl, rfl, rfl, rfl, rfl, rfl, fun _ => Port.hostChanged_refl _, rfl, id, List.suffix_cons _ _⟩
  | devIrqDrop bits => exact ⟨rfl, rfl, rfl, rfl, rfl, rfl, fun _ => Port.hostChanged_refl _, rfl, id, List.suffix_refl _⟩
  | devDecline => exact ⟨rfl, rfl, rfl, rfl, rfl, rfl, fun _ => Port.hostChanged_refl _, rfl, id, List.suffix_refl _⟩
  | devStatus bits => exact ⟨rfl, rfl, rfl, rfl, rfl, rfl, fun _ => Port.hostChanged_refl _, rfl, id, List.suffix_refl _⟩
  | devOffer sel w => exact ⟨rfl, rfl, rfl, rfl, rfl, rfl, fun _ => Port.hostChanged_refl _, rfl, id, List.suffix_refl _⟩
  | devQueueMax q m => exact ⟨rfl, rfl, rfl, rfl, rfl, rfl, fun _ => Port.hostChanged_refl _, rfl, id, List.suffix_refl _⟩
  | devStatusDrop bits => exact ⟨rfl, rfl, rfl, rfl, rfl, rfl, fun _ => Port.hostChanged_refl _, rfl, id, List.suffix_refl _⟩
  | devQueueRegs q n p => exact ⟨rfl, rfl, rfl, rfl, rfl, rfl, fun _ => Port.hostChanged_refl _, rfl, id, List.suffix_refl _⟩
  | devSeen i => exact ⟨rfl, rfl, rfl, rfl, rfl, rfl, fun _ => Port.hostChanged_refl _, rfl, id, List.suffix_refl _⟩
  | devConfig o b => exact ⟨rfl, rfl, rfl, rfl, rfl, rfl, fun _ => Port.hostChanged_refl _, rfl, id, List.suffix_refl _⟩

theorem State.applyMove_script (s : State) (m : Move) : (s.applyMove m).script = s.script := by
  cases m <;> try rfl
  case issue p w => simp only [State.applyMove, State.issue]; split_ifs <;> rfl

theorem State.applyMoves_script (s : State) (ms : List Move) : (s.applyMoves ms).script = s.script := by
  induction ms generalizing s with
  | nil => rfl
  | cons m ms ih => exact (ih (s.applyMove m)).trans (State.applyMove_script s m)

theorem State.sameEngine_applyMoves (s : State) {ms : List Move} (h : ∀ m ∈ ms, m.isRst = false) :
    SameEngine s (s.applyMoves ms) := by
  induction ms generalizing s with
  | nil => exact SameEngine.refl s
  | cons m ms ih =>
    exact (State.sameEngine_applyMove s (h m (by simp))).trans (ih _ fun n hn => h n (by simp [hn]))

@[simp] theorem State.turn_script (s : State) : s.turn.script = s.script.tail := by
  unfold State.turn
  split
  next h => simp [h]
  next ms rest h => rw [State.applyMoves_script, h]; rfl

theorem State.turn_quiet {s : State} (h : s.quiet) : s.turn = s := by
  unfold State.turn
  rw [h]

theorem State.rstNext_quiet {s : State} (h : s.quiet) : s.rstNext = false := by
  unfold State.rstNext
  rw [h]

theorem State.rstNext_calm {s : State} (h : s.calm) : s.rstNext = false := by
  unfold State.rstNext
  split
  · rfl
  next ms rest hs =>
    rw [List.any_eq_false]
    intro m hm
    simp [h ms (by simp [hs]) m hm]

theorem State.calm_of_quiet {s : State} (h : s.quiet) : s.calm := by
  intro ms hms
  rw [h] at hms
  exact absurd hms (by simp)

theorem State.calm_turn {s : State} (h : s.calm) : s.turn.calm := by
  intro ms hms m hm
  rw [State.turn_script] at hms
  exact h ms (List.mem_of_mem_tail hms) m hm

/-- A turn without `RST` changes nothing of the engine's. -/
theorem State.sameEngine_turn {s : State} (h : s.rstNext = false) : SameEngine s s.turn := by
  unfold State.turn
  split
  · exact SameEngine.refl s
  next ms rest hs =>
    have hm : ∀ m ∈ ms, m.isRst = false := by
      intro m hm
      unfold State.rstNext at h
      rw [hs] at h
      have := List.any_eq_false.mp h m hm
      simpa using this
    have h1 := State.sameEngine_applyMoves { s with script := rest } hm
    exact ⟨h1.cfg, h1.eng, h1.cur, h1.choices, h1.freeCount, h1.length, h1.ports, h1.accesses, h1.wf, h1.history⟩

/-! The environment's effect on a byte of memory depends on that byte alone. -/

theorem State.read_applyMove_congr {s t : State} {a : Nat} (m : Move) (h : s.mem.read a = t.mem.read a) :
    (s.applyMove m).mem.read a = (t.applyMove m).mem.read a := by
  cases m with
  | hostMemW addr bytes => exact Memory.read_store_congr addr bytes h
  | devMemW addr bytes => exact Memory.read_store_congr addr bytes h
  | issue p w =>
    have h1 : (s.issue p w).mem = s.mem := by unfold State.issue; split_ifs <;> rfl
    have h2 : (t.issue p w).mem = t.mem := by unfold State.issue; split_ifs <;> rfl
    simpa [State.applyMove, h1, h2] using h
  | _ => exact h

theorem State.read_applyMoves_congr {s t : State} {a : Nat} (ms : List Move) (h : s.mem.read a = t.mem.read a) :
    (s.applyMoves ms).mem.read a = (t.applyMoves ms).mem.read a := by
  induction ms generalizing s t with
  | nil => exact h
  | cons m ms ih => exact ih (State.read_applyMove_congr m h)

theorem State.read_turn_congr {s t : State} {a : Nat} (hs : s.script = t.script) (h : s.mem.read a = t.mem.read a) :
    s.turn.mem.read a = t.turn.mem.read a := by
  unfold State.turn
  rw [hs]
  split
  · exact h
  · exact State.read_applyMoves_congr _ h

/-- What the environment alone makes of a byte depends on the script and on that byte. -/
theorem State.read_environmentAlone_congr (k : Nat) {s t : State} {a : Nat} (hs : s.script = t.script)
    (h : s.mem.read a = t.mem.read a) :
    (State.environmentAlone k s).mem.read a = (State.environmentAlone k t).mem.read a := by
  induction k generalizing s t with
  | zero => exact h
  | succ k ih => exact ih (by simp [hs]) (State.read_turn_congr hs h)

/-- The configuration is fixed: no move changes it, `RST` included. -/
theorem State.applyMove_cfg (s : State) (m : Move) : (s.applyMove m).cfg = s.cfg := by
  cases m <;> try rfl
  case issue p w => simp only [State.applyMove, State.issue]; split_ifs <;> rfl

theorem State.applyMoves_cfg (s : State) (ms : List Move) : (s.applyMoves ms).cfg = s.cfg := by
  induction ms generalizing s with
  | nil => rfl
  | cons m ms ih => exact (ih (s.applyMove m)).trans (State.applyMove_cfg s m)

@[simp] theorem State.turn_cfg (s : State) : s.turn.cfg = s.cfg := by
  unfold State.turn
  split
  · rfl
  · rw [State.applyMoves_cfg]

/-! So does its effect on the operand registers of a port, and on the device. -/

/-- Two states between which a port's operand registers evolve alike. -/
abbrev SamePorts (s t : State) (q : Nat) : Prop :=
  s.ports.length = t.ports.length ∧ s.cfg = t.cfg ∧ (s.port q).operandRegs = (t.port q).operandRegs

theorem Port.operandRegs_setA {q r : Port} (k : Fin 4) (v : U64) (h : q.operandRegs = r.operandRegs) :
    (q.setA k v).operandRegs = (r.setA k v).operandRegs := by
  simp only [Port.operandRegs, Prod.mk.injEq] at h
  obtain ⟨⟨h0, h1, h2, h3⟩, h4, h5⟩ := h
  fin_cases k <;> simp [Port.setA, Port.operandRegs, h0, h1, h2, h3, h4, h5]

theorem State.operandRegs_setPort {s t : State} {q : Nat} (p : Nat) (f : Port → Port) (g : Port → Port)
    (h : SamePorts s t q) (hf : ∀ a b : Port, a.operandRegs = b.operandRegs → (f a).operandRegs = (g b).operandRegs) :
    ((s.setPort p f).port q).operandRegs = ((t.setPort p g).port q).operandRegs := by
  rw [State.port_setPort, State.port_setPort, h.1]
  split_ifs
  · exact hf _ _ h.2.2
  · exact h.2.2

theorem State.operandRegs_issue (s : State) (p q : Nat) (w : U32) :
    ((s.issue p w).port q).operandRegs = (s.port q).operandRegs := by
  unfold State.issue
  split_ifs
  · show ((s.setPort p fun q => q.issued w).port q).operandRegs = _
    rw [State.port_setPort]
    split_ifs <;> rfl
  · rfl

theorem State.samePorts_applyMove {s t : State} {q : Nat} {m : Move} (hm : m.isRst = false) (h : SamePorts s t q) :
    SamePorts (s.applyMove m) (t.applyMove m) q := by
  refine ⟨?_, ?_, ?_⟩
  · rw [(State.sameEngine_applyMove s hm).length, (State.sameEngine_applyMove t hm).length, h.1]
  · rw [(State.sameEngine_applyMove s hm).cfg, (State.sameEngine_applyMove t hm).cfg, h.2.1]
  · cases m with
    | hostA p k v => exact State.operandRegs_setPort p _ _ h fun a b hab => Port.operandRegs_setA k v hab
    | hostPbuf p k bytes =>
      refine State.operandRegs_setPort p _ _ h fun a b hab => ?_
      simp only [Port.setPbuf, Port.operandRegs, Prod.mk.injEq] at hab ⊢
      obtain ⟨⟨h0, h1, h2, h3⟩, h4, h5⟩ := hab
      simp [h0, h1, h2, h3, h4, h5]
    | issue p w =>
      show ((s.issue p w).port q).operandRegs = ((t.issue p w).port q).operandRegs
      rw [State.operandRegs_issue, State.operandRegs_issue, h.2.2]
    | rst => simp [Move.isRst] at hm
    | _ => exact h.2.2

theorem State.samePorts_applyMoves {s t : State} {q : Nat} {ms : List Move} (hm : ∀ m ∈ ms, m.isRst = false)
    (h : SamePorts s t q) : SamePorts (s.applyMoves ms) (t.applyMoves ms) q := by
  induction ms generalizing s t with
  | nil => exact h
  | cons m ms ih => exact ih (fun n hn => hm n (by simp [hn])) (State.samePorts_applyMove (hm m (by simp)) h)

theorem State.calm_head {s : State} (h : s.calm) {ms : List Move} {rest : List (List Move)} (hs : s.script = ms :: rest) :
    ∀ m ∈ ms, m.isRst = false := h ms (by simp [hs])

theorem State.samePorts_turn {s t : State} {q : Nat} (hc : s.calm) (hs : s.script = t.script) (h : SamePorts s t q) :
    SamePorts s.turn t.turn q := by
  unfold State.turn
  rw [← hs]
  split
  · exact h
  next ms rest hms => exact State.samePorts_applyMoves (State.calm_head hc hms) h

theorem State.samePorts_environmentAlone (k : Nat) {s t : State} {q : Nat} (hc : s.calm) (hs : s.script = t.script)
    (h : SamePorts s t q) : SamePorts (State.environmentAlone k s) (State.environmentAlone k t) q := by
  induction k generalizing s t with
  | zero => exact h
  | succ k ih => exact ih (State.calm_turn hc) (by simp [hs]) (State.samePorts_turn hc hs h)

theorem State.dev_applyMove_congr {s t : State} (m : Move) (h : s.dev = t.dev) (hc : s.cfg = t.cfg) :
    (s.applyMove m).dev = (t.applyMove m).dev := by
  cases m with
  | issue p w =>
    have h1 : (s.issue p w).dev = s.dev := by unfold State.issue; split_ifs <;> rfl
    have h2 : (t.issue p w).dev = t.dev := by unfold State.issue; split_ifs <;> rfl
    simpa [State.applyMove, h1, h2] using h
  | rst => exact h
  | devMemW addr bytes => exact h
  | _ => simp [State.applyMove, h, hc]

theorem State.dev_applyMoves_congr {s t : State} (ms : List Move) (h : s.dev = t.dev) (hc : s.cfg = t.cfg) :
    (s.applyMoves ms).dev = (t.applyMoves ms).dev := by
  induction ms generalizing s t with
  | nil => exact h
  | cons m ms ih =>
    exact ih (State.dev_applyMove_congr m h hc) (by rw [State.applyMove_cfg, State.applyMove_cfg, hc])

theorem State.dev_turn_congr {s t : State} (hs : s.script = t.script) (h : s.dev = t.dev) (hc : s.cfg = t.cfg) :
    s.turn.dev = t.turn.dev := by
  unfold State.turn
  rw [hs]
  split
  · exact h
  · exact State.dev_applyMoves_congr _ h hc

theorem State.dev_environmentAlone_congr (k : Nat) {s t : State} (hs : s.script = t.script) (h : s.dev = t.dev)
    (hc : s.cfg = t.cfg) : (State.environmentAlone k s).dev = (State.environmentAlone k t).dev := by
  induction k generalizing s t with
  | zero => exact h
  | succ k ih => exact ih (by simp [hs]) (State.dev_turn_congr hs h hc) (by simp [hc])

/-- What the environment makes of the device's registers does not depend on queue notify. -/
theorem State.notify_applyMove_congr {s t : State} {n : U32} (m : Move) (h : t.dev = { s.dev with queueNotify := n })
    (hc : s.cfg = t.cfg) : ∃ n', (t.applyMove m).dev = { (s.applyMove m).dev with queueNotify := n' } := by
  cases m with
  | issue p w =>
    have h1 : (s.issue p w).dev = s.dev := by unfold State.issue; split_ifs <;> rfl
    have h2 : (t.issue p w).dev = t.dev := by unfold State.issue; split_ifs <;> rfl
    exact ⟨n, by simpa [State.applyMove, h1, h2] using h⟩
  | rst => exact ⟨n, h⟩
  | devMemW addr bytes => exact ⟨n, h⟩
  | hostMmioW r v =>
    cases r with
    | queueNotify => exact ⟨v, by simp [State.applyMove, h, Device.react]⟩
    | _ => exact ⟨n, by simp [State.applyMove, h, Device.react, Device.setQueue, Device.queue]⟩
  | _ => exact ⟨n, by simp [State.applyMove, h, hc, Device.setQueue, Device.queue]⟩

theorem State.notify_turn_congr {s t : State} {n : U32} (hs : s.script = t.script)
    (h : t.dev = { s.dev with queueNotify := n }) (hc : s.cfg = t.cfg) :
    ∃ n', t.turn.dev = { s.turn.dev with queueNotify := n' } := by
  unfold State.turn
  rw [hs]
  split
  · exact ⟨n, h⟩
  next ms rest _ =>
    have key : ∀ (ms : List Move) (x y : State) (n : U32), y.dev = { x.dev with queueNotify := n } → x.cfg = y.cfg →
        ∃ n', (y.applyMoves ms).dev = { (x.applyMoves ms).dev with queueNotify := n' } := by
      intro ms
      induction ms with
      | nil => exact fun _ _ n h _ => ⟨n, h⟩
      | cons m ms ih =>
        intro x y n h hc
        obtain ⟨n', h'⟩ := State.notify_applyMove_congr m h hc
        exact ih _ _ n' h' (by rw [State.applyMove_cfg, State.applyMove_cfg, hc])
    exact key ms _ _ n h hc

theorem State.environmentAlone_add (k l : Nat) (s : State) :
    State.environmentAlone (k + l) s = State.environmentAlone l (State.environmentAlone k s) := by
  induction k generalizing s with
  | zero => rw [Nat.zero_add]; rfl
  | succ k ih => rw [Nat.succ_add]; exact ih s.turn

theorem State.environmentAlone_script (k : Nat) (s : State) :
    (State.environmentAlone k s).script = s.script.drop k := by
  induction k generalizing s with
  | zero => rfl
  | succ k ih => rw [State.environmentAlone, ih, State.turn_script, List.drop_tail]

theorem State.environmentAlone_quiet (k : Nat) {s : State} (h : s.quiet) : State.environmentAlone k s = s := by
  induction k with
  | zero => rfl
  | succ k ih => rw [State.environmentAlone, State.turn_quiet h, ih]

@[simp] theorem State.environmentAlone_cfg (k : Nat) (s : State) : (State.environmentAlone k s).cfg = s.cfg := by
  induction k generalizing s with
  | zero => rfl
  | succ k ih => exact (ih s.turn).trans (State.turn_cfg s)

theorem State.calm_environmentAlone (k : Nat) {s : State} (h : s.calm) : (State.environmentAlone k s).calm := by
  induction k generalizing s with
  | zero => exact h
  | succ k ih => exact ih (State.calm_turn h)

theorem State.length_environmentAlone (k : Nat) {s : State} (h : s.calm) :
    (State.environmentAlone k s).ports.length = s.ports.length := by
  induction k generalizing s with
  | zero => rfl
  | succ k ih => exact (ih (State.calm_turn h)).trans (State.sameEngine_turn (State.rstNext_calm h)).length

/-- The environment's moves until `t`, where `t` has dropped `k` entries of the script. -/
theorem State.environmentUntil_drop {s t : State} {k : Nat} (h : t.script = s.script.drop k) :
    s.environmentUntil t = State.environmentAlone k s := by
  unfold State.environmentUntil
  rw [h, List.length_drop]
  by_cases hk : k ≤ s.script.length
  · rw [Nat.sub_sub_self hk]
  · have h1 : s.script.length - k = 0 := by omega
    obtain ⟨j, rfl⟩ := Nat.exists_eq_add_of_le (Nat.le_of_not_le hk)
    rw [h1, Nat.sub_zero, State.environmentAlone_add]
    rw [State.environmentAlone_quiet j (s := State.environmentAlone s.script.length s)
      (by rw [State.quiet, State.environmentAlone_script, List.drop_length])]

end Sys2Proof.Machine
end

