-- ==== Sys2Proof/Laws/Ops.lean ====
section
/-! SUPPORT. One specification per shared operation: what it answers and everything it can change, first for any calm
environment (`Ran`), then the exact result in a quiet one. -/

namespace Sys2Proof.Machine

/-! The control of a command. -/

@[simp] theorem Acc.bind_ok {α β : Type} (v : α) (s : State) (f : α → State → Acc β) : (Acc.ok v s).bind f = f v s := rfl
@[simp] theorem Acc.bind_stop {α β : Type} (r : Result) (f : α → State → Acc β) : (Acc.stop r).bind f = .stop r := rfl
@[simp] theorem Acc.result_ok (s : State) : (Acc.ok () s).result = .next s := rfl
@[simp] theorem Acc.result_stop (r : Result) : (Acc.stop r : Acc Unit).result = r := rfl

/-- Where the checks of R119 pass, a command is its own rule. -/
theorem command_admitted {i : Instr} {s : State} (body : State → Acc Unit) (h : s.admits i) :
    command i body s = (body s).result := by
  obtain ⟨-, h1, h2, h3, h4⟩ := h
  have hl : ¬ (needsLock i = true ∧ s.eng.lock ≠ .held s.cur) := fun hc => hc.2 (h3 hc.1)
  simp only [command, checks, h1, h2, h4, hl, Bool.true_eq_false, if_false, Acc.bind_ok]

/-- Every outcome of the checks: one of the four faults, or the command's own rule. -/
theorem command_cases (i : Instr) (body : State → Acc Unit) (s : State) :
    (∃ pf, command i body s = .next (s.raise pf)) ∨
    (contextAllows i s.cur = true ∧ phaseAllows i s.eng.phase = true
      ∧ (needsLock i = true → s.eng.lock = .held s.cur) ∧ slotOk i = true ∧ command i body s = (body s).result) := by
  unfold command checks
  split_ifs with h1 h2 h3 h4
  · exact .inl ⟨.pf5, rfl⟩
  · exact .inl ⟨.pf6, rfl⟩
  · exact .inl ⟨.pf4, rfl⟩
  · exact .inl ⟨.pf7, rfl⟩
  · refine .inr ⟨by simpa using h1, by simpa using h2, fun hn => ?_, by simpa using h4, rfl⟩
    by_contra hc
    exact h3 ⟨hn, hc⟩

/-! Bus accesses in any calm environment. -/

/-- The event is an MMIO write of the engine's. -/
def Event.isMmioW : Event → Bool
  | .mmioW _ _ => true
  | _ => false

/-- From `s` the engine got to `t` by bus accesses that stored only at addresses in `W` and made the accesses `evs` (newest
first); the rest of the difference is the environment's. -/
structure Ran (s t : State) (W : Nat → Prop) (evs : List Event) : Prop where
  cfg : t.cfg = s.cfg
  eng : t.eng = s.eng
  cur : t.cur = s.cur
  choices : t.choices = s.choices
  freeCount : t.freeCount = s.freeCount
  length : t.ports.length = s.ports.length
  ports : ∀ q, (t.port q).hostChanged (s.port q)
  accesses : t.accesses = evs ++ s.accesses
  wf : Memory.wf s.mem → Memory.wf t.mem
  history : s.history <:+ t.history
  start : s.calm
  calm : t.calm
  environment : ∃ k, t.script = s.script.drop k ∧
    (∀ a, ¬ W a → t.mem.read a = (State.environmentAlone k s).mem.read a) ∧
    (∀ q, (t.port q).operandRegs = ((State.environmentAlone k s).port q).operandRegs) ∧
    ((∀ e ∈ evs, e.isMmioW = false) → t.dev = (State.environmentAlone k s).dev)

theorem Ran.refl {s : State} (h : s.calm) : Ran s s (fun _ => False) [] :=
  ⟨rfl, rfl, rfl, rfl, rfl, rfl, fun _ => Port.hostChanged_refl _, rfl, id, List.suffix_refl _, h, h, 0, rfl,
   fun _ _ => rfl,
   fun _ => rfl, fun _ => rfl⟩

theorem Ran.trans {s t u : State} {V W X : Nat → Prop} {es fs : List Event} (h1 : Ran s t V es) (h2 : Ran t u W fs)
    (hX : ∀ a, ¬ X a → ¬ V a ∧ ¬ W a) : Ran s u X (fs ++ es) := by
  obtain ⟨k, hk, hr, hp, hd⟩ := h1.environment
  obtain ⟨l, hl, hq, hp', hd'⟩ := h2.environment
  refine ⟨h2.cfg.trans h1.cfg, h2.eng.trans h1.eng, h2.cur.trans h1.cur, h2.choices.trans h1.choices,
    h2.freeCount.trans h1.freeCount, h2.length.trans h1.length,
    fun q => Port.hostChanged_trans (h2.ports q) (h1.ports q),
    by rw [h2.accesses, h1.accesses, List.append_assoc], fun h => h2.wf (h1.wf h),
    h1.history.trans h2.history, h1.start, h2.calm, k + l, ?_, fun a ha => ?_, fun q => ?_,
    fun he => ?_⟩
  · rw [hl, hk, List.drop_drop]
  · obtain ⟨ha1, ha2⟩ := hX a ha
    rw [hq a ha2, State.environmentAlone_add]
    exact State.read_environmentAlone_congr l (by rw [hk, State.environmentAlone_script]) (hr a ha1)
  · rw [hp' q, State.environmentAlone_add]
    refine (State.samePorts_environmentAlone l h1.calm (by rw [hk, State.environmentAlone_script]) ⟨?_, ?_, hp q⟩).2.2
    · rw [h1.length, State.length_environmentAlone k h1.start]
    · rw [h1.cfg, State.environmentAlone_cfg]
  · rw [hd' fun e h => he e (by simp [h]), State.environmentAlone_add]
    exact State.dev_environmentAlone_congr l (by rw [hk, State.environmentAlone_script])
      (hd fun e h => he e (by simp [h])) (by rw [h1.cfg, State.environmentAlone_cfg])

theorem Ran.mono {s t : State} {W X : Nat → Prop} {es : List Event} (h : Ran s t W es) (hX : ∀ a, ¬ X a → ¬ W a) :
    Ran s t X es := by
  obtain ⟨k, hk, hr, hp⟩ := h.environment
  exact ⟨h.cfg, h.eng, h.cur, h.choices, h.freeCount, h.length, h.ports, h.accesses, h.wf, h.history, h.start, h.calm, k, hk,
    fun a ha => hr a (hX a ha), hp⟩

/-- The running command keeps its operands while the environment moves. -/
theorem Ran.operands {s t : State} {W : Nat → Prop} {es : List Event} (h : Ran s t W es)
    (hb : (s.port s.cur).busy = true) : t.operands = s.operands := by
  unfold State.operands
  rw [h.cur]
  exact ((h.ports s.cur).2.1 hb).2

/-- The running command stays busy while the environment moves. -/
theorem Ran.work {s t : State} {W : Nat → Prop} {es : List Event} (h : Ran s t W es)
    (hb : (s.port s.cur).busy = true) : (t.port t.cur).work = (s.port s.cur).work := by
  rw [h.cur]
  exact ((h.ports s.cur).2.1 hb).1

/-- A quiet environment stays quiet. -/
theorem Ran.quiet {s t : State} {W : Nat → Prop} {es : List Event} (h : Ran s t W es) (hq : s.quiet) : t.quiet := by
  obtain ⟨k, hk, -⟩ := h.environment
  rw [State.quiet, hk, hq, List.drop_nil]

/-- Two states that differ in shared memory, the device and the history alone. -/
theorem Ran.of_turn {s t : State} {W : Nat → Prop} {es : List Event} (h : s.calm)
    (h1 : t.cfg = s.turn.cfg) (h2 : t.eng = s.turn.eng) (h3 : t.cur = s.turn.cur) (h4 : t.choices = s.turn.choices)
    (h5 : t.freeCount = s.turn.freeCount) (h6 : t.ports = s.turn.ports) (h7 : t.accesses = es ++ s.turn.accesses)
    (h8 : Memory.wf s.turn.mem → Memory.wf t.mem) (h9 : t.script = s.turn.script)
    (h10 : ∀ a, ¬ W a → t.mem.read a = s.turn.mem.read a)
    (h11 : (∀ e ∈ es, e.isMmioW = false) → t.dev = s.turn.dev) (h12 : s.turn.history <:+ t.history) : Ran s t W es := by
  have hs := State.sameEngine_turn (State.rstNext_calm h)
  refine ⟨h1.trans hs.cfg, h2.trans hs.eng, h3.trans hs.cur, h4.trans hs.choices, h5.trans hs.freeCount,
    by rw [h6, hs.length], fun q => ?_, by rw [h7, hs.accesses], fun hw => h8 (hs.wf hw),
    hs.history.trans h12, h, ?_, 1, ?_, h10, fun q => ?_, h11⟩
  · have hp : t.port q = s.turn.port q := by simp only [State.port, h6, h1]
    rw [hp]
    exact hs.ports q
  · intro ms hms
    rw [h9] at hms
    exact State.calm_turn h ms hms
  · rw [h9, State.turn_script, List.drop_one]
  · have hp : t.port q = s.turn.port q := by simp only [State.port, h6, h1]
    rw [hp]
    rfl

theorem point_calm {s : State} (h : s.calm) : point s = .ok () s.turn := by
  simp [point, State.rstNext_calm h]

theorem ran_turn {s : State} (h : s.calm) : Ran s s.turn (fun _ => False) [] :=
  Ran.of_turn h rfl rfl rfl rfl rfl rfl rfl id rfl (fun _ _ => rfl) (fun _ => rfl) (List.suffix_refl _)

/-- The environment's point after a run of accesses. -/
theorem Ran.turn {s t : State} {W : Nat → Prop} {es : List Event} (h : Ran s t W es) : Ran s t.turn W es :=
  h.trans (ran_turn h.calm) fun _ ha => ⟨ha, id⟩

theorem finish_calm {s : State} (e : ErrVal) (f : State → State) (h : s.calm) : finish e f s = done e (f s.turn) := by
  rw [finish, point_calm h, Acc.bind_ok]

theorem mmioRead_ran {s : State} (r : ReadReg) (h : s.calm) :
    ∃ t, mmioRead r s = .ok (s.turn.dev.answer r) t ∧ Ran s t (fun _ => False) [.mmioR (s.cfg.readOff r) (s.turn.dev.answer r)] := by
  refine ⟨_, by rw [mmioRead, point_calm h]; rfl, ?_⟩
  exact Ran.of_turn h rfl rfl rfl rfl rfl rfl (by rw [State.turn_cfg]; rfl) id rfl (fun _ _ => rfl) (fun _ => rfl)
    (List.suffix_cons _ _)

theorem mmioWrite_ran {s : State} (r : WriteReg) (v : U32) (h : s.calm) :
    ∃ t, mmioWrite r v s = .ok () t ∧ Ran s t (fun _ => False) [.mmioW (s.cfg.writeOff r) v]
      ∧ t.dev = s.turn.dev.react v r := by
  refine ⟨_, by rw [mmioWrite, point_calm h]; rfl, ?_, rfl⟩
  exact Ran.of_turn h rfl rfl rfl rfl rfl rfl (by rw [State.turn_cfg]; rfl) id rfl (fun _ _ => rfl)
    (fun he => absurd (he _ (List.mem_singleton_self _)) (by simp [Event.isMmioW])) (List.suffix_cons _ _)

theorem memRead_ran {s : State} (a : U64) (n : Nat) (h : s.calm) :
    ∃ t, memRead a n s = .ok (ofLE (s.turn.mem.load a n)) t
      ∧ Ran s t (fun _ => False) [.memR a n (ofLE (s.turn.mem.load a n))] := by
  refine ⟨_, by rw [memRead, point_calm h]; rfl, ?_⟩
  exact Ran.of_turn h rfl rfl rfl rfl rfl rfl rfl id rfl (fun _ _ => rfl) (fun _ => rfl) (List.suffix_cons _ _)

theorem ofLE_load_lt (m : Memory) (a : U64) (n : Nat) : ofLE (m.load a n) < 256 ^ n := by
  simpa using ofLE_lt (m.load a n)

theorem memRead16_ran {s : State} (a : U64) (h : s.calm) :
    ∃ (v : U16) (t : State), memRead16 a s = .ok v t ∧ v = BitVec.ofNat 16 (ofLE (s.turn.mem.load a 2))
      ∧ Ran s t (fun _ => False) [.memR a 2 v.toNat] := by
  obtain ⟨t, h1, h2⟩ := memRead_ran a 2 h
  refine ⟨_, t, by rw [memRead16, h1]; rfl, rfl, ?_⟩
  rwa [BitVec.toNat_ofNat, Nat.mod_eq_of_lt (show _ < 2 ^ 16 from ofLE_load_lt _ a 2)]

theorem memRead32_ran {s : State} (a : U64) (h : s.calm) :
    ∃ (v : U32) (t : State), memRead32 a s = .ok v t ∧ v = BitVec.ofNat 32 (ofLE (s.turn.mem.load a 4))
      ∧ Ran s t (fun _ => False) [.memR a 4 v.toNat] := by
  obtain ⟨t, h1, h2⟩ := memRead_ran a 4 h
  refine ⟨_, t, by rw [memRead32, h1]; rfl, rfl, ?_⟩
  rwa [BitVec.toNat_ofNat, Nat.mod_eq_of_lt (show _ < 2 ^ 32 from ofLE_load_lt _ a 4)]

theorem memWrite_ran {s : State} (a : U64) (n v : Nat) (h : s.calm) :
    ∃ t, memWrite a n v s = .ok () t ∧ Ran s t (inBytes a n) [.memW a n v]
      ∧ t.mem = s.turn.mem.store a (leBytes n v) := by
  refine ⟨_, by rw [memWrite, point_calm h]; rfl, ?_, rfl⟩
  exact Ran.of_turn h rfl rfl rfl rfl rfl rfl rfl (Memory.wf_store a _) rfl (fun x hx =>
    Memory.read_store_outside _ a _ (by simpa using hx)) (fun _ => rfl) (List.suffix_cons _ _)

theorem storeTorn_ran {s : State} (a : U64) (bs : List Byte) (h : s.calm) :
    ∃ t, storeTorn a bs s = .ok () t ∧ Ran s t (inBytes a bs.length) [] ∧ (s.quiet → t.mem = s.mem.store a bs) := by
  induction bs generalizing s a with
  | nil => exact ⟨s, rfl, (Ran.refl h).mono fun _ _ hc => hc, fun _ => rfl⟩
  | cons b bs ih =>
    have h1 : Ran s (s.turn.setMem (s.turn.mem.write a.toNat b)) (fun x => x = a.toNat) [] :=
      Ran.of_turn h rfl rfl rfl rfl rfl rfl rfl (Memory.wf_write b a.isLt) rfl (fun x hx =>
        Memory.read_write_other _ b hx) (fun _ => rfl) (List.suffix_refl _)
    obtain ⟨t, h2, h3, h4⟩ := ih (a + 1) h1.calm
    refine ⟨t, by rw [storeTorn, point_calm h]; exact h2, h1.trans h3 fun x hx => ?_, fun hq => ?_⟩
    · rw [List.length_cons, inBytes_succ, not_or] at hx
      exact ⟨fun hc => hx.1 hc.symm, hx.2⟩
    · rw [h4 (h1.quiet hq), State.setMem_mem, State.turn_quiet hq]
      rfl

theorem memWrite64_ran {s : State} (a v : U64) (h : s.calm) :
    ∃ t, memWrite64 a v s = .ok () t ∧ Ran s t (inBytes a 8) [.memW a 8 v.toNat]
      ∧ (s.quiet → t.mem = s.mem.store a (leBytes 8 v.toNat)) := by
  obtain ⟨t, h1, h2, hq⟩ := storeTorn_ran a (leBytes 8 v.toNat) h
  rw [leBytes_length] at h2
  refine ⟨t.log (.memW a 8 v.toNat), by rw [memWrite64, h1]; rfl, ⟨h2.cfg, h2.eng, h2.cur, h2.choices, h2.freeCount,
    h2.length, h2.ports, ?_, h2.wf, h2.history.trans (List.suffix_cons _ _), h2.start, h2.calm, ?_⟩, hq⟩
  · show Event.memW a 8 v.toNat :: t.accesses = _
    rw [h2.accesses]
    rfl
  · obtain ⟨k, h3, h4, h5, h6⟩ := h2.environment
    exact ⟨k, h3, h4, h5, fun _ => h6 (by simp)⟩

theorem leBytes_one (b : Byte) : leBytes 1 b.toNat = [b] := by
  simp [leBytes]

theorem memWriteBytes_ran {s : State} (a : U64) (bs : List Byte) (h : s.calm) :
    ∃ t, memWriteBytes a bs s = .ok () t ∧ Ran s t (inBytes a bs.length) (byteWrites a bs)
      ∧ (s.quiet → t.mem = s.mem.store a bs) := by
  induction bs generalizing s a with
  | nil => exact ⟨s, rfl, (Ran.refl h).mono fun _ _ hc => hc, fun _ => rfl⟩
  | cons b bs ih =>
    obtain ⟨t, h1, h2, h2'⟩ := memWrite_ran a 1 b.toNat h
    obtain ⟨u, h3, h4, h5⟩ := ih (a + 1) h2.calm
    refine ⟨u, by rw [memWriteBytes, h1]; exact h3, h2.trans h4 fun x hx => ?_, fun hq => ?_⟩
    · rw [List.length_cons, inBytes_succ, not_or] at hx
      refine ⟨?_, hx.2⟩
      rw [inBytes_succ, not_or]
      exact ⟨hx.1, inBytes_zero _ _⟩
    · rw [h5 (h2.quiet hq), h2', State.turn_quiet hq, leBytes_one]
      rfl

theorem memFill_ran {s : State} (a : U64) (n : Nat) (h : s.calm) :
    ∃ t, memFill a n s = .ok () t ∧ Ran s t (inBytes a n) (byteWrites a (List.replicate n 0))
      ∧ (s.quiet → t.mem = s.mem.store a (List.replicate n 0)) := by
  obtain ⟨t, h1, h2, h3⟩ := memWriteBytes_ran a (List.replicate n 0) h
  exact ⟨t, h1, by rwa [List.length_replicate] at h2, h3⟩

theorem setStatus_ran {s : State} (bit : U32) (h : s.calm) :
    ∃ (v : U32) (t : State), setStatus bit s = .ok () t
      ∧ Ran s t (fun _ => False) [.mmioW (s.cfg.writeOff .status) (v ||| bit), .mmioR (s.cfg.readOff .status) v] := by
  obtain ⟨t, h1, h2⟩ := mmioRead_ran .status h
  obtain ⟨u, h3, h4, -⟩ := mmioWrite_ran .status (s.turn.dev.answer .status ||| bit) h2.calm
  refine ⟨s.turn.dev.answer .status, u, by rw [setStatus, h1]; exact h3, ?_⟩
  have := h2.trans h4 (X := fun _ => False) fun a ha => ⟨ha, ha⟩
  rwa [h2.cfg] at this

/-! The exact result in a quiet environment. -/

theorem point_quiet {s : State} (h : s.quiet) : point s = .ok () s := by
  rw [point_calm (State.calm_of_quiet h), State.turn_quiet h]

theorem finish_quiet {s : State} (e : ErrVal) (f : State → State) (h : s.quiet) : finish e f s = done e (f s) := by
  rw [finish, point_quiet h, Acc.bind_ok]

theorem mmioRead_quiet {s : State} (r : ReadReg) (h : s.quiet) :
    mmioRead r s = .ok (s.dev.answer r) (s.log (.mmioR (s.cfg.readOff r) (s.dev.answer r))) := by
  rw [mmioRead, point_quiet h]; rfl

theorem mmioWrite_quiet {s : State} (r : WriteReg) (v : U32) (h : s.quiet) :
    mmioWrite r v s = .ok () ((s.setDev (s.dev.react v r)).log (.mmioW (s.cfg.writeOff r) v)) := by
  rw [mmioWrite, point_quiet h]; rfl

theorem memRead_quiet {s : State} (a : U64) (n : Nat) (h : s.quiet) :
    memRead a n s = .ok (ofLE (s.mem.load a n)) (s.log (.memR a n (ofLE (s.mem.load a n)))) := by
  rw [memRead, point_quiet h]; rfl

theorem memRead16_quiet {s : State} (a : U64) (h : s.quiet) :
    memRead16 a s = .ok (BitVec.ofNat 16 (ofLE (s.mem.load a 2))) (s.log (.memR a 2 (ofLE (s.mem.load a 2)))) := by
  rw [memRead16, memRead_quiet a 2 h]; rfl

theorem memRead32_quiet {s : State} (a : U64) (h : s.quiet) :
    memRead32 a s = .ok (BitVec.ofNat 32 (ofLE (s.mem.load a 4))) (s.log (.memR a 4 (ofLE (s.mem.load a 4)))) := by
  rw [memRead32, memRead_quiet a 4 h]; rfl

theorem memWrite_quiet {s : State} (a : U64) (n v : Nat) (h : s.quiet) :
    memWrite a n v s = .ok () ((s.setMem (s.mem.store a (leBytes n v))).log (.memW a n v)) := by
  rw [memWrite, point_quiet h]; rfl

theorem storeTorn_quiet {s : State} (a : U64) (bs : List Byte) (h : s.quiet) :
    storeTorn a bs s = .ok () (s.setMem (s.mem.store a bs)) := by
  induction bs generalizing s a with
  | nil => rfl
  | cons b bs ih =>
    rw [storeTorn, point_quiet h]
    exact ih (s := s.setMem (s.mem.write a.toNat b)) (a + 1) h

theorem memWrite64_quiet {s : State} (a v : U64) (h : s.quiet) :
    memWrite64 a v s = .ok () ((s.setMem (s.mem.store a (leBytes 8 v.toNat))).log (.memW a 8 v.toNat)) := by
  rw [memWrite64, storeTorn_quiet a _ h]; rfl

theorem memWriteBytes_quiet {s : State} (a : U64) (bs : List Byte) (h : s.quiet) :
    memWriteBytes a bs s
      = .ok () { s with mem := s.mem.store a bs, history := byteWrites a bs ++ s.history } := by
  induction bs generalizing s a with
  | nil => rfl
  | cons b bs ih =>
    rw [memWriteBytes, memWrite_quiet a 1 b.toNat h, leBytes_one]
    refine (ih (s := (s.setMem (s.mem.store a [b])).log (.memW a 1 b.toNat)) (a + 1) h).trans ?_
    simp only [byteWrites, List.append_assoc, List.singleton_append]
    rfl

/-! Release and hold. -/

@[simp] theorem State.release_nil (s : State) : s.release [] = s := rfl

theorem State.release_fields (s : State) (ps : List Nat) :
    (s.release ps).cfg = s.cfg ∧ (s.release ps).eng = s.eng ∧ (s.release ps).cur = s.cur ∧ (s.release ps).mem = s.mem
      ∧ (s.release ps).dev = s.dev ∧ (s.release ps).script = s.script ∧ (s.release ps).choices = s.choices
      ∧ (s.release ps).freeCount = s.freeCount ∧ (s.release ps).ports.length = s.ports.length
      ∧ (s.release ps).accesses = s.accesses := by
  induction ps generalizing s with
  | nil => simp
  | cons p ps ih =>
    have h := ih (s.complete p .ok)
    have hl : (s.complete p .ok).ports.length = s.ports.length := by simp
    have ha : (s.complete p .ok).accesses = s.accesses := by simp [State.accesses, Event.isAccess]
    rw [hl, ha] at h
    exact h

theorem State.history_release (s : State) (ps : List Nat) : s.history <:+ (s.release ps).history := by
  induction ps generalizing s with
  | nil => exact List.suffix_refl _
  | cons p ps ih => exact (List.suffix_cons _ _).trans (ih (s.complete p .ok))

/-- A released port: its command is complete with `OK`; every other port is as it was. -/
theorem State.port_release (s : State) (ps : List Nat) (q : Nat) :
    (s.release ps).port q
      = if q ∈ ps ∧ q < s.ports.length then (s.port q).completed .ok else s.port q := by
  induction ps generalizing s with
  | nil => simp
  | cons p ps ih =>
    have hl : (s.complete p .ok).ports.length = s.ports.length := by simp
    show ((s.complete p .ok).release ps).port q = _
    rw [ih, hl, State.port_complete]
    by_cases hq : q < s.ports.length
    · by_cases hp : p = q
      · subst hp; simp [hq, Port.completed]
      · simp [hq, hp, Ne.symm hp]
    · have hn : ¬ (p = q ∧ p < s.ports.length) := fun hc => hq (hc.1 ▸ hc.2)
      rw [if_neg hn]
      simp [hq]

theorem State.mem_portsAt {s : State} {w : Work} {p : Nat} :
    p ∈ s.portsAt w ↔ p < s.ports.length ∧ (s.port p).work = w := by
  simp [State.portsAt]

/-- The signal of a slot: the completion bit, and every port that held in WAIT on it is complete. -/
theorem State.port_signalSlot (s : State) (i q : Nat) :
    (s.signalSlot i).port q
      = if q < s.ports.length ∧ (s.port q).work = .holdWait i then (s.port q).completed .ok
        else s.port q := by
  unfold State.signalSlot
  rw [State.port_release]
  simp only [State.mem_portsAt, State.log_ports, State.setEng_ports, State.port_log, State.port_setEng]
  by_cases h : q < s.ports.length ∧ (s.port q).work = .holdWait i
  · simp [h]
  · rw [if_neg h, if_neg fun hc => h hc.1]

theorem State.signalSlot_fields (s : State) (i : Nat) :
    (s.signalSlot i).cfg = s.cfg ∧ (s.signalSlot i).eng = { s.eng with completion := setSignaled s.eng.completion i }
      ∧ (s.signalSlot i).cur = s.cur ∧ (s.signalSlot i).mem = s.mem
      ∧ (s.signalSlot i).dev = s.dev ∧ (s.signalSlot i).script = s.script ∧ (s.signalSlot i).choices = s.choices
      ∧ (s.signalSlot i).freeCount = s.freeCount ∧ (s.signalSlot i).ports.length = s.ports.length
      ∧ (s.signalSlot i).accesses = .signal i :: s.accesses :=
  State.release_fields _ _

theorem State.history_signalSlot (s : State) (i : Nat) : s.history <:+ (s.signalSlot i).history := by
  unfold State.signalSlot
  refine List.IsSuffix.trans ?_ (State.history_release _ _)
  exact List.suffix_cons (.signal i) s.history

/-! The completion bits. -/

theorem getLsbD_setSignaled (c : BitVec 128) (i j : Nat) :
    (setSignaled c i).getLsbD j = (c.getLsbD j || (decide (i = j) && decide (j < 128))) := by
  simp only [setSignaled, BitVec.getLsbD_or, BitVec.getLsbD_twoPow]
  by_cases h : j < 128
  · by_cases hij : i = j
    · subst hij; simp [h]
    · simp [hij]
  · have : c.getLsbD j = false := BitVec.getLsbD_of_ge c j (by omega)
    simp [h, this]
    intro h1 h2
    omega

theorem getLsbD_setPending (c : BitVec 128) (i j : Nat) :
    (setPending c i).getLsbD j = (c.getLsbD j && !decide (i = j)) := by
  simp only [setPending, BitVec.getLsbD_and, BitVec.getLsbD_not, BitVec.getLsbD_twoPow]
  by_cases h : j < 128
  · by_cases hij : i = j
    · subst hij; simp [h]
    · simp [h, hij]
  · have : c.getLsbD j = false := BitVec.getLsbD_of_ge c j (by omega)
    simp [this]

/-! The arbiter. -/

/-- The arbiter names one of the candidates and changes nothing but its own choices. -/
theorem choose_spec {cands : List Nat} {s t : State} {p : Nat} (h : choose cands s = some (p, t)) :
    p ∈ cands ∧ ∃ cs n, t = { s with choices := cs, freeCount := n } := by
  unfold choose at h
  split at h
  · exact absurd h (by simp)
  · simp only [Option.some.injEq, Prod.mk.injEq] at h
    obtain ⟨rfl, rfl⟩ := h
    exact ⟨by simp, s.choices, s.freeCount, rfl⟩
  next c cs _ =>
    have hfree : ∀ u, choose.freeChoice c cs s = (p, u) → p ∈ c :: cs ∧ ∃ ds n, u = { s with choices := ds, freeCount := n } := by
      intro u hu
      simp only [choose.freeChoice, Prod.mk.injEq] at hu
      obtain ⟨rfl, rfl⟩ := hu
      have hlt : freePick s.freeCount % (cs.length + 1) < (c :: cs).length := by
        rw [List.length_cons]; exact Nat.mod_lt _ (Nat.succ_pos _)
      refine ⟨?_, _, _, rfl⟩
      rw [List.getElem?_eq_getElem hlt]
      exact List.getElem_mem hlt
    split at h
    next d ds _ =>
      split_ifs at h with hc
      · simp only [Option.some.injEq, Prod.mk.injEq] at h
        obtain ⟨rfl, rfl⟩ := h
        exact ⟨by simpa using hc, ds, s.freeCount, rfl⟩
      · exact hfree t (by simpa using h)
    · exact hfree t (by simpa using h)

/-- With no candidate nothing is chosen, with some candidate one is. -/
theorem choose_none_iff (cands : List Nat) (s : State) : choose cands s = none ↔ cands = [] := by
  unfold choose
  split
  · simp
  · simp
  · split
    · split_ifs <;> simp
    · simp

/-- One candidate is no choice. -/
theorem choose_singleton (p : Nat) (s : State) : choose [p] s = some (p, s) := rfl

/-- The command taken up is one of the outstanding ones. -/
theorem takeUp_spec {s t : State} {p : Nat} (h : takeUp s = some (p, t)) :
    p < s.ports.length ∧ (s.port p).work = .outstanding ∧ ∃ cs n, t = { s with choices := cs, freeCount := n, cur := p } := by
  unfold takeUp at h
  cases hc : choose (s.portsAt .outstanding) s with
  | none => rw [hc] at h; simp at h
  | some x =>
    obtain ⟨q, u⟩ := x
    rw [hc] at h
    simp only [Option.map_some, Option.some.injEq, Prod.mk.injEq] at h
    obtain ⟨rfl, rfl⟩ := h
    obtain ⟨hm, cs, n, rfl⟩ := choose_spec hc
    rw [State.mem_portsAt] at hm
    exact ⟨hm.1, hm.2, cs, n, rfl⟩

end Sys2Proof.Machine
end

