-- ==== Sys2Proof/Laws/Drain.lean ====
section
/-! SUPPORT. Taking a used-ring entry, and the loop of IRQH: what it can change and that it ends within its bound
(spec/43_protocol_ops.md R200, "The loop ends"). -/

namespace Sys2Proof.Machine

/-- The cursor after one more entry (spec/00_scope.md R13). -/
def Engine.advanced (e : Engine) : Engine := { e with lastConsumedUsed := e.lastConsumedUsed + 1 }

/-- TAKE's and IRQH's reads: the id and the length of the entry at the cursor, then the cursor advances. -/
theorem takeEntry_ran {s : State} (h : s.calm) :
    ∃ (id len : U32) (t : State), takeEntry s = .ok (id, len) (t.setEng Engine.advanced)
      ∧ Ran s t (fun _ => False)
          [.memR (s.eng.usedLenAddr (modQ s.eng.lastConsumedUsed)) 4 len.toNat,
           .memR (s.eng.usedIdAddr (modQ s.eng.lastConsumedUsed)) 4 id.toNat] := by
  obtain ⟨id, t, h1, -, h2⟩ := memRead32_ran (s.eng.usedIdAddr (modQ s.eng.lastConsumedUsed)) h
  obtain ⟨len, u, h3, -, h4⟩ := memRead32_ran (t.eng.usedLenAddr (modQ t.eng.lastConsumedUsed)) h2.calm
  refine ⟨id, len, u.turn, by rw [takeEntry, h1, Acc.bind_ok, h3, Acc.bind_ok, point_calm h4.calm]; rfl, ?_⟩
  have := (h2.trans h4 (X := fun _ => False) fun a ha => ⟨ha, ha⟩).turn
  rwa [h2.eng] at this

theorem takeEntry_quiet {s : State} (h : s.quiet) :
    takeEntry s
      = .ok (BitVec.ofNat 32 (ofLE (s.mem.load (s.eng.usedIdAddr (modQ s.eng.lastConsumedUsed)) 4)),
             BitVec.ofNat 32 (ofLE (s.mem.load (s.eng.usedLenAddr (modQ s.eng.lastConsumedUsed)) 4)))
          (((s.log (.memR (s.eng.usedIdAddr (modQ s.eng.lastConsumedUsed)) 4
              (ofLE (s.mem.load (s.eng.usedIdAddr (modQ s.eng.lastConsumedUsed)) 4)))).log
            (.memR (s.eng.usedLenAddr (modQ s.eng.lastConsumedUsed)) 4
              (ofLE (s.mem.load (s.eng.usedLenAddr (modQ s.eng.lastConsumedUsed)) 4)))).setEng Engine.advanced) := by
  rw [takeEntry, memRead32_quiet _ h, Acc.bind_ok, memRead32_quiet (s := s.log _) _ h, Acc.bind_ok,
    point_quiet (s := (s.log _).log _) h]
  rfl

/-- One iteration of the loop of IRQH after an entry was found pending. -/
theorem drain_succ (fuel : Nat) (n : U32) (s : State) :
    drain (fuel + 1) n s =
      (memRead16 s.eng.usedIndexAddr s).bind fun u s =>
        if pending u s.eng.lastConsumedUsed then
          (takeEntry s).bind fun e s =>
            if e.1.toNat < qsize then drain fuel (n + 1) ((s.landed e.1).signalSlot e.1.toNat) else raise .pf7 s
        else .ok n s := rfl

theorem memRead16_script (a : U64) (s : State) :
    (∃ r, memRead16 a s = .stop r) ∨ ∃ v t, memRead16 a s = .ok v t ∧ t.script = s.script.tail ∧ t.eng = s.eng
      ∧ t.mem = s.turn.mem ∧ v = BitVec.ofNat 16 (ofLE (s.turn.mem.load a 2)) := by
  unfold memRead16 memRead point
  split_ifs with h
  · exact .inl ⟨_, rfl⟩
  · have h0 : s.rstNext = false := by simpa using h
    exact .inr ⟨_, _, rfl, State.turn_script s, (State.sameEngine_turn h0).eng, rfl, rfl⟩

theorem memRead32_script (a : U64) (s : State) :
    (∃ r, memRead32 a s = .stop r) ∨ ∃ v t, memRead32 a s = .ok v t ∧ t.script = s.script.tail ∧ t.eng = s.eng
      ∧ t.mem = s.turn.mem := by
  unfold memRead32 memRead point
  split_ifs with h
  · exact .inl ⟨_, rfl⟩
  · have h0 : s.rstNext = false := by simpa using h
    exact .inr ⟨_, _, rfl, State.turn_script s, (State.sameEngine_turn h0).eng, rfl⟩

theorem takeEntry_script (s : State) :
    (∃ r, takeEntry s = .stop r) ∨ ∃ e t, takeEntry s = .ok e t ∧ t.script = s.script.tail.tail.tail
      ∧ t.eng = s.eng.advanced ∧ (s.quiet → t.mem = s.mem) := by
  unfold takeEntry
  rcases memRead32_script (s.eng.usedIdAddr (modQ s.eng.lastConsumedUsed)) s with ⟨r, h⟩ | ⟨v, t, h, h1, h2, h3⟩
  · exact .inl ⟨r, by rw [h]; rfl⟩
  · rw [h, Acc.bind_ok]
    rcases memRead32_script (t.eng.usedLenAddr (modQ t.eng.lastConsumedUsed)) t with ⟨r, g⟩ | ⟨w, u, g, g1, g2, g3⟩
    · exact .inl ⟨r, by rw [g]; rfl⟩
    · rw [g, Acc.bind_ok]
      unfold point
      split_ifs with hr
      · exact .inl ⟨_, rfl⟩
      · have h0 : u.rstNext = false := by simpa using hr
        refine .inr ⟨_, _, rfl, ?_, ?_, fun hq => ?_⟩
        · show u.turn.script = _
          rw [State.turn_script, g1, h1]
        · show u.turn.eng.advanced = _
          rw [(State.sameEngine_turn h0).eng, g2, h2]
        · show u.turn.mem = _
          have ht : t.quiet := by rw [State.quiet, h1, hq]; rfl
          have hu : u.quiet := by rw [State.quiet, g1, ht]; rfl
          rw [State.turn_quiet hu, g3, State.turn_quiet ht, h3, State.turn_quiet hq]

/-- How many more index reads the loop can make: while moves are to come, one for each and 65536 after the last; then the
distance of the cursor from `used.index`, and one. -/
def State.drainNeed (s : State) : Nat :=
  if s.script = [] then (s.usedIndexNow - s.eng.lastConsumedUsed).toNat + 1 else s.script.length + 65536

theorem usedIndex_distance {u c : U16} (h : u ≠ c) : (u - (c + 1)).toNat + 1 = (u - c).toNat := by
  have h' : u.toNat ≠ c.toNat := fun hc => h (BitVec.eq_of_toNat_eq hc)
  have hu := u.isLt
  have hc := c.isLt
  have h1 : (1 : U16).toNat = 1 := rfl
  simp only [BitVec.toNat_sub, BitVec.toNat_add, h1]
  omega

/-- An iteration that goes on lowers the need. -/
theorem drainNeed_decreases {s t w : State} {u : U16} {e : U32 × U32} (h1 : t.script = s.script.tail) (h2 : t.eng = s.eng)
    (h3 : t.mem = s.turn.mem) (h4 : u = BitVec.ofNat 16 (ofLE (s.turn.mem.load s.eng.usedIndexAddr 2)))
    (hp : pending u t.eng.lastConsumedUsed = true) (k1 : w.script = t.script.tail.tail.tail) (k2 : w.eng = t.eng.advanced)
    (k3 : t.quiet → w.mem = t.mem) : ((w.landed e.1).signalSlot e.1.toNat).drainNeed + 1 ≤ s.drainNeed := by
  have hx := State.signalSlot_fields (w.landed e.1) e.1.toNat
  set x := (w.landed e.1).signalSlot e.1.toNat with hxdef
  have xs : x.script = s.script.tail.tail.tail.tail := by rw [hx.2.2.2.2.2.1, State.landed_script, k1, h1]
  by_cases hs : s.script = []
  · have ht : t.quiet := by rw [State.quiet, h1, hs]; rfl
    have xq : x.script = [] := by rw [xs, hs]; rfl
    have xm : x.mem = s.mem := by
      rw [hx.2.2.2.1, State.landed_mem, k3 ht, h3, State.turn_quiet hs]
    have xl : x.eng.lastConsumedUsed = s.eng.lastConsumedUsed + 1 := by
      rw [hx.2.1, State.landed_eng, k2, h2]; rfl
    have xb : x.eng.usedIndexAddr = s.eng.usedIndexAddr := by
      rw [hx.2.1, State.landed_eng, k2, h2]; rfl
    have hu : x.usedIndexNow = s.usedIndexNow := by
      unfold State.usedIndexNow
      rw [xm, xb]
    have hne : s.usedIndexNow ≠ s.eng.lastConsumedUsed := by
      rw [pending, h2, h4, State.turn_quiet hs, bne_iff_ne] at hp
      exact hp
    unfold State.drainNeed
    rw [if_pos hs, if_pos xq, hu, xl]
    have := usedIndex_distance hne
    omega
  · have hl : s.script.length ≠ 0 := by simpa using hs
    unfold State.drainNeed
    rw [if_neg hs]
    split_ifs
    · have := (x.usedIndexNow - x.eng.lastConsumedUsed).isLt
      omega
    · rw [xs]
      simp only [List.length_tail]
      omega

/-- Any fuel that covers the need gives the same outcome: the loop ends within its bound. -/
theorem drain_enough (f g : Nat) (n : U32) (s : State) (hf : s.drainNeed ≤ f) (hg : s.drainNeed ≤ g) :
    drain f n s = drain g n s := by
  induction f generalizing g n s with
  | zero =>
    unfold State.drainNeed at hf
    split_ifs at hf <;> omega
  | succ f ih =>
    cases g with
    | zero =>
      unfold State.drainNeed at hg
      split_ifs at hg <;> omega
    | succ g =>
      rw [drain_succ, drain_succ]
      rcases memRead16_script s.eng.usedIndexAddr s with ⟨r, h⟩ | ⟨u, t, h, h1, h2, h3, h4⟩
      · rw [h]; rfl
      · rw [h, Acc.bind_ok, Acc.bind_ok]
        by_cases hp : pending u t.eng.lastConsumedUsed = true
        · rw [if_pos hp, if_pos hp]
          rcases takeEntry_script t with ⟨r, k⟩ | ⟨e, w, k, k1, k2, k3⟩
          · rw [k]; rfl
          · rw [k, Acc.bind_ok, Acc.bind_ok]
            by_cases he : e.1.toNat < qsize
            · rw [if_pos he, if_pos he]
              have need := drainNeed_decreases (e := e) h1 h2 h3 h4 hp k1 k2 k3
              exact ih g (n + 1) _ (by omega) (by omega)
            · rw [if_neg he, if_neg he]
        · rw [if_neg hp, if_neg hp]

/-- The fuel IRQH is given covers the need. -/
theorem drainNeed_le_fuel (s : State) : s.drainNeed ≤ s.drainFuel := by
  unfold State.drainNeed State.drainFuel
  split_ifs
  · have := (s.usedIndexNow - s.eng.lastConsumedUsed).isLt
    omega
  · exact le_refl _

end Sys2Proof.Machine
end

