-- ==== Sys2Proof/Laws/Commands.lean ====
section
/-! SUPPORT. What a command answers in any calm environment: the accesses it makes (`Ran`), then the final update of
registers, one lemma per meaning. -/

namespace Sys2Proof.Machine

/-! From `Ran` to the frame of a command. -/

theorem Ran.kept {s u t : State} {W : Nat → Prop} {es : List Event} (h : Ran s u W es) (h1 : t.cfg = u.cfg)
    (h2 : t.cur = u.cur) (h3 : t.ports.length = u.ports.length)
    (h4 : ∀ q, (t.port q).operandRegs = (u.port q).operandRegs) (h5 : t.mem = u.mem) (h6 : t.script = u.script) :
    s.kept t W := by
  obtain ⟨k, hk, hm, hp, -⟩ := h.environment
  have hu : s.environmentUntil t = State.environmentAlone k s := State.environmentUntil_drop (h6.trans hk)
  refine ⟨h1.trans h.cfg, h2.trans h.cur, h3.trans h.length, fun q => ?_, fun a ha => ?_⟩
  · rw [h4 q, hp q, hu]
  · rw [h5, hm a ha, hu]

theorem Ran.deviceKept {s u t : State} {W : Nat → Prop} {es : List Event} (h : Ran s u W es)
    (he : ∀ e ∈ es, e.isMmioW = false) (h1 : t.dev = u.dev) (h2 : t.script = u.script) : s.deviceKept t := by
  obtain ⟨k, hk, -, -, hd⟩ := h.environment
  rw [State.deviceKept, State.environmentUntil_drop (h2.trans hk), h1, hd he]

theorem Ran.othersKept {s u t : State} {W : Nat → Prop} {es : List Event} (h : Ran s u W es)
    (h1 : ∀ q, q ≠ s.cur → t.port q = u.port q) : s.othersKept t := by
  intro q hq
  rw [h1 q hq]
  exact h.ports q

/-- The frame of a command whose last act touches the engine's registers and its own port alone. -/
theorem Ran.frame {s u t : State} {W : Nat → Prop} {es : List Event} (h : Ran s u W es) (h1 : t.cfg = u.cfg)
    (h2 : t.cur = u.cur) (h3 : t.ports.length = u.ports.length)
    (h4 : ∀ q, (t.port q).operandRegs = (u.port q).operandRegs) (h5 : t.mem = u.mem) (h6 : t.script = u.script)
    (h7 : t.choices = u.choices) (h8 : t.freeCount = u.freeCount) (h9 : ∀ q, q ≠ u.cur → t.port q = u.port q) :
    s.frame t W :=
  ⟨h.kept h1 h2 h3 h4 h5 h6, ⟨h7.trans h.choices, h8.trans h.freeCount⟩,
   h.othersKept fun q hq => h9 q (by rwa [h.cur])⟩

/-- Engine registers play no part in what the environment makes of a state. -/
theorem State.frame_setEng {s t : State} {f : Engine → Engine} {W : Nat → Prop} (hc : s.calm) (h : (s.setEng f).frame t W) :
    s.frame t W := by
  obtain ⟨⟨h1, h2, h3, h4, h5⟩, h6, h7⟩ := h
  refine ⟨⟨h1, h2, h3, fun q => ?_, fun a ha => ?_⟩, h6, h7⟩
  · rw [h4 q]
    exact (State.samePorts_environmentAlone (s := s.setEng f) (t := s) _ hc rfl ⟨rfl, rfl, rfl⟩).2.2
  · rw [h5 a ha]
    exact State.read_environmentAlone_congr (s := s.setEng f) (t := s) _ rfl rfl

theorem State.deviceKept_setEng {s t : State} {f : Engine → Engine} (h : (s.setEng f).deviceKept t) : s.deviceKept t := by
  rw [State.deviceKept, h]
  exact State.dev_environmentAlone_congr (s := s.setEng f) (t := s) _ rfl rfl rfl

/-- The running port is a port of every later state of its run. -/
theorem Ran.running {s u : State} {W : Nat → Prop} {es : List Event} (h : Ran s u W es) (hr : s.running) : u.running := by
  have hb : (s.port s.cur).busy = true := by simp [Port.busy, hr.2]
  exact ⟨by rw [h.cur, h.length]; exact hr.1, by rw [h.work hb, hr.2]⟩

theorem State.busy_of_running {s : State} (h : s.running) : (s.port s.cur).busy = true := by simp [Port.busy, h.2]

theorem Ran.sample {s u : State} {W : Nat → Prop} {es : List Event} (h : Ran s u W es) (hr : s.running) :
    u.operands = s.operands := h.operands (State.busy_of_running hr)

theorem Ran.r0 {s u : State} {W : Nat → Prop} {es : List Event} (h : Ran s u W es) :
    (u.port u.cur).r0 = (s.port s.cur).r0 := by rw [h.cur]; exact (h.ports s.cur).1.1

theorem Ran.r1 {s u : State} {W : Nat → Prop} {es : List Event} (h : Ran s u W es) :
    (u.port u.cur).r1 = (s.port s.cur).r1 := by rw [h.cur]; exact (h.ports s.cur).1.2.1

/-! One command after another: composing two runs that store nothing, or anywhere in one set. -/

theorem Ran.trans' {s t u : State} {W : Nat → Prop} {es fs : List Event} (h1 : Ran s t W es) (h2 : Ran t u W fs) :
    Ran s u W (fs ++ es) := h1.trans h2 fun _ ha => ⟨ha, ha⟩

/-- A store to one part of `W`. -/
theorem Ran.into {s t : State} {V W : Nat → Prop} {es : List Event} (h : Ran s t V es) (hV : ∀ a, V a → W a) :
    Ran s t W es := h.mono fun _ ha hc => ha (hV _ hc)

/-! Control-Register Interface. -/

theorem negotiateBody_spec {s : State} (h : s.calm) (hr : s.running) :
    ∃ (u : State) (s1 s2 hf s3 s4 : U32),
      Ran s u (fun _ => False)
        [.mmioR (s.cfg.readOff .status) s4, .mmioW (s.cfg.writeOff .status) (s3 ||| s.cfg.stFeaturesOk),
         .mmioR (s.cfg.readOff .status) s3, .mmioW (s.cfg.writeOff .guestFeatures) (hf &&& low32 s.operands.a0),
         .mmioR (s.cfg.readOff .hostFeatures) hf, .mmioW (s.cfg.writeOff .status) (s2 ||| s.cfg.stDriver),
         .mmioR (s.cfg.readOff .status) s2, .mmioW (s.cfg.writeOff .status) (s1 ||| s.cfg.stAcknowledge),
         .mmioR (s.cfg.readOff .status) s1, .mmioW (s.cfg.writeOff .status) 0]
      ∧ negotiateBody s =
          if s4 &&& s.cfg.stFeaturesOk = 0 then done .featureFail (u.setEng fun e => { e with phase := .failed })
          else done .ok ((u.setEng fun e => { e with features := hf &&& low32 s.operands.a0, phase := .featuresOk }).setR0
            (zext64 (hf &&& low32 s.operands.a0))) := by
  obtain ⟨a, ha, r1, -⟩ := mmioWrite_ran .status 0 h
  obtain ⟨s1, b, hb, r2⟩ := setStatus_ran a.cfg.stAcknowledge r1.calm
  have r12 := r1.trans' r2
  obtain ⟨s2, c, hc, r3⟩ := setStatus_ran b.cfg.stDriver r2.calm
  have r13 := r12.trans' r3
  obtain ⟨d, hd, r4⟩ := mmioRead_ran .hostFeatures r3.calm
  have r14 := r13.trans' r4
  obtain ⟨e, he, r5, -⟩ := mmioWrite_ran .guestFeatures (c.turn.dev.answer .hostFeatures &&& low32 s.operands.a0) r4.calm
  have r15 := r14.trans' r5
  obtain ⟨s3, f, hf, r6⟩ := setStatus_ran e.cfg.stFeaturesOk r5.calm
  have r16 := r15.trans' r6
  obtain ⟨g, hg, r7⟩ := mmioRead_ran .status r6.calm
  have r17 := r16.trans' r7
  refine ⟨g.turn, s1, s2, c.turn.dev.answer .hostFeatures, s3, f.turn.dev.answer .status, ?_, ?_⟩
  · simpa only [r1.cfg, r12.cfg, r13.cfg, r14.cfg, r15.cfg, r16.cfg, List.cons_append, List.nil_append] using r17.turn
  · have ho : d.operands = s.operands := r14.sample hr
    rw [negotiateBody, ha, Acc.bind_ok, hb, Acc.bind_ok, hc, Acc.bind_ok, hd, Acc.bind_ok]
    simp only [ho]
    rw [he, Acc.bind_ok, hf, Acc.bind_ok, hg, Acc.bind_ok, r17.cfg, finish_calm _ _ r17.calm, finish_calm _ _ r17.calm]

theorem cfgringBody_spec (index : U16) {s : State} (h : s.calm) :
    ∃ max : U32,
      (max < low32 s.operands.a0 ∧ ∃ u : State,
        Ran s u (fun _ => False)
          [.mmioR (s.cfg.readOff .queueNumMax) max, .mmioW (s.cfg.writeOff .queueSel) (zext32 index)]
        ∧ cfgringBody index s = done .ringSizeTooSmall (u.setEng fun e => { e with phase := .failed }))
      ∨ (¬ max < low32 s.operands.a0 ∧ ∃ u : State,
        Ran s u (fun _ => False)
          [.mmioW (s.cfg.writeOff .queuePfn) (low32 s.operands.a2), .mmioW (s.cfg.writeOff .guestPageSize) (low32 s.operands.a1),
           .mmioW (s.cfg.writeOff .queueNum) (low32 s.operands.a0), .mmioR (s.cfg.readOff .queueNumMax) max,
           .mmioW (s.cfg.writeOff .queueSel) (zext32 index)]
        ∧ cfgringBody index s = done .ok (u.setEng fun e =>
            { e with cfgSize := low32 s.operands.a0, cfgPage := low32 s.operands.a1, cfgPfn := low32 s.operands.a2,
                     phase := .ringConfigured })) := by
  obtain ⟨a, ha, r1, -⟩ := mmioWrite_ran .queueSel (zext32 index) h
  obtain ⟨b, hb, r2⟩ := mmioRead_ran .queueNumMax r1.calm
  have r12 := r1.trans' r2
  refine ⟨a.turn.dev.answer .queueNumMax, ?_⟩
  simp only [cfgringBody, ha, Acc.bind_ok, hb]
  by_cases hm : a.turn.dev.answer .queueNumMax < low32 s.operands.a0
  · refine .inl ⟨hm, b.turn, ?_, by rw [if_pos hm, finish_calm _ _ r12.calm]⟩
    simpa only [r1.cfg, List.cons_append, List.nil_append] using r12.turn
  · obtain ⟨c, hc, r3, -⟩ := mmioWrite_ran .queueNum (low32 s.operands.a0) r12.calm
    have r13 := r12.trans' r3
    obtain ⟨d, hd, r4, -⟩ := mmioWrite_ran .guestPageSize (low32 s.operands.a1) r3.calm
    have r14 := r13.trans' r4
    obtain ⟨e, he, r5, -⟩ := mmioWrite_ran .queuePfn (low32 s.operands.a2) r4.calm
    have r15 := r14.trans' r5
    refine .inr ⟨hm, e.turn, ?_, by
      rw [if_neg hm, hc, Acc.bind_ok, hd, Acc.bind_ok, he, Acc.bind_ok, finish_calm _ _ r15.calm]⟩
    simpa only [r1.cfg, r12.cfg, r13.cfg, r14.cfg, List.cons_append, List.nil_append] using r15.turn

theorem drvokBody_spec {s : State} (h : s.calm) :
    ∃ (u : State) (v : U32),
      Ran s u (fun _ => False)
        [.mmioW (s.cfg.writeOff .status) (v ||| s.cfg.stDriverOk), .mmioR (s.cfg.readOff .status) v]
      ∧ drvokBody s = done .ok (u.setEng fun e => { e with phase := .live }) := by
  obtain ⟨v, u, hu, r⟩ := setStatus_ran s.cfg.stDriverOk h
  exact ⟨u.turn, v, r.turn, by rw [drvokBody, hu, Acc.bind_ok, finish_calm _ _ r.calm]⟩

theorem notifyBody_spec (queue : U16) {s : State} (h : s.calm) :
    ∃ u : State, Ran s u (fun _ => False) [.mmioW (s.cfg.writeOff .queueNotify) (zext32 queue)]
      ∧ (∃ n, u.dev = { (s.environmentUntil u).dev with queueNotify := n })
      ∧ (s.quiet → u.dev = { s.dev with queueNotify := zext32 queue })
      ∧ notifyBody queue s = done .ok u := by
  obtain ⟨u, hu, r, hd⟩ := mmioWrite_ran .queueNotify (zext32 queue) h
  have hs : u.script = s.turn.script := by
    rw [mmioWrite, point_calm h] at hu
    cases hu
    rfl
  refine ⟨u.turn, r.turn, ?_, fun hq => ?_, by rw [notifyBody, hu, Acc.bind_ok, finish_calm _ _ r.calm]; rfl⟩
  · obtain ⟨n, hn⟩ := State.notify_turn_congr (s := s.turn) (t := u) (n := zext32 queue) hs.symm hd
      (by rw [r.cfg, State.turn_cfg])
    refine ⟨n, hn.trans ?_⟩
    rw [State.environmentUntil_drop (k := 2) (by rw [State.turn_script, hs, State.turn_script, ← List.drop_one, ← List.drop_one, List.drop_drop])]
    rfl
  · rw [State.turn_quiet (r.quiet hq), hd, State.turn_quiet hq]
    rfl

theorem ipendBody_spec {s : State} (h : s.calm) :
    ∃ u : State, Ran s u (fun _ => False) [.mmioR (s.cfg.readOff .interruptStatus) s.turn.dev.interruptStatus]
      ∧ ipendBody s = done .ok (u.setR0 (zext64 s.turn.dev.interruptStatus)) := by
  obtain ⟨u, hu, r⟩ := mmioRead_ran .interruptStatus h
  exact ⟨u.turn, r.turn, by rw [ipendBody, hu, Acc.bind_ok, finish_calm _ _ r.calm]; rfl⟩

/-! Ring Transport. -/

theorem qinitBody_spec {s : State} (h : s.calm) (hf : s.layoutFits s.operands.a0) :
    ∃ u : State,
      Ran (s.setEng fun e => { e with qbase := zext64 e.cfgPfn * zext64 e.cfgPage, poolBase := s.operands.a0 }) u
        (inBytes (zext64 s.eng.cfgPfn * zext64 s.eng.cfgPage) (ringPages * pageBytes))
        (byteWrites (zext64 s.eng.cfgPfn * zext64 s.eng.cfgPage) (List.replicate (ringPages * pageBytes) 0))
      ∧ (s.quiet → u.mem = s.mem.store (zext64 s.eng.cfgPfn * zext64 s.eng.cfgPage)
          (List.replicate (ringPages * pageBytes) 0))
      ∧ qinitBody s = done .ok (u.setEng Engine.constructed) := by
  obtain ⟨u, hu, r, hq⟩ := memFill_ran (s := s.setEng fun e =>
    { e with qbase := zext64 e.cfgPfn * zext64 e.cfgPage, poolBase := s.operands.a0 })
    (zext64 s.eng.cfgPfn * zext64 s.eng.cfgPage) (ringPages * pageBytes) h
  refine ⟨u.turn, r.turn, fun h => by rw [State.turn_quiet (r.quiet h)]; exact hq h, ?_⟩
  rw [qinitBody, if_pos hf]
  exact (congrArg (fun x => Acc.bind x fun _ s => finish .ok (fun s => s.setEng Engine.constructed) s) hu).trans
    (finish_calm _ _ r.calm)

theorem inBytes_add {a : U64} {j n m x : Nat} (h : inBytes (a + BitVec.ofNat 64 j) n x) (hm : j + n ≤ m) : inBytes a m x := by
  obtain ⟨k, hk, hx⟩ := h
  refine ⟨j + k, by omega, ?_⟩
  rw [← hx, BitVec.ofNat_add, BitVec.add_assoc]

theorem adddescBody_spec (flags : U16) {s : State} (h : s.calm) (h1 : ¬ (0 < s.eng.chainLen.toNat ∧ s.eng.chainOpen = false))
    (h2 : s.eng.chainLen.toNat < qsize) (h3 : s.eng.inFlightDesc s.eng.nextFreeDesc.toNat = false) :
    ∃ u : State,
      Ran s u (inBytes (s.eng.descAddr s.eng.nextFreeDesc) 16)
        [.memW (s.eng.descAddr s.eng.nextFreeDesc + 14) 2 (s.eng.nextField (s.cfg.hasNext flags)).toNat,
         .memW (s.eng.descAddr s.eng.nextFreeDesc + 12) 2 flags.toNat,
         .memW (s.eng.descAddr s.eng.nextFreeDesc + 8) 4 (low32 s.operands.a1).toNat,
         .memW (s.eng.descAddr s.eng.nextFreeDesc) 8 s.operands.a0.toNat]
      ∧ (s.quiet → u.mem =
          (((s.mem.store (s.eng.descAddr s.eng.nextFreeDesc) (leBytes 8 s.operands.a0.toNat)).store
            (s.eng.descAddr s.eng.nextFreeDesc + 8) (leBytes 4 (low32 s.operands.a1).toNat)).store
            (s.eng.descAddr s.eng.nextFreeDesc + 12) (leBytes 2 flags.toNat)).store
            (s.eng.descAddr s.eng.nextFreeDesc + 14) (leBytes 2 (s.eng.nextField (s.cfg.hasNext flags)).toNat))
      ∧ adddescBody flags s = done .ok (u.setEng fun e => e.described (s.cfg.hasNext flags)) := by
  obtain ⟨a, ha, r1, q1⟩ := memWrite64_ran (s.eng.descAddr s.eng.nextFreeDesc) s.operands.a0 h
  obtain ⟨b, hb, r2, q2⟩ := memWrite_ran (s.eng.descAddr s.eng.nextFreeDesc + 8) 4 (low32 s.operands.a1).toNat r1.calm
  obtain ⟨c, hc, r3, q3⟩ := memWrite_ran (s.eng.descAddr s.eng.nextFreeDesc + 12) 2 flags.toNat r2.calm
  obtain ⟨d, hd, r4, q4⟩ := memWrite_ran (s.eng.descAddr s.eng.nextFreeDesc + 14) 2
    (s.eng.nextField (s.cfg.hasNext flags)).toNat r3.calm
  have w1 := r1.into (W := inBytes (s.eng.descAddr s.eng.nextFreeDesc) 16) fun x hx =>
    inBytes_add (j := 0) (by simpa using hx) (by omega)
  have w2 := r2.into (W := inBytes (s.eng.descAddr s.eng.nextFreeDesc) 16) fun x hx =>
    inBytes_add (j := 8) hx (by omega)
  have w3 := r3.into (W := inBytes (s.eng.descAddr s.eng.nextFreeDesc) 16) fun x hx =>
    inBytes_add (j := 12) hx (by omega)
  have w4 := r4.into (W := inBytes (s.eng.descAddr s.eng.nextFreeDesc) 16) fun x hx =>
    inBytes_add (j := 14) hx (by omega)
  refine ⟨d.turn, ?_, fun hq => ?_, ?_⟩
  · simpa only [List.cons_append, List.nil_append] using (((w1.trans' w2).trans' w3).trans' w4).turn
  · have hqa := r1.quiet hq
    have hqb := r2.quiet hqa
    have hqc := r3.quiet hqb
    rw [State.turn_quiet (r4.quiet hqc), q4, State.turn_quiet hqc, q3, State.turn_quiet hqb, q2, State.turn_quiet hqa, q1 hq]
  · rw [adddescBody, if_neg h1, if_neg (not_not.mpr h2), if_neg (by simp [h3])]
    dsimp only
    rw [ha, Acc.bind_ok, hb, Acc.bind_ok, hc, Acc.bind_ok, hd, Acc.bind_ok, finish_calm _ _ r4.calm]

theorem publishBody_spec {s : State} (h : s.calm) (h1 : 1 ≤ s.eng.chainLen.toNat ∧ s.eng.chainOpen = false) :
    ∃ (u : State) (idx : U16),
      Ran s u (fun x => inBytes (s.eng.availRingAddr (modQ idx)) 2 x ∨ inBytes s.eng.availIndexAddr 2 x)
        [.memW s.eng.availIndexAddr 2 (idx + 1).toNat, .memW (s.eng.availRingAddr (modQ idx)) 2 s.eng.chainHead.toNat,
         .memR s.eng.availIndexAddr 2 idx.toNat]
      ∧ (s.quiet → idx = BitVec.ofNat 16 (ofLE (s.mem.load s.eng.availIndexAddr 2)) ∧ u.mem =
          (s.mem.store (s.eng.availRingAddr (modQ idx)) (leBytes 2 s.eng.chainHead.toNat)).store s.eng.availIndexAddr
            (leBytes 2 (idx + 1).toNat))
      ∧ publishBody s = done .ok (u.setEng Engine.published) := by
  obtain ⟨idx, a, ha, q1, r1⟩ := memRead16_ran s.eng.availIndexAddr h
  obtain ⟨b, hb, r2, q2⟩ := memWrite_ran (a.eng.availRingAddr (modQ idx)) 2 a.eng.chainHead.toNat r1.calm
  obtain ⟨c, hc, r3, q3⟩ := memWrite_ran b.eng.availIndexAddr 2 (idx + 1).toNat r2.calm
  have e1 := r1.eng
  have e2 := r2.eng.trans e1
  have m1 : a.mem = s.turn.mem := by
    have ha' := ha
    rw [memRead16, memRead, point_calm h] at ha'
    cases ha'
    rfl
  rw [e1] at r2 q2
  rw [e2] at r3 q3
  have w1 := r1.into (W := fun x => inBytes (s.eng.availRingAddr (modQ idx)) 2 x ∨ inBytes s.eng.availIndexAddr 2 x)
    fun x hx => hx.elim
  have w2 := r2.into (W := fun x => inBytes (s.eng.availRingAddr (modQ idx)) 2 x ∨ inBytes s.eng.availIndexAddr 2 x)
    fun x hx => .inl hx
  have w3 := r3.into (W := fun x => inBytes (s.eng.availRingAddr (modQ idx)) 2 x ∨ inBytes s.eng.availIndexAddr 2 x)
    fun x hx => .inr hx
  refine ⟨c.turn, idx, ?_, fun hq => ?_, ?_⟩
  · simpa only [List.cons_append, List.nil_append] using ((w1.trans' w2).trans' w3).turn
  · have hqa := r1.quiet hq
    have hqb := r2.quiet hqa
    rw [State.turn_quiet hq] at q1 m1
    exact ⟨q1, by rw [State.turn_quiet (r3.quiet hqb), q3, State.turn_quiet hqb, q2, State.turn_quiet hqa, m1]⟩
  · rw [publishBody, if_pos h1, ha, Acc.bind_ok, hb, Acc.bind_ok, hc, Acc.bind_ok, finish_calm _ _ r3.calm]

theorem pollBody_spec {s : State} (h : s.calm) :
    ∃ u : State, Ran s u (fun _ => False) [.memR s.eng.usedIndexAddr 2 s.turn.usedIndexNow.toNat]
      ∧ pollBody s = done .ok (u.setR0 (if pending s.turn.usedIndexNow s.eng.lastConsumedUsed then 1 else 0)) := by
  obtain ⟨v, u, hu, hv, r⟩ := memRead16_ran s.eng.usedIndexAddr h
  have he : v = s.turn.usedIndexNow := by
    rw [State.usedIndexNow, (State.sameEngine_turn (State.rstNext_calm h)).eng, hv]
  have hc : u.turn.eng = s.eng := r.turn.eng
  refine ⟨u.turn, he ▸ r.turn, ?_⟩
  rw [pollBody, hu, Acc.bind_ok, finish_calm _ _ r.calm, hc, he]

theorem takeBody_spec {s : State} (h : s.calm) (hp : s.usedIndexNow ≠ s.eng.lastConsumedUsed) :
    ∃ (u : State) (id len : U32),
      Ran s u (fun _ => False)
        [.memR (s.eng.usedLenAddr (modQ s.eng.lastConsumedUsed)) 4 len.toNat,
         .memR (s.eng.usedIdAddr (modQ s.eng.lastConsumedUsed)) 4 id.toNat]
      ∧ (s.quiet → id = BitVec.ofNat 32 (ofLE (s.mem.load (s.eng.usedIdAddr (modQ s.eng.lastConsumedUsed)) 4))
          ∧ len = BitVec.ofNat 32 (ofLE (s.mem.load (s.eng.usedLenAddr (modQ s.eng.lastConsumedUsed)) 4)))
      ∧ takeBody s = done .ok ((((u.setEng Engine.advanced).landed id).setR0 (zext64 id)).setR1 len) := by
  obtain ⟨id, len, u, hu, r⟩ := takeEntry_ran h
  refine ⟨u, id, len, r, fun hq => ?_, ?_⟩
  · rw [takeEntry_quiet hq] at hu
    simp only [Acc.ok.injEq, Prod.mk.injEq] at hu
    exact ⟨hu.1.1.symm, hu.1.2.symm⟩
  have : pending s.usedIndexNow s.eng.lastConsumedUsed = true := by simpa [pending] using hp
  rw [takeBody, if_pos this, hu, Acc.bind_ok]

/-- A byte string makes no MMIO write. -/
theorem byteWrites_isMmioW (a : U64) (bs : List Byte) : ∀ e ∈ byteWrites a bs, e.isMmioW = false := by
  induction bs generalizing a with
  | nil => simp [byteWrites]
  | cons b bs ih =>
    intro e he
    rw [byteWrites, List.mem_append, List.mem_singleton] at he
    rcases he with he | rfl
    · exact ih (a + 1) e he
    · rfl

/-! Slot Pool. -/

theorem installBody_spec (slot : U16) {s : State} (h : s.calm) (hs : s.eng.signaled slot.toNat = true) :
    ∃ u : State,
      Ran s u (inBytes (s.payload slot) s.payloadBytes.length) (byteWrites (s.payload slot) s.payloadBytes)
      ∧ (s.quiet → u.mem = s.mem.store (s.payload slot) s.payloadBytes)
      ∧ installBody slot s = done .ok ((u.setEng fun e => { e with completion := setPending e.completion slot.toNat }).setR0
          (s.payload slot)) := by
  obtain ⟨u, hu, r, hq⟩ := memWriteBytes_ran (s.payload slot) s.payloadBytes h
  refine ⟨u.turn, r.turn, fun h => by rw [State.turn_quiet (r.quiet h)]; exact hq h, ?_⟩
  rw [installBody, if_neg (by simp [hs]), hu, Acc.bind_ok, finish_calm _ _ r.calm]
  have hp : u.turn.payload slot = s.payload slot := by rw [State.payload, State.payload, r.turn.eng, r.turn.cfg]
  rw [hp]

end Sys2Proof.Machine
end

