-- ==== Sys2Proof/Laws/Handler.lean ====
section
/-! SUPPORT. What the loop of IRQH does in any calm environment (spec/43_protocol_ops.md R200). -/

namespace Sys2Proof.Machine

theorem Port.released_nil (q : Port) : q.released [] = q := rfl

theorem Port.released_of_not_held {q : Port} {ids : List Nat} (h : ∀ i ∈ ids, q.work ≠ .holdWait i) : q.released ids = q := by
  unfold Port.released
  rw [if_neg]
  simpa using h

theorem Port.released_of_held {q : Port} {ids : List Nat} {i : Nat} (hi : i ∈ ids) (h : q.work = .holdWait i) :
    q.released ids = q.completed .ok := by
  unfold Port.released
  rw [if_pos]
  simpa using ⟨i, hi, h⟩

/-- Signalling one slot more: what a port is after it. -/
theorem Port.released_cons (q : Port) (i : Nat) (ids : List Nat) :
    q.released (i :: ids) = if q.work = .holdWait i then q.completed .ok else q.released ids := by
  by_cases h : q.work = .holdWait i
  · rw [if_pos h, Port.released_of_held (List.mem_cons_self ..) h]
  · rw [if_neg h]
    simp [Port.released, h]

theorem Port.work_of_hostChanged {q r : Port} {i : Nat} (h : q.hostChanged r) (hq : q.work = .holdWait i) :
    r.work = .holdWait i := by
  by_cases hb : r.busy = true
  · exact (h.2.1 hb).1.symm.trans hq
  · rcases h.2.2 (by simpa using hb) with hc | hc <;> rw [hq] at hc <;> cases hc

theorem Port.hostChanged_released {q r : Port} (h : q.hostChanged r) (ids : List Nat) :
    (q.released ids).hostChanged (r.released ids) := by
  by_cases hr : ∃ i ∈ ids, r.work = .holdWait i
  · obtain ⟨i, hi, hw⟩ := hr
    have hb : r.busy = true := by simp [Port.busy, hw]
    have hq : q.work = .holdWait i := (h.2.1 hb).1.trans hw
    rw [Port.released_of_held hi hw, Port.released_of_held hi hq]
    exact ⟨⟨h.1.1, h.1.2.1, rfl⟩, fun hc => absurd hc (by simp [Port.busy]), fun _ => .inl rfl⟩
  · push Not at hr
    rw [Port.released_of_not_held hr, Port.released_of_not_held fun i hi hc => hr i hi (Port.work_of_hostChanged h hc)]
    exact h

/-- From `s` the handler's loop got to `t` by the iterations `xs`; the rest of the difference is the environment's. -/
structure Drained (s t : State) (xs : List Drain) : Prop where
  cfg : t.cfg = s.cfg
  eng : t.eng = s.eng.drained (drainIds xs)
  cur : t.cur = s.cur
  choices : t.choices = s.choices
  freeCount : t.freeCount = s.freeCount
  length : t.ports.length = s.ports.length
  ports : ∀ q, (t.port q).hostChanged ((s.port q).released (drainIds xs))
  accesses : t.accesses = drainTrace s.eng s.eng.lastConsumedUsed xs ++ s.accesses
  wf : Memory.wf s.mem → Memory.wf t.mem
  history : s.history <:+ t.history
  start : s.calm
  calm : t.calm
  environment : ∃ k, t.script = s.script.drop k ∧
    (∀ a, t.mem.read a = (State.environmentAlone k s).mem.read a) ∧
    (∀ q, (t.port q).operandRegs = ((State.environmentAlone k s).port q).operandRegs) ∧
    t.dev = (State.environmentAlone k s).dev

theorem Engine.drained_nil (e : Engine) : e.drained [] = e := by simp [Engine.drained]

theorem Drained.refl {s : State} (h : s.calm) : Drained s s [] :=
  ⟨rfl, (Engine.drained_nil _).symm, rfl, rfl, rfl, rfl, fun _ => Port.hostChanged_refl _, rfl, id, List.suffix_refl _, h, h, 0, rfl,
   fun _ => rfl, fun _ => rfl, rfl⟩

theorem Engine.drained_cons (e : Engine) (i : Nat) (ids : List Nat) :
    ({ e with
        lastConsumedUsed := e.lastConsumedUsed + 1, inflight := SMap.erase i e.inflight,
        completion := setSignaled e.completion i } : Engine).drained ids
      = e.drained (i :: ids) := by
  simp only [Engine.drained, List.length_cons, List.foldl_cons, BitVec.ofNat_add, BitVec.add_assoc]
  rw [BitVec.add_comm (BitVec.ofNat 16 ids.length)]
  rfl

theorem drainTrace_congr {e f : Engine} (h : e.qbase = f.qbase) (c : U16) (xs : List Drain) :
    drainTrace e c xs = drainTrace f c xs := by
  induction xs generalizing c with
  | nil => rfl
  | cons x xs ih =>
    simp only [drainTrace, ih, Engine.usedLenAddr, Engine.usedIdAddr, Engine.usedIndexAddr, Engine.usedAddr, h]

/-- Taking an entry and signalling its slot, then more of the loop. -/
theorem Drained.cons {s b t : State} {x : Drain} {xs : List Drain}
    (h1 : Ran s b (fun _ => False)
      [.memR (s.eng.usedLenAddr (modQ s.eng.lastConsumedUsed)) 4 x.len.toNat,
       .memR (s.eng.usedIdAddr (modQ s.eng.lastConsumedUsed)) 4 x.id.toNat, .memR s.eng.usedIndexAddr 2 x.index.toNat])
    (h2 : Drained (((b.setEng Engine.advanced).landed x.id).signalSlot x.id.toNat) t xs) :
    Drained s t (x :: xs) := by
  obtain ⟨f1, f2, f3, f4, f5, f6, f7, f8, f9, f10⟩ :=
    State.signalSlot_fields ((b.setEng Engine.advanced).landed x.id) x.id.toNat
  set c := ((b.setEng Engine.advanced).landed x.id).signalSlot x.id.toNat with hc
  obtain ⟨k, hk, hm, hp, hd⟩ := h1.environment
  obtain ⟨l, hl, hm', hp', hd'⟩ := h2.environment
  have hport : ∀ q, c.port q = if q < b.ports.length ∧ (b.port q).work = .holdWait x.id.toNat
      then (b.port q).completed .ok else b.port q := fun q => by
    rw [hc, State.port_signalSlot]
    rfl
  have hcs : c.script = (State.environmentAlone k s).script := by
    rw [f6, State.landed_script, State.environmentAlone_script, ← hk]; rfl
  have eng : c.eng = { s.eng with
      lastConsumedUsed := s.eng.lastConsumedUsed + 1, inflight := SMap.erase x.id.toNat s.eng.inflight,
      completion := setSignaled s.eng.completion x.id.toNat } := by
    rw [f2, ← h1.eng]; rfl
  refine ⟨by rw [h2.cfg, f1, State.landed_cfg, State.setEng_cfg, h1.cfg], ?_,
    by rw [h2.cur, f3, State.landed_cur, State.setEng_cur, h1.cur],
    by rw [h2.choices, f7, State.landed_choices, State.setEng_choices, h1.choices],
    by rw [h2.freeCount, f8, State.landed_freeCount, State.setEng_freeCount, h1.freeCount],
    by rw [h2.length, f9, State.landed_ports, State.setEng_ports, h1.length], fun q => ?_, ?_, fun hw => ?_,
    (h1.history.trans (State.history_signalSlot ((b.setEng Engine.advanced).landed x.id) x.id.toNat)).trans h2.history, h1.start, h2.calm,
    k + l, ?_, fun a => ?_, fun q => ?_, ?_⟩
  · rw [h2.eng, eng]
    exact Engine.drained_cons _ _ _
  · refine Port.hostChanged_trans (h2.ports q) ?_
    rw [show drainIds (x :: xs) = x.id.toNat :: drainIds xs from rfl, Port.released_cons]
    have hbq := h1.ports q
    by_cases hw : (s.port q).work = .holdWait x.id.toNat
    · have hb : (s.port q).busy = true := by simp [Port.busy, hw]
      have hbw : (b.port q).work = .holdWait x.id.toNat := (hbq.2.1 hb).1.trans hw
      have hlt : q < b.ports.length := by
        by_contra hge
        have hr : b.port q = Port.reset b.cfg := State.port_of_length_le _ (Nat.le_of_not_lt hge)
        rw [hr] at hbw
        cases hbw
      rw [hport, if_pos ⟨hlt, hbw⟩, if_pos hw, Port.released_of_not_held (by simp)]
      exact ⟨⟨hbq.1.1, hbq.1.2.1, rfl⟩, fun hcn => absurd hcn (by simp [Port.busy]), fun _ => .inl rfl⟩
    · have hbw : (b.port q).work ≠ .holdWait x.id.toNat := fun hcn => hw (Port.work_of_hostChanged hbq hcn)
      rw [hport, if_neg fun hcn => hbw hcn.2, if_neg hw]
      exact Port.hostChanged_released hbq _
  · rw [h2.accesses, f10]
    have ha : ((b.setEng Engine.advanced).landed x.id).accesses = b.accesses := rfl
    rw [ha, h1.accesses, eng]
    simp only [drainTrace, List.append_assoc, List.cons_append, List.nil_append]
    congr 1
    exact drainTrace_congr (by rfl) _ _
  · refine h2.wf ?_
    rw [f4]
    exact h1.wf hw
  · rw [hl, f6, State.landed_script, State.setEng_script, hk, List.drop_drop]
  · rw [hm' a, State.environmentAlone_add]
    refine State.read_environmentAlone_congr l hcs ?_
    rw [f4]
    exact hm a (fun hf => hf)
  · rw [hp' q, State.environmentAlone_add]
    have hcc : c.calm := h2.start
    refine (State.samePorts_environmentAlone l hcc hcs ⟨?_, ?_, ?_⟩).2.2
    · rw [f9, State.length_environmentAlone k h1.start]
      exact h1.length
    · rw [f1, State.environmentAlone_cfg]
      exact h1.cfg
    · rw [← hp q, hport]
      split_ifs <;> rfl
  · rw [hd', State.environmentAlone_add]
    refine State.dev_environmentAlone_congr l hcs ?_ ?_
    · rw [f5]
      exact hd (by simp [Event.isMmioW])
    · rw [f1, State.environmentAlone_cfg]
      exact h1.cfg

/-- The loop of IRQH: it drains some entries and then finds nothing pending, or it drains some and then meets an id that
names no slot. -/
theorem drain_spec (fuel : Nat) (n : U32) {s : State} (h : s.calm) (hf : s.drainNeed ≤ fuel) :
    ∃ (xs : List Drain) (t u : State), Drained s t xs ∧ drainSound s.eng.lastConsumedUsed xs ∧
      ((Ran t u (fun _ => False) [.memR s.eng.usedIndexAddr 2 t.eng.lastConsumedUsed.toNat]
        ∧ drain fuel n s = .ok (n + BitVec.ofNat 32 xs.length) u)
      ∨ ∃ x : Drain, x.index ≠ t.eng.lastConsumedUsed ∧ ¬ x.id.toNat < qsize
        ∧ Ran t u (fun _ => False)
          [.memR (s.eng.usedLenAddr (modQ t.eng.lastConsumedUsed)) 4 x.len.toNat,
           .memR (s.eng.usedIdAddr (modQ t.eng.lastConsumedUsed)) 4 x.id.toNat, .memR s.eng.usedIndexAddr 2 x.index.toNat]
        ∧ drain fuel n s = .stop (.next ((u.setEng Engine.advanced).raise .pf7))) := by
  induction fuel generalizing n s with
  | zero =>
    unfold State.drainNeed at hf
    split_ifs at hf <;> omega
  | succ f ih =>
    obtain ⟨v, a, ha, hv, r1⟩ := memRead16_ran s.eng.usedIndexAddr h
    rw [drain_succ, ha, Acc.bind_ok]
    by_cases hp : pending v a.eng.lastConsumedUsed = true
    · obtain ⟨id, len, b, hb, r2⟩ := takeEntry_ran r1.calm
      have r12 := r1.trans' r2
      rw [r1.eng] at r12
      have hne : v ≠ s.eng.lastConsumedUsed := by
        rw [pending, r1.eng, bne_iff_ne] at hp
        exact hp
      rw [if_pos hp, hb, Acc.bind_ok]
      by_cases hid : id.toNat < qsize
      · rw [if_pos hid]
        have need : (((b.setEng Engine.advanced).landed id).signalSlot id.toNat).drainNeed + 1 ≤ s.drainNeed := by
          rcases memRead16_script s.eng.usedIndexAddr s with ⟨r, k⟩ | ⟨u, t, k, k1, k2, k3, k4⟩
          · rw [ha] at k; cases k
          · rw [ha] at k
            cases k
            rcases takeEntry_script a with ⟨r, m⟩ | ⟨e, w, m, m1, m2, m3⟩
            · rw [hb] at m; cases m
            · rw [hb] at m
              cases m
              exact drainNeed_decreases (e := (id, len)) k1 k2 k3 k4 hp m1 m2 m3
        obtain ⟨f1, f2, f3, f4, f5, f6, f7, f8, f9, f10⟩ :=
          State.signalSlot_fields ((b.setEng Engine.advanced).landed id) id.toNat
        have hc : (((b.setEng Engine.advanced).landed id).signalSlot id.toNat).calm := by
          intro ms hms
          rw [f6] at hms
          exact r2.calm ms hms
        have he : (((b.setEng Engine.advanced).landed id).signalSlot id.toNat).eng.usedIndexAddr = s.eng.usedIndexAddr ∧
            (∀ j, (((b.setEng Engine.advanced).landed id).signalSlot id.toNat).eng.usedIdAddr j = s.eng.usedIdAddr j) ∧
            (∀ j, (((b.setEng Engine.advanced).landed id).signalSlot id.toNat).eng.usedLenAddr j = s.eng.usedLenAddr j) ∧
            (((b.setEng Engine.advanced).landed id).signalSlot id.toNat).eng.lastConsumedUsed = s.eng.lastConsumedUsed + 1 := by
          rw [f2, ← r12.eng]
          exact ⟨rfl, fun _ => rfl, fun _ => rfl, rfl⟩
        obtain ⟨xs, t, u, d, hs, hout⟩ := ih (n + 1) hc (by omega)
        rw [he.2.2.2] at hs
        rw [he.1] at hout
        simp only [he.2.1, he.2.2.1] at hout
        refine ⟨⟨v, id, len⟩ :: xs, t, u, Drained.cons (x := ⟨v, id, len⟩) r12 d, ⟨hne, hid, hs⟩, ?_⟩
        rcases hout with ⟨r3, hd⟩ | hout
        · refine .inl ⟨r3, ?_⟩
          rw [hd, List.length_cons, BitVec.ofNat_add, BitVec.add_assoc, BitVec.add_comm (BitVec.ofNat 32 xs.length)]
          rfl
        · exact .inr hout
      · rw [if_neg hid]
        exact ⟨[], s, b, Drained.refl h, trivial, .inr ⟨⟨v, id, len⟩, hne, hid, r12, rfl⟩⟩
    · rw [if_neg hp]
      have hv : v = s.eng.lastConsumedUsed := by
        rw [pending, r1.eng, bne_iff_ne, not_not] at hp
        exact hp
      refine ⟨[], s, a, Drained.refl h, trivial, .inl ⟨by rwa [hv] at r1, ?_⟩⟩
      simp

end Sys2Proof.Machine
end

