-- ==== Sys2Proof/Laws/Outcomes.lean ====
section
/-! SUPPORT. The inversion lemma of `exec`: every outcome a command can have in a calm environment, once. -/

namespace Sys2Proof.Machine

/-- The outcomes of each command that runs on an existing port with no `RST` to come. -/
inductive Outcome (s : State) : Instr → State → Prop where
  /-- A protocol fault, raised by a check or by a contract of the command, before any access. -/
  | fault {i : Instr} {pf : PF} (h5 : pf = .pf5 → contextAllows i s.cur = false)
      (h6 : pf = .pf6 → phaseAllows i s.eng.phase = false) : Outcome s i (s.raise pf)
  | featureFail {u : State} {es : List Event} (r : Ran s u (fun _ => False) es) (h : ∀ e ∈ es, s.names (fun _ => False) e)
      (hp : s.eng.phase = .reset) (hc : s.cur ≠ 0) :
      Outcome s .negotiate ((u.setEng fun e => { e with phase := .failed }).complete u.cur .featureFail)
  | negotiated {u : State} {es : List Event} {gf : U32} (r : Ran s u (fun _ => False) es) (h : ∀ e ∈ es, s.names (fun _ => False) e)
      (hp : s.eng.phase = .reset) (hc : s.cur ≠ 0) :
      Outcome s .negotiate (((u.setEng fun e => { e with features := gf, phase := .featuresOk }).setR0 (zext64 gf)).complete
        u.cur .ok)
  | sizeTooSmall {u : State} {es : List Event} {q : U16} (r : Ran s u (fun _ => False) es) (h : ∀ e ∈ es, s.names (fun _ => False) e)
      (hp : s.eng.phase = .featuresOk) (hc : s.cur ≠ 0) :
      Outcome s (.cfgring q) ((u.setEng fun e => { e with phase := .failed }).complete u.cur .ringSizeTooSmall)
  | configured {u : State} {es : List Event} {q : U16} {a b c : U32} (r : Ran s u (fun _ => False) es)
      (h : ∀ e ∈ es, s.names (fun _ => False) e) (hp : s.eng.phase = .featuresOk) (hc : s.cur ≠ 0) :
      Outcome s (.cfgring q) ((u.setEng fun e =>
        { e with cfgSize := a, cfgPage := b, cfgPfn := c, phase := .ringConfigured }).complete u.cur .ok)
  | live {u : State} {es : List Event} (r : Ran s u (fun _ => False) es) (h : ∀ e ∈ es, s.names (fun _ => False) e)
      (hp : s.eng.phase = .ringReady) (hc : s.cur ≠ 0) :
      Outcome s .drvok ((u.setEng fun e => { e with phase := .live }).complete u.cur .ok)
  | notified {u : State} {es : List Event} {q : U16} (r : Ran s u (fun _ => False) es) (h : ∀ e ∈ es, s.names (fun _ => False) e) :
      Outcome s (.notify q) (u.complete u.cur .ok)
  | statusRead {u : State} {es : List Event} {v : U64} (r : Ran s u (fun _ => False) es) (h : ∀ e ∈ es, s.names (fun _ => False) e) :
      Outcome s .ipend ((u.setR0 v).complete u.cur .ok)
  | constructed {u : State} {es : List Event} {W : Nat → Prop} {qb pool : U64}
      (r : Ran (s.setEng fun e => { e with qbase := qb, poolBase := pool }) u W es) 
      (h : ∀ (w : State), ∀ e ∈ es, w.names (inBytes qb (ringPages * pageBytes)) e)
      (hp : s.eng.phase = .ringConfigured) (hc : s.cur ≠ 0) :
      Outcome s .qinit ((u.setEng Engine.constructed).complete u.cur .ok)
  | allocated {v : U64} : Outcome s .alloc ((s.setR0 v).complete s.cur .ok)
  | described {u : State} {es : List Event} {W : Nat → Prop} {flags : U16} {cont : Bool} (r : Ran s u W es)
      (h : s.eng.nextFreeDesc.toNat < qsize → ∀ e ∈ es, s.names (fun _ => False) e) (hl : s.holdsLock) (hc : s.cur ≠ 0)
      (h1 : s.eng.chainLen.toNat < qsize) (h2 : s.eng.inFlightDesc s.eng.nextFreeDesc.toNat = false) :
      Outcome s (.adddesc flags) ((u.setEng fun e => e.described cont).complete u.cur .ok)
  | published {u : State} {es : List Event} {W : Nat → Prop} (r : Ran s u W es) (h : ∀ e ∈ es, s.names (fun _ => False) e)
      (hl : s.holdsLock) (hc : s.cur ≠ 0) (h1 : 1 ≤ s.eng.chainLen.toNat) :
      Outcome s .publish ((u.setEng Engine.published).complete u.cur .ok)
  | polled {u : State} {es : List Event} {v : U64} (r : Ran s u (fun _ => False) es) (h : ∀ e ∈ es, s.names (fun _ => False) e) :
      Outcome s .poll ((u.setR0 v).complete u.cur .ok)
  | taken {u : State} {es : List Event} {id len : U32} (r : Ran s u (fun _ => False) es) (h : ∀ e ∈ es, s.names (fun _ => False) e) :
      Outcome s .take (((((u.setEng Engine.advanced).landed id).setR0 (zext64 id)).setR1 len).complete u.cur .ok)
  | got {q : U16} {v : U64} {w : U32} : Outcome s (.get q) (((s.setR0 v).setR1 w).complete s.cur .ok)
  | collided {q : U16} : Outcome s (.install q) (s.complete s.cur .requestError)
  | installed {u : State} {es : List Event} {W : Nat → Prop} {q : U16} {v : U64} (r : Ran s u W es)
      (h : ∀ e ∈ es, s.names (inBytes (s.payload q) s.cfg.reqBytes) e) (hl : s.holdsLock) (hc : s.cur ≠ 0) :
      Outcome s (.install q) (((u.setEng fun e => { e with completion := setPending e.completion q.toNat }).setR0 v).complete
        u.cur .ok)
  | signalled {q : U16} (hq : q.toNat < qsize) : Outcome s (.signal q) ((s.signalSlot q.toNat).complete s.cur .ok)
  | waited {q : U16} : Outcome s (.wait q) (s.complete s.cur .ok)
  | waits {q : U16} (hc : s.cur ≠ 0) (hs : s.eng.signaled q.toNat = false) (hp : s.eng.phase.running = true) :
      Outcome s (.wait q) (s.setPort s.cur fun p => { p with work := .holdWait q.toNat })
  | locked (h : s.eng.lock = .free) (hc : s.cur ≠ 0) :
      Outcome s .lock ((s.setLock (.held s.cur)).complete s.cur .ok)
  | locks (h : s.eng.lock ≠ .free) (hc : s.cur ≠ 0) (hp : s.eng.phase.running = true) :
      Outcome s .lock (s.setPort s.cur fun p => { p with work := .holdLock })
  | freed (hl : s.holdsLock) (hc : s.cur ≠ 0) (h : s.portsAt .holdLock = []) :
      Outcome s .unlock ((s.setLock .free).complete s.cur .ok)
  | handed {w : Nat} {cs : List Nat} {n : Nat} (hl : s.holdsLock) (hc : s.cur ≠ 0) (h : w ∈ s.portsAt .holdLock) :
      Outcome s .unlock
        (((({ s with choices := cs, freeCount := n } : State).setLock (.held w)).complete w .ok).complete s.cur .ok)
  | spurious {u : State} {es : List Event} (r : Ran s u (fun _ => False) es) (h : ∀ e ∈ es, s.names (fun _ => False) e) :
      Outcome s .irqh (u.complete u.cur .noInterrupt)
  | drained {v w u : State} {es fs : List Event} {xs : List Drain} {n : U32} (r : Ran s v (fun _ => False) es)
      (h : ∀ e ∈ es, s.names (fun _ => False) e) (d : Drained v w xs) (hs : drainSound v.eng.lastConsumedUsed xs)
      (r2 : Ran w u (fun _ => False) fs) (h2 : ∀ e ∈ fs, s.names (fun _ => False) e) :
      Outcome s .irqh ((u.setR0 (zext64 n)).complete u.cur .ok)
  | badId {v w u : State} {es fs : List Event} {xs : List Drain} (r : Ran s v (fun _ => False) es)
      (h : ∀ e ∈ es, s.names (fun _ => False) e) (d : Drained v w xs) (hs : drainSound v.eng.lastConsumedUsed xs)
      (r2 : Ran w u (fun _ => False) fs) (h2 : ∀ e ∈ fs, s.names (fun _ => False) e) :
      Outcome s .irqh ((u.setEng Engine.advanced).raise .pf7)

theorem modQ_lt (v : U16) : (modQ v).toNat < qsize := by
  simp only [modQ, BitVec.toNat_umod]
  exact Nat.mod_lt _ (by decide)

/-- Single bytes are accesses that a command may make at the addresses it writes byte by byte. -/
theorem names_byteWrites (s : State) (a : U64) (bs : List Byte) (n k : Nat) (h : k + bs.length ≤ n) :
    ∀ e ∈ byteWrites (a + BitVec.ofNat 64 k) bs, s.names (inBytes a n) e := by
  induction bs generalizing k with
  | nil => simp [byteWrites]
  | cons b bs ih =>
    intro e he
    rw [List.length_cons] at h
    rw [byteWrites, List.mem_append, List.mem_singleton] at he
    rcases he with he | rfl
    · refine ih (k + 1) (by omega) e ?_
      rwa [BitVec.ofNat_add, ← BitVec.add_assoc]
    · exact .inl ⟨rfl, k, by omega, rfl⟩

/-- So they are from the first of those addresses on. -/
theorem names_byteWrites_start (s : State) (a : U64) (bs : List Byte) (n : Nat) (h : bs.length ≤ n) :
    ∀ e ∈ byteWrites a bs, s.names (inBytes a n) e := by
  have := names_byteWrites s a bs n 0 (by omega)
  rwa [show a + BitVec.ofNat 64 0 = a by simp] at this

/-- The body of each command ends in one of its outcomes. -/
theorem exec_outcome {i : Instr} {s t : State} (h : s.calm) (hr : s.running) (he : exec i s = .next t) : Outcome s i t := by
  have key : ∀ (body : State → Acc Unit), exec i s = command i body s →
      (contextAllows i s.cur = true → phaseAllows i s.eng.phase = true → (needsLock i = true → s.holdsLock) →
        slotOk i = true → (body s).result = .next t → Outcome s i t) → Outcome s i t := by
    intro body hb hk
    rw [he] at hb
    unfold command checks at hb
    split_ifs at hb with h1 h2 h3 h4
    · cases hb; exact .fault (fun _ => h1) (fun hc => by cases hc)
    · cases hb; exact .fault (fun hc => by cases hc) (fun _ => h2)
    · cases hb; exact .fault (fun hc => by cases hc) (fun hc => by cases hc)
    · cases hb; exact .fault (fun hc => by cases hc) (fun hc => by cases hc)
    · refine hk (by simpa using h1) (by simpa using h2) (fun hn => ?_) (by simpa using h4) hb.symm
      by_contra hc
      exact h3 ⟨hn, hc⟩
  have bodyFault : ∀ {pf : PF}, pf ≠ .pf5 → pf ≠ .pf6 → (raise pf s : Acc Unit).result = .next t → Outcome s i t := by
    intro pf h5 h6 hb
    cases hb
    exact .fault (fun hc => absurd hc h5) (fun hc => absurd hc h6)
  cases i with
  | negotiate =>
    refine key negotiateBody rfl fun h1 h2 _ _ hb => ?_
    obtain ⟨u, s1, s2, hf, s3, s4, r, hs⟩ := negotiateBody_spec h hr
    have hp : s.eng.phase = .reset := by simpa [phaseAllows] using h2
    have hc : s.cur ≠ 0 := by simpa [contextAllows] using h1
    rw [hs] at hb
    split_ifs at hb
    · cases hb; exact .featureFail r (by simp [State.names, Config.readOff, Config.writeOff]) hp hc
    · cases hb; exact .negotiated r (by simp [State.names, Config.readOff, Config.writeOff]) hp hc
  | cfgring q =>
    refine key (cfgringBody q) rfl fun h1 h2 _ _ hb => ?_
    have hp : s.eng.phase = .featuresOk := by simpa [phaseAllows] using h2
    have hc : s.cur ≠ 0 := by simpa [contextAllows] using h1
    obtain ⟨max, ⟨-, u, r, hs⟩ | ⟨-, u, r, hs⟩⟩ := cfgringBody_spec q h
    · rw [hs] at hb
      cases hb; exact .sizeTooSmall r (by simp [State.names, Config.readOff, Config.writeOff]) hp hc
    · rw [hs] at hb
      cases hb; exact .configured r (by simp [State.names, Config.readOff, Config.writeOff]) hp hc
  | drvok =>
    refine key drvokBody rfl fun h1 h2 _ _ hb => ?_
    obtain ⟨u, v, r, hs⟩ := drvokBody_spec h
    rw [hs] at hb
    cases hb
    exact .live r (by simp [State.names, Config.readOff, Config.writeOff]) (by simpa [phaseAllows] using h2)
      (by simpa [contextAllows] using h1)
  | notify q =>
    refine key (notifyBody q) rfl fun _ _ _ _ hb => ?_
    obtain ⟨u, r, -, -, hs⟩ := notifyBody_spec q h
    rw [hs] at hb
    cases hb
    exact .notified r (by simp [State.names, Config.writeOff])
  | ipend =>
    refine key ipendBody rfl fun _ _ _ _ hb => ?_
    obtain ⟨u, r, hs⟩ := ipendBody_spec h
    rw [hs] at hb
    cases hb
    exact .statusRead r (by simp [State.names, Config.readOff])
  | qinit =>
    refine key qinitBody rfl fun h1 h2 _ _ hb => ?_
    by_cases hf : s.layoutFits s.operands.a0
    · obtain ⟨u, r, -, hs⟩ := qinitBody_spec h hf
      rw [hs] at hb
      cases hb
      refine .constructed r (fun w e he => ?_) (by simpa [phaseAllows] using h2) (by simpa [contextAllows] using h1)
      exact names_byteWrites_start w _ _ _ (by simp) e he
    · rw [qinitBody, if_neg hf] at hb
      exact bodyFault (by decide) (by decide) hb
  | alloc =>
    refine key allocBody rfl fun _ _ _ _ hb => ?_
    cases hb
    exact .allocated
  | adddesc flags =>
    refine key (adddescBody flags) rfl fun h1 _ h3 _ hb => ?_
    by_cases g1 : 0 < s.eng.chainLen.toNat ∧ s.eng.chainOpen = false
    · rw [adddescBody, if_pos g1] at hb
      exact bodyFault (by decide) (by decide) hb
    · by_cases g2 : s.eng.chainLen.toNat < qsize
      · by_cases g3 : s.eng.inFlightDesc s.eng.nextFreeDesc.toNat = true
        · rw [adddescBody, if_neg g1, if_neg (not_not.mpr g2), if_pos g3] at hb
          exact bodyFault (by decide) (by decide) hb
        · have g3' : s.eng.inFlightDesc s.eng.nextFreeDesc.toNat = false := by simpa using g3
          obtain ⟨u, r, -, hs⟩ := adddescBody_spec flags h g1 g2 g3'
          rw [hs] at hb
          cases hb
          refine .described r (fun hlt => ?_) (h3 rfl) (by simpa [contextAllows] using h1) g2 g3'
          intro e he
          simp only [List.mem_cons, List.not_mem_nil, or_false] at he
          rcases he with rfl | rfl | rfl | rfl <;> exact .inr (.inr ⟨s.eng.nextFreeDesc, hlt, by simp⟩)
      · rw [adddescBody, if_neg g1, if_pos g2] at hb
        exact bodyFault (by decide) (by decide) hb
  | publish =>
    refine key publishBody rfl fun h1 _ h3 _ hb => ?_
    by_cases g : 1 ≤ s.eng.chainLen.toNat ∧ s.eng.chainOpen = false
    · obtain ⟨u, idx, r, -, hs⟩ := publishBody_spec h g
      rw [hs] at hb
      cases hb
      refine .published r ?_ (h3 rfl) (by simpa [contextAllows] using h1) g.1
      intro e he
      simp only [List.mem_cons, List.not_mem_nil, or_false] at he
      rcases he with rfl | rfl | rfl
      · exact .inr (.inl ⟨rfl, rfl⟩)
      · exact .inr (.inr ⟨modQ idx, modQ_lt idx, .inl ⟨rfl, rfl⟩⟩)
      · exact .inl ⟨rfl, .inr rfl⟩
    · rw [publishBody, if_neg g] at hb
      exact bodyFault (by decide) (by decide) hb
  | poll =>
    refine key pollBody rfl fun _ _ _ _ hb => ?_
    obtain ⟨u, r, hs⟩ := pollBody_spec h
    rw [hs] at hb
    cases hb
    exact .polled r (by simp [State.names])
  | take =>
    refine key takeBody rfl fun _ _ _ _ hb => ?_
    by_cases g : s.usedIndexNow = s.eng.lastConsumedUsed
    · rw [takeBody, if_neg (by simp [pending, g])] at hb
      exact bodyFault (by decide) (by decide) hb
    · obtain ⟨u, id, len, r, -, hs⟩ := takeBody_spec h g
      rw [hs] at hb
      cases hb
      refine .taken r ?_
      intro e he
      simp only [List.mem_cons, List.not_mem_nil, or_false] at he
      rcases he with rfl | rfl
      · exact .inr ⟨rfl, _, modQ_lt _, .inr rfl⟩
      · exact .inr ⟨rfl, _, modQ_lt _, .inl rfl⟩
  | get q =>
    refine key (getBody q) rfl fun _ _ _ _ hb => ?_
    cases hb
    exact .got
  | install q =>
    refine key (installBody q) rfl fun h1 _ h3 _ hb => ?_
    by_cases g : s.eng.signaled q.toNat = true
    · obtain ⟨u, r, -, hs⟩ := installBody_spec q h g
      rw [hs] at hb
      cases hb
      refine .installed r (fun e he => ?_) (h3 rfl) (by simpa [contextAllows] using h1)
      exact names_byteWrites_start s _ _ _ (by simp [State.payloadBytes]) e he
    · rw [installBody, if_pos (by simpa using g)] at hb
      cases hb
      exact .collided
  | signal q =>
    refine key (signalBody q) rfl fun _ _ _ h4 hb => ?_
    by_cases g : s.eng.inFlightHead q.toNat = true
    · rw [signalBody, if_pos g] at hb
      exact bodyFault (by decide) (by decide) hb
    · rw [signalBody, if_neg g, done, (State.signalSlot_fields s q.toNat).2.2.1] at hb
      cases hb
      exact .signalled (by simpa [slotOk, Instr.slot?] using h4)
  | wait q =>
    refine key (waitBody q) rfl fun h1 h2 _ _ hb => ?_
    by_cases g : s.eng.signaled q.toNat = true
    · rw [waitBody, if_pos g] at hb
      cases hb
      exact .waited
    · rw [waitBody, if_neg g] at hb
      cases hb
      exact .waits (by simpa [contextAllows] using h1) (by simpa using g) h2
  | lock =>
    refine key lockBody rfl fun h1 h2 _ _ hb => ?_
    unfold lockBody at hb
    cases hl : s.eng.lock with
    | free =>
      rw [hl] at hb
      cases hb
      exact .locked hl (by simpa [contextAllows] using h1)
    | held p =>
      rw [hl] at hb
      cases hb
      exact .locks (by rw [hl]; simp) (by simpa [contextAllows] using h1) h2
  | unlock =>
    refine key unlockBody rfl fun h1 _ h3 _ hb => ?_
    have hc : s.cur ≠ 0 := by simpa [contextAllows] using h1
    by_cases g : s.eng.chainLen.toNat = 0
    · rw [unlockBody, if_pos g] at hb
      unfold State.unlocked at hb
      cases hch : choose (s.portsAt .holdLock) s with
      | none =>
        rw [hch] at hb
        cases hb
        exact .freed (h3 rfl) hc ((choose_none_iff _ _).mp hch)
      | some x =>
        obtain ⟨w, v⟩ := x
        obtain ⟨hm, cs, n, rfl⟩ := choose_spec hch
        rw [hch] at hb
        cases hb
        exact .handed (h3 rfl) hc hm
    · rw [unlockBody, if_neg g] at hb
      exact bodyFault (by decide) (by decide) hb
  | irqh =>
    refine key irqhBody rfl fun _ _ _ _ hb => ?_
    obtain ⟨a, ha, r1⟩ := mmioRead_ran .interruptStatus h
    rw [irqhBody, ha, Acc.bind_ok] at hb
    split_ifs at hb with g
    · rw [finish_calm _ _ r1.calm] at hb
      cases hb
      exact .spurious r1.turn (by simp [State.names, Config.readOff])
    · obtain ⟨v, hv, r2, -⟩ := mmioWrite_ran .interruptAck (s.turn.dev.answer .interruptStatus) r1.calm
      rw [hv, Acc.bind_ok] at hb
      have r := r1.trans' r2
      rw [r1.cfg] at r
      obtain ⟨xs, w, u, d, hs, hout⟩ := drain_spec v.drainFuel 0 r.calm (drainNeed_le_fuel v)
      have hes : ∀ e ∈ [Event.mmioW (s.cfg.writeOff .interruptAck) (s.turn.dev.answer .interruptStatus)]
          ++ [.mmioR (s.cfg.readOff .interruptStatus) (s.turn.dev.answer .interruptStatus)], s.names (fun _ => False) e := by
        simp [State.names, Config.readOff, Config.writeOff]
      rw [r.eng] at hout
      rcases hout with ⟨r3, hd⟩ | ⟨x, -, -, r3, hd⟩
      · rw [hd, Acc.bind_ok, finish_calm _ _ r3.calm] at hb
        cases hb
        exact .drained r hes d hs r3.turn (by simp [State.names])
      · rw [hd] at hb
        cases hb
        refine .badId r hes d hs r3 ?_
        intro e he
        simp only [List.mem_cons, List.not_mem_nil, or_false] at he
        rcases he with rfl | rfl | rfl
        · exact .inr ⟨rfl, _, modQ_lt _, .inr rfl⟩
        · exact .inr ⟨rfl, _, modQ_lt _, .inl rfl⟩
        · exact .inl ⟨rfl, .inl rfl⟩

/-- A step with no `RST` to come: the environment's turn alone, or that and the one command taken up. -/
theorem step_calm {s t : State} (hc : s.calm) (hs : step s = .next t) :
    s.eng.pfault = none ∧ (t = s.turn ∨ ∃ p cs n, let v : State := { s.turn with choices := cs, freeCount := n, cur := p }
      p < s.turn.ports.length ∧ (s.turn.port p).work = .outstanding ∧ v.calm ∧ v.running ∧
      ((∃ i, decode (v.port p).sample.word = .instr i ∧ Outcome v i t) ∨ t = v.complete p .illegalCommand)) := by
  have se := State.sameEngine_turn (State.rstNext_calm hc)
  unfold step at hs
  rw [point_calm hc] at hs
  dsimp only at hs
  cases hp : s.turn.eng.pfault with
  | some x => rw [hp] at hs; cases hs
  | none =>
    rw [hp] at hs
    refine ⟨by rw [← se.eng]; exact hp, ?_⟩
    cases ht : takeUp s.turn with
    | none => rw [ht] at hs; left; cases hs; rfl
    | some x =>
      obtain ⟨p, v⟩ := x
      rw [ht] at hs
      dsimp only at hs
      obtain ⟨h1, h2, cs, n, rfl⟩ := takeUp_spec ht
      right
      have hcv : ({ s.turn with choices := cs, freeCount := n, cur := p } : State).calm := State.calm_turn hc
      have hrv : ({ s.turn with choices := cs, freeCount := n, cur := p } : State).running := ⟨h1, h2⟩
      refine ⟨p, cs, n, h1, h2, hcv, hrv, ?_⟩
      unfold runWord at hs
      cases hd : decode (({ s.turn with choices := cs, freeCount := n, cur := p } : State).port p).sample.word with
      | instr i => rw [hd] at hs; exact .inl ⟨i, rfl, exec_outcome hcv hrv hs⟩
      | illegalRsv _ => rw [hd] at hs; right; cases hs; rfl
      | illegalOpc _ => rw [hd] at hs; right; cases hs; rfl

end Sys2Proof.Machine
end

