-- ==== Sys2Proof/Laws/Abandon.lean ====
section
/-! SUPPORT. `RST` during a command (spec/70_reset_and_hazards.md R260): a command either runs as if the moves up to the
next `RST` were all there are, or it is abandoned. So what holds of a step in a calm environment carries over to every
step. -/

namespace Sys2Proof.Machine

/-- What a turn in which `RST` is asserted leaves of the engine's registers, the ports, the parameters, memory. -/
structure Abandoned (s t : State) : Prop where
  cfg : t.cfg = s.cfg
  eng : t.eng = Engine.reset
  length : t.ports.length = s.cfg.nsub + 1
  ports : ∀ q, (t.port q).work = .idle ∨ (t.port q).work = .outstanding
  wf : Memory.wf s.mem → Memory.wf t.mem

theorem Abandoned.of_rst (s : State) : Abandoned s s.afterRst := by
  refine ⟨rfl, rfl, by simp [State.afterRst, Port.resetAll], fun q => ?_, id⟩
  have hp : s.afterRst.port q = Port.reset s.cfg := by
    simp only [State.port, State.afterRst, Port.resetAll, List.getElem?_replicate]
    split_ifs <;> rfl
  rw [hp]
  exact .inl rfl

theorem Abandoned.applyMove {s t : State} (h : Abandoned s t) (m : Move) : Abandoned s (t.applyMove m) := by
  cases hm : m.isRst with
  | false =>
    have k := State.sameEngine_applyMove t hm
    refine ⟨k.cfg.trans h.cfg, k.eng.trans h.eng, k.length.trans h.length, fun q => ?_, fun hw => k.wf (h.wf hw)⟩
    by_cases hb : (t.port q).busy = true
    · rw [((k.ports q).2.1 hb).1]
      exact h.ports q
    · exact (k.ports q).2.2 (by simpa using hb)
  | true =>
    cases m <;> simp [Move.isRst] at hm
    have k := Abandoned.of_rst t
    exact ⟨k.cfg.trans h.cfg, k.eng, k.length.trans (by rw [h.cfg]), k.ports, fun hw => k.wf (h.wf hw)⟩

theorem Abandoned.applyMoves {s t : State} (h : Abandoned s t) (ms : List Move) : Abandoned s (t.applyMoves ms) := by
  induction ms generalizing t with
  | nil => exact h
  | cons m ms ih => exact ih (h.applyMove m)

/-- Before `RST` comes, what is abandoned from a later state is abandoned from an earlier one. -/
theorem Abandoned.earlier {s u t : State} (h : Abandoned u t) (hc : u.cfg = s.cfg) (hw : Memory.wf s.mem → Memory.wf u.mem) :
    Abandoned s t :=
  ⟨h.cfg.trans hc, h.eng, h.length.trans (by rw [hc]), h.ports, fun k => h.wf (hw k)⟩

theorem State.abandoned_applyMoves (s : State) {ms : List Move} (h : ms.any Move.isRst = true) :
    Abandoned s (s.applyMoves ms) := by
  induction ms generalizing s with
  | nil => simp at h
  | cons m ms ih =>
    cases hm : m.isRst with
    | true =>
      cases m <;> simp [Move.isRst] at hm
      exact (Abandoned.of_rst s).applyMoves ms
    | false =>
      have hms : ms.any Move.isRst = true := by simpa [hm] using h
      have k := State.sameEngine_applyMove s hm
      exact (ih (s.applyMove m) hms).earlier k.cfg k.wf

theorem State.abandoned_turn {s : State} (h : s.rstNext = true) : Abandoned s s.turn := by
  unfold State.rstNext at h
  unfold State.turn
  split at h
  · simp at h
  next ms rest hs =>
    have k := State.abandoned_applyMoves { s with script := rest } h
    exact ⟨k.cfg, k.eng, k.length, k.ports, k.wf⟩

/-! A command and what stands in the script behind the moves it makes use of. -/

/-- More moves to come. -/
def State.more (suf : List (List Move)) (s : State) : State := { s with script := s.script ++ suf }

/-- The same end with more moves to come. -/
def Acc.more {α : Type} (suf : List (List Move)) : Acc α → Acc α
  | .ok v s => .ok v (s.more suf)
  | .stop (.next s) => .stop (.next (s.more suf))
  | .stop (.fault f) => .stop (.fault f)
  | .stop (.refused r) => .stop (.refused r)

theorem State.applyMove_more (suf : List (List Move)) (s : State) (m : Move) :
    (s.more suf).applyMove m = (s.applyMove m).more suf := by
  cases m <;> try rfl
  case issue p w =>
    show (s.more suf).issue p w = (s.issue p w).more suf
    unfold State.issue
    have h : (s.more suf).port p = s.port p := rfl
    rw [h, show (s.more suf).cfg = s.cfg from rfl]
    split_ifs <;> rfl

theorem State.applyMoves_more (suf : List (List Move)) (s : State) (ms : List Move) :
    (s.more suf).applyMoves ms = (s.applyMoves ms).more suf := by
  induction ms generalizing s with
  | nil => rfl
  | cons m ms ih =>
    show ((s.more suf).applyMove m).applyMoves ms = _
    rw [State.applyMove_more]
    exact ih _

theorem State.turn_more (suf : List (List Move)) {s : State} (h : s.script ≠ []) :
    (s.more suf).turn = s.turn.more suf := by
  cases hs : s.script with
  | nil => exact absurd hs h
  | cons ms rest =>
    unfold State.turn
    have h2 : (s.more suf).script = ms :: (rest ++ suf) := by simp [State.more, hs]
    rw [h2, hs]
    exact State.applyMoves_more suf { s with script := rest } ms

/-- `x` on `s` in a calm environment, against `y` on the same state with `suf`, an entry with `RST` first, behind its
moves: the same end, or the command is abandoned. -/
def Extends {α : Type} (suf : List (List Move)) (s : State) (x y : Acc α) : Prop :=
  (y = x.more suf ∧ ∀ v u, x = .ok v u → u.calm ∧ u.cfg = s.cfg ∧ (Memory.wf s.mem → Memory.wf u.mem))
    ∨ ∃ t, y = .stop (.next t) ∧ Abandoned s t

theorem Extends.ok {α : Type} {suf : List (List Move)} {s : State} (v : α) {u : State} (h : u.calm) (hc : u.cfg = s.cfg)
    (hw : Memory.wf s.mem → Memory.wf u.mem) : Extends suf s (.ok v u) (.ok v (u.more suf)) :=
  .inl ⟨rfl, fun _ _ k => by cases k; exact ⟨h, hc, hw⟩⟩

theorem Extends.raise {α : Type} {suf : List (List Move)} {s : State} (pf : PF) (u : State) :
    Extends suf s (Machine.raise pf u : Acc α) (Machine.raise pf (u.more suf)) :=
  .inl ⟨rfl, fun _ _ k => by cases k⟩

theorem Extends.bind {α β : Type} {suf : List (List Move)} {s : State} {x y : Acc α} {f g : α → State → Acc β}
    (h : Extends suf s x y)
    (hf : ∀ v u, u.calm → u.cfg = s.cfg → (Memory.wf s.mem → Memory.wf u.mem) →
      Extends suf s (f v u) (g v (u.more suf))) : Extends suf s (x.bind f) (y.bind g) := by
  rcases h with ⟨rfl, hk⟩ | ⟨t, rfl, ht⟩
  · cases x with
    | ok v u =>
      obtain ⟨h1, h2, h3⟩ := hk v u rfl
      exact hf v u h1 h2 h3
    | stop r =>
      refine .inl ⟨?_, fun _ _ k => by cases k⟩
      cases r <;> rfl
  · exact .inr ⟨t, rfl, ht⟩

/-- The start of a part of a command may be moved back. -/
theorem Extends.earlier {α : Type} {suf : List (List Move)} {s u : State} {x y : Acc α} (h : Extends suf u x y)
    (hc : u.cfg = s.cfg) (hw : Memory.wf s.mem → Memory.wf u.mem) : Extends suf s x y := by
  rcases h with ⟨rfl, hk⟩ | ⟨t, rfl, ht⟩
  · exact .inl ⟨rfl, fun v w k => ⟨(hk v w k).1, (hk v w k).2.1.trans hc, fun hm => (hk v w k).2.2 (hw hm)⟩⟩
  · exact .inr ⟨t, rfl, ht.earlier hc hw⟩

variable {suf : List (List Move)} (hsuf : ∃ ms rest, suf = ms :: rest ∧ ms.any Move.isRst = true)
include hsuf

theorem point_extends {s : State} (h : s.calm) : Extends suf s (point s) (point (s.more suf)) := by
  by_cases hs : s.script = []
  · obtain ⟨ms, rest, rfl, hr⟩ := hsuf
    have h1 : (s.more (ms :: rest)).rstNext = true := by
      simp only [State.rstNext, State.more, hs, List.nil_append]
      exact hr
    refine .inr ⟨_, by rw [point, if_pos h1], ?_⟩
    have k := State.abandoned_turn h1
    exact ⟨k.cfg, k.eng, k.length, k.ports, k.wf⟩
  · have h1 : (s.more suf).rstNext = false := by
      have h0 := State.rstNext_calm h
      cases hc : s.script with
      | nil => exact absurd hc hs
      | cons ms rest =>
        simp only [State.rstNext, State.more, hc, List.cons_append] at h0 ⊢
        exact h0
    rw [point_calm h, point, h1, State.turn_more suf hs]
    have k := State.sameEngine_turn (State.rstNext_calm h)
    exact Extends.ok () (State.calm_turn h) k.cfg k.wf

theorem mmioRead_extends (r : ReadReg) {s : State} (h : s.calm) :
    Extends suf s (mmioRead r s) (mmioRead r (s.more suf)) :=
  (point_extends hsuf h).bind fun _ u h1 h2 h3 => Extends.ok (u := u.log _) _ h1 h2 h3

theorem mmioWrite_extends (r : WriteReg) (v : U32) {s : State} (h : s.calm) :
    Extends suf s (mmioWrite r v s) (mmioWrite r v (s.more suf)) :=
  (point_extends hsuf h).bind fun _ u h1 h2 h3 => Extends.ok (u := (u.setDev _).log _) _ h1 h2 h3

theorem memRead_extends (a : U64) (n : Nat) {s : State} (h : s.calm) :
    Extends suf s (memRead a n s) (memRead a n (s.more suf)) :=
  (point_extends hsuf h).bind fun _ u h1 h2 h3 => Extends.ok (u := u.log _) _ h1 h2 h3

theorem memRead16_extends (a : U64) {s : State} (h : s.calm) :
    Extends suf s (memRead16 a s) (memRead16 a (s.more suf)) :=
  (memRead_extends hsuf a 2 h).bind fun _ u h1 h2 h3 => Extends.ok (u := u) _ h1 h2 h3

theorem memRead32_extends (a : U64) {s : State} (h : s.calm) :
    Extends suf s (memRead32 a s) (memRead32 a (s.more suf)) :=
  (memRead_extends hsuf a 4 h).bind fun _ u h1 h2 h3 => Extends.ok (u := u) _ h1 h2 h3

theorem memWrite_extends (a : U64) (n v : Nat) {s : State} (h : s.calm) :
    Extends suf s (memWrite a n v s) (memWrite a n v (s.more suf)) :=
  (point_extends hsuf h).bind fun _ u h1 h2 h3 =>
    Extends.ok (u := (u.setMem _).log _) _ h1 h2 fun hw => Memory.wf_store a _ (h3 hw)

theorem storeTorn_extends (a : U64) (bs : List Byte) {s : State} (h : s.calm) :
    Extends suf s (storeTorn a bs s) (storeTorn a bs (s.more suf)) := by
  induction bs generalizing s a with
  | nil => exact Extends.ok () h rfl id
  | cons b bs ih =>
    refine (point_extends hsuf h).bind fun _ u h1 h2 h3 => ?_
    exact (ih (a + 1) (s := u.setMem (u.mem.write a.toNat b)) h1).earlier h2 fun hw => Memory.wf_write b a.isLt (h3 hw)

theorem memWrite64_extends (a v : U64) {s : State} (h : s.calm) :
    Extends suf s (memWrite64 a v s) (memWrite64 a v (s.more suf)) :=
  (storeTorn_extends hsuf a _ h).bind fun _ u h1 h2 h3 => Extends.ok (u := u.log _) _ h1 h2 h3

theorem memWriteBytes_extends (a : U64) (bs : List Byte) {s : State} (h : s.calm) :
    Extends suf s (memWriteBytes a bs s) (memWriteBytes a bs (s.more suf)) := by
  induction bs generalizing s a with
  | nil => exact Extends.ok () h rfl id
  | cons b bs ih =>
    exact (memWrite_extends hsuf a 1 b.toNat h).bind fun _ u h1 h2 h3 => (ih (a + 1) h1).earlier h2 h3

theorem setStatus_extends (bit : U32) {s : State} (h : s.calm) :
    Extends suf s (setStatus bit s) (setStatus bit (s.more suf)) :=
  (mmioRead_extends hsuf .status h).bind fun _ _ h1 h2 h3 => (mmioWrite_extends hsuf .status _ h1).earlier h2 h3

theorem takeEntry_extends {s : State} (h : s.calm) : Extends suf s (takeEntry s) (takeEntry (s.more suf)) :=
  (memRead32_extends hsuf _ h).bind fun _ u h1 h2 h3 =>
    ((memRead32_extends hsuf (u.eng.usedLenAddr (modQ u.eng.lastConsumedUsed)) h1).earlier h2 h3).bind
      fun _ _ k1 k2 k3 => ((point_extends hsuf k1).earlier k2 k3).bind
        fun _ w k1 k2 k3 => Extends.ok (u := w.setEng Engine.advanced) _ k1 k2 k3

omit hsuf in
theorem done_extends (e : ErrVal) {s u : State} (h1 : u.calm) (h2 : u.cfg = s.cfg)
    (h3 : Memory.wf s.mem → Memory.wf u.mem) : Extends suf s (done e u) (done e (u.more suf)) :=
  Extends.ok (u := u.complete u.cur e) _ h1 h2 h3

/-- The end of a command that has made accesses: `f` and `g` are its update, which touches neither what is to come nor
memory. -/
theorem finish_extends (e : ErrVal) {f g : State → State} {s u : State} (h1 : u.calm) (h2 : u.cfg = s.cfg)
    (h3 : Memory.wf s.mem → Memory.wf u.mem)
    (hf : ∀ w : State, w.calm → (f w).calm ∧ (f w).cfg = w.cfg ∧ (f w).mem = w.mem ∧ g (w.more suf) = (f w).more suf) :
    Extends suf s (finish e f u) (finish e g (u.more suf)) :=
  ((point_extends hsuf h1).earlier h2 h3).bind fun _ w k1 k2 k3 => by
    obtain ⟨l1, l2, l3, l4⟩ := hf w k1
    rw [l4]
    exact done_extends e l1 (l2.trans k2) fun hw => l3 ▸ k3 hw

omit hsuf in
theorem State.release_more (s : State) (ps : List Nat) : (s.more suf).release ps = (s.release ps).more suf := by
  induction ps generalizing s with
  | nil => rfl
  | cons p ps ih => exact ih (s.complete p .ok)

omit hsuf in
theorem State.signalSlot_more (s : State) (i : Nat) : (s.more suf).signalSlot i = (s.signalSlot i).more suf :=
  State.release_more ((s.setEng fun e => { e with completion := setSignaled e.completion i }).log (.signal i))
    (s.portsAt (.holdWait i))

theorem drain_extends (fuel : Nat) (n : U32) {s : State} (h : s.calm) :
    Extends suf s (drain fuel n s) (drain fuel n (s.more suf)) := by
  induction fuel generalizing n s with
  | zero => exact Extends.ok _ h rfl id
  | succ f ih =>
    rw [drain_succ, drain_succ]
    refine (memRead16_extends hsuf _ h).bind fun v u h1 h2 h3 => ?_
    by_cases hp : pending v u.eng.lastConsumedUsed = true
    · rw [if_pos hp, if_pos (show pending v (u.more suf).eng.lastConsumedUsed = true from hp)]
      refine ((takeEntry_extends hsuf h1).earlier h2 h3).bind fun e w k1 k2 k3 => ?_
      by_cases he : e.1.toNat < qsize
      · rw [if_pos he, if_pos he]
        obtain ⟨f1, -, -, f4, -, f6, -⟩ := State.signalSlot_fields (w.landed e.1) e.1.toNat
        have hc : ((w.landed e.1).signalSlot e.1.toNat).calm := by
          intro ms hms
          rw [f6] at hms
          exact k1 ms hms
        have := ih (n + 1) hc
        rw [← State.signalSlot_more] at this
        exact this.earlier (f1.trans k2) fun hw => by rw [f4]; exact k3 hw
      · rw [if_neg he, if_neg he]
        exact Extends.raise .pf7 w
    · rw [if_neg hp, if_neg (show ¬ pending v (u.more suf).eng.lastConsumedUsed = true from hp)]
      exact Extends.ok _ h1 h2 h3

/-- The end of a command with more moves to come. -/
def State.moreResult (suf : List (List Move)) : Result → Result
  | .next s => .next (s.more suf)
  | .fault f => .fault f
  | .refused r => .refused r

omit hsuf in
theorem Extends.result {s : State} {x y : Acc Unit} (h : Extends suf s x y) :
    y.result = State.moreResult suf x.result ∨ ∃ t, y.result = .next t ∧ Abandoned s t := by
  rcases h with ⟨rfl, -⟩ | ⟨t, rfl, ht⟩
  · left
    cases x with
    | ok v u => rfl
    | stop r => cases r <;> rfl
  · exact .inr ⟨t, rfl, ht⟩

omit hsuf in
theorem choose_more (cands : List Nat) (s : State) :
    choose cands (s.more suf) = (choose cands s).map fun c => (c.1, c.2.more suf) := by
  have hf : ∀ c cs, choose.freeChoice c cs (s.more suf)
      = ((choose.freeChoice c cs s).1, (choose.freeChoice c cs s).2.more suf) := fun _ _ => rfl
  unfold choose
  split
  · rfl
  · rfl
  next c cs _ =>
    have hc : (s.more suf).choices = s.choices := rfl
    rw [hc]
    split
    · rw [hf]
      split_ifs <;> rfl
    · rw [hf]
      rfl

omit hsuf in
theorem State.unlocked_more (s : State) : (s.more suf).unlocked = s.unlocked.more suf := by
  unfold State.unlocked
  rw [show (s.more suf).portsAt .holdLock = s.portsAt .holdLock from rfl, choose_more]
  cases choose (s.portsAt .holdLock) s <;> rfl

/-- A command with `RST` to come some time: its calm end, or it is abandoned. -/
theorem exec_extends (i : Instr) {s : State} (h : s.calm) :
    exec i (s.more suf) = State.moreResult suf (exec i s) ∨ ∃ t, exec i (s.more suf) = .next t ∧ Abandoned s t := by
  have cmd : ∀ body : State → Acc Unit, Extends suf s (body s) (body (s.more suf)) →
      command i body (s.more suf) = State.moreResult suf (command i body s)
        ∨ ∃ t, command i body (s.more suf) = .next t ∧ Abandoned s t := by
    intro body hb
    refine Extends.result (s := s) ?_
    unfold checks
    rw [show (s.more suf).cur = s.cur from rfl, show (s.more suf).eng = s.eng from rfl]
    split_ifs
    · exact Extends.raise .pf5 s
    · exact Extends.raise .pf6 s
    · exact Extends.raise .pf4 s
    · exact Extends.raise .pf7 s
    · exact hb
  cases i with
  | negotiate =>
    refine cmd negotiateBody ((mmioWrite_extends hsuf .status 0 h).bind fun _ u h1 h2 h3 => ?_)
    refine ((setStatus_extends hsuf u.cfg.stAcknowledge h1).earlier h2 h3).bind fun _ u h1 h2 h3 => ?_
    refine ((setStatus_extends hsuf u.cfg.stDriver h1).earlier h2 h3).bind fun _ u h1 h2 h3 => ?_
    refine ((mmioRead_extends hsuf .hostFeatures h1).earlier h2 h3).bind fun hf u h1 h2 h3 => ?_
    refine ((mmioWrite_extends hsuf .guestFeatures (hf &&& low32 u.operands.a0) h1).earlier h2 h3).bind
      fun _ v h1 h2 h3 => ?_
    refine ((setStatus_extends hsuf v.cfg.stFeaturesOk h1).earlier h2 h3).bind fun _ u h1 h2 h3 => ?_
    refine ((mmioRead_extends hsuf .status h1).earlier h2 h3).bind fun s4 w h1 h2 h3 => ?_
    by_cases hz : s4 &&& w.cfg.stFeaturesOk = 0
    · rw [if_pos hz, if_pos (show s4 &&& (w.more suf).cfg.stFeaturesOk = 0 from hz)]
      exact finish_extends hsuf _ h1 h2 h3 fun _ hw => ⟨hw, rfl, rfl, rfl⟩
    · rw [if_neg hz, if_neg (show ¬ s4 &&& (w.more suf).cfg.stFeaturesOk = 0 from hz)]
      exact finish_extends hsuf _ h1 h2 h3 fun _ hw => ⟨hw, rfl, rfl, rfl⟩
  | cfgring index =>
    refine cmd (cfgringBody index) ((mmioWrite_extends hsuf .queueSel (zext32 index) h).bind fun _ u h1 h2 h3 => ?_)
    refine ((mmioRead_extends hsuf .queueNumMax h1).earlier h2 h3).bind fun max u h1 h2 h3 => ?_
    by_cases hm : max < low32 s.operands.a0
    · rw [if_pos hm, if_pos (show max < low32 (s.more suf).operands.a0 from hm)]
      exact finish_extends hsuf _ h1 h2 h3 fun _ hw => ⟨hw, rfl, rfl, rfl⟩
    · rw [if_neg hm, if_neg (show ¬ max < low32 (s.more suf).operands.a0 from hm)]
      refine ((mmioWrite_extends hsuf .queueNum _ h1).earlier h2 h3).bind fun _ u h1 h2 h3 => ?_
      refine ((mmioWrite_extends hsuf .guestPageSize _ h1).earlier h2 h3).bind fun _ u h1 h2 h3 => ?_
      refine ((mmioWrite_extends hsuf .queuePfn _ h1).earlier h2 h3).bind fun _ u h1 h2 h3 => ?_
      exact finish_extends hsuf _ h1 h2 h3 fun _ hw => ⟨hw, rfl, rfl, rfl⟩
  | drvok =>
    refine cmd drvokBody ((setStatus_extends hsuf s.cfg.stDriverOk h).bind fun _ u h1 h2 h3 => ?_)
    exact finish_extends hsuf _ h1 h2 h3 fun _ hw => ⟨hw, rfl, rfl, rfl⟩
  | notify q =>
    exact cmd (notifyBody q) ((mmioWrite_extends hsuf .queueNotify _ h).bind fun _ u h1 h2 h3 => finish_extends hsuf _ h1 h2 h3 fun _ hw => ⟨hw, rfl, rfl, rfl⟩)
  | ipend =>
    refine cmd ipendBody ((mmioRead_extends hsuf .interruptStatus h).bind fun v u h1 h2 h3 => ?_)
    exact finish_extends hsuf _ h1 h2 h3 fun _ hw => ⟨hw, rfl, rfl, rfl⟩
  | qinit =>
    refine cmd qinitBody ?_
    unfold qinitBody
    by_cases hf : s.layoutFits s.operands.a0
    · rw [if_pos hf, if_pos (show (s.more suf).layoutFits (s.more suf).operands.a0 from hf)]
      have k := (memWriteBytes_extends hsuf (zext64 s.eng.cfgPfn * zext64 s.eng.cfgPage)
        (List.replicate (ringPages * pageBytes) 0)
        (s := s.setEng fun e => { e with qbase := zext64 e.cfgPfn * zext64 e.cfgPage, poolBase := s.operands.a0 }) h).earlier
        (s := s) rfl id
      exact k.bind fun _ u h1 h2 h3 => finish_extends hsuf _ h1 h2 h3 fun _ hw => ⟨hw, rfl, rfl, rfl⟩
    · rw [if_neg hf, if_neg (show ¬ (s.more suf).layoutFits (s.more suf).operands.a0 from hf)]
      exact Extends.raise .pf9 s
  | alloc => exact cmd allocBody (done_extends (u := s.setR0 _) _ h rfl id)
  | adddesc flags =>
    refine cmd (adddescBody flags) ?_
    unfold adddescBody
    rw [show (s.more suf).eng = s.eng from rfl]
    split_ifs
    · exact Extends.raise .pf2 s
    · exact Extends.raise .pf8 s
    · refine (memWrite64_extends hsuf _ _ h).bind fun _ u h1 h2 h3 => ?_
      refine ((memWrite_extends hsuf _ 4 _ h1).earlier h2 h3).bind fun _ u h1 h2 h3 => ?_
      refine ((memWrite_extends hsuf _ 2 _ h1).earlier h2 h3).bind fun _ u h1 h2 h3 => ?_
      refine ((memWrite_extends hsuf _ 2 _ h1).earlier h2 h3).bind fun _ u h1 h2 h3 => ?_
      exact finish_extends hsuf _ h1 h2 h3 fun _ hw => ⟨hw, rfl, rfl, rfl⟩
    · exact Extends.raise .pf1 s
  | publish =>
    refine cmd publishBody ?_
    unfold publishBody
    rw [show (s.more suf).eng = s.eng from rfl]
    split_ifs
    · refine (memRead16_extends hsuf _ h).bind fun idx u h1 h2 h3 => ?_
      refine ((memWrite_extends hsuf _ 2 _ h1).earlier h2 h3).bind fun _ u h1 h2 h3 => ?_
      refine ((memWrite_extends hsuf _ 2 _ h1).earlier h2 h3).bind fun _ u h1 h2 h3 => ?_
      exact finish_extends hsuf _ h1 h2 h3 fun _ hw => ⟨hw, rfl, rfl, rfl⟩
    · exact Extends.raise .pf2 s
  | poll =>
    refine cmd pollBody ((memRead16_extends hsuf _ h).bind fun v u h1 h2 h3 => ?_)
    exact finish_extends hsuf _ h1 h2 h3 fun _ hw => ⟨hw, rfl, rfl, rfl⟩
  | take =>
    refine cmd takeBody ?_
    unfold takeBody
    rw [show (s.more suf).usedIndexNow = s.usedIndexNow from rfl, show (s.more suf).eng = s.eng from rfl]
    split_ifs
    · refine (takeEntry_extends hsuf h).bind fun e u h1 h2 h3 => ?_
      exact done_extends (u := ((u.landed _).setR0 _).setR1 _) _ h1 h2 h3
    · exact Extends.raise .pf3 s
  | get q => exact cmd (getBody q) (done_extends (u := (s.setR0 _).setR1 _) _ h rfl id)
  | install q =>
    refine cmd (installBody q) ?_
    unfold installBody
    rw [show (s.more suf).eng = s.eng from rfl]
    split_ifs
    · exact done_extends _ h rfl id
    · refine (memWriteBytes_extends hsuf _ _ h).bind fun _ u h1 h2 h3 => ?_
      exact finish_extends hsuf _ h1 h2 h3 fun _ hw => ⟨hw, rfl, rfl, rfl⟩
  | signal q =>
    refine cmd (signalBody q) ?_
    unfold signalBody
    rw [show (s.more suf).eng = s.eng from rfl, State.signalSlot_more]
    split_ifs
    · exact Extends.raise .pf8 s
    · obtain ⟨f1, -, -, f4, -, f6, -⟩ := State.signalSlot_fields s q.toNat
      exact done_extends _ (by intro ms hms; rw [f6] at hms; exact h ms hms) f1 (by rw [f4]; exact id)
  | wait q =>
    refine cmd (waitBody q) ?_
    unfold waitBody
    rw [show (s.more suf).eng = s.eng from rfl]
    split_ifs
    · exact done_extends _ h rfl id
    · exact Extends.ok (u := s.setPort _ _) () h rfl id
  | lock =>
    refine cmd lockBody ?_
    unfold lockBody
    rw [show (s.more suf).eng = s.eng from rfl]
    cases s.eng.lock with
    | free => exact done_extends (u := s.setLock _) _ h rfl id
    | held p => exact Extends.ok (u := s.setPort _ _) () h rfl id
  | unlock =>
    refine cmd unlockBody ?_
    unfold unlockBody
    rw [show (s.more suf).eng = s.eng from rfl, State.unlocked_more]
    split_ifs
    · unfold State.unlocked
      cases hch : choose (s.portsAt .holdLock) s with
      | none => exact done_extends (u := s.setLock _) _ h rfl id
      | some x =>
        obtain ⟨w, v⟩ := x
        obtain ⟨-, cs, n, rfl⟩ := choose_spec hch
        exact done_extends (u := (State.setLock _ _).complete w .ok) _ h rfl id
    · exact Extends.raise .pf2 s
  | irqh =>
    refine cmd irqhBody ((mmioRead_extends hsuf .interruptStatus h).bind fun v u h1 h2 h3 => ?_)
    split_ifs
    · exact finish_extends hsuf _ h1 h2 h3 fun _ hw => ⟨hw, rfl, rfl, rfl⟩
    · refine ((mmioWrite_extends hsuf .interruptAck v h1).earlier h2 h3).bind fun _ w h1 h2 h3 => ?_
      have hfuel : drain w.drainFuel 0 w = drain (w.more suf).drainFuel 0 w := by
        refine drain_enough _ _ _ _ (drainNeed_le_fuel w) ((drainNeed_le_fuel w).trans ?_)
        simp only [State.drainFuel, State.more, List.length_append]
        omega
      rw [hfuel]
      refine ((drain_extends hsuf _ 0 h1).earlier h2 h3).bind fun n x h1 h2 h3 => ?_
      exact finish_extends hsuf _ h1 h2 h3 fun _ hw => ⟨hw, rfl, rfl, rfl⟩

omit hsuf in
/-- A script is its moves before the first `RST`, and the rest. -/
theorem State.script_split (s : State) : ∃ (c : State) (suf : List (List Move)), s = c.more suf ∧ c.calm
    ∧ (suf = [] ∨ ∃ ms rest, suf = ms :: rest ∧ ms.any Move.isRst = true) := by
  have key : ∀ l : List (List Move), ∃ pre suf : List (List Move), l = pre ++ suf ∧ (∀ ms ∈ pre, ∀ m ∈ ms, m.isRst = false)
      ∧ (suf = [] ∨ ∃ ms rest, suf = ms :: rest ∧ ms.any Move.isRst = true) := by
    intro l
    induction l with
    | nil => exact ⟨[], [], rfl, by simp, .inl rfl⟩
    | cons ms l ih =>
      cases hm : ms.any Move.isRst with
      | true => exact ⟨[], ms :: l, rfl, by simp, .inr ⟨ms, l, rfl, hm⟩⟩
      | false =>
        obtain ⟨pre, suf, rfl, h1, h2⟩ := ih
        refine ⟨ms :: pre, suf, rfl, fun x hx => ?_, h2⟩
        rcases List.mem_cons.mp hx with rfl | hx
        · simpa using hm
        · exact h1 x hx
  obtain ⟨pre, suf, h1, h2, h3⟩ := key s.script
  exact ⟨{ s with script := pre }, suf, by simp only [State.more, ← h1], h2, h3⟩

omit hsuf in
/-- A step runs as if `RST` never came, or ends abandoned. -/
theorem step_calm_or_abandoned {s t : State} (h : step s = .next t) :
    Abandoned s t ∨ ∃ (c d : State) (suf : List (List Move)), c.calm ∧ step c = .next d ∧ s = c.more suf ∧ t = d.more suf := by
  obtain ⟨c, suf, rfl, hc, rfl | hs⟩ := State.script_split s
  · have hm : ∀ x : State, x.more [] = x := fun x => by simp [State.more]
    rw [hm] at h
    exact .inr ⟨c, t, [], hc, h, rfl, (hm t).symm⟩
  · have hp := point_extends hs hc
    unfold step at h
    rcases hp with ⟨hp, -⟩ | ⟨u, hp, ha⟩
    · rw [hp, point_calm hc] at h
      dsimp only [Acc.more] at h
      have k := State.sameEngine_turn (State.rstNext_calm hc)
      have hstep : step c = match c.turn.eng.pfault with
          | some pf => .fault (.protocol pf)
          | none =>
            match takeUp c.turn with
            | none => .next c.turn
            | some (p, s) => runWord (s.port p).sample.word s := by
        rw [step, point_calm hc]
        first | done | rfl
      rw [show (c.turn.more suf).eng = c.turn.eng from rfl] at h
      cases hpf : c.turn.eng.pfault with
      | some pf => rw [hpf] at h; cases h
      | none =>
        rw [hpf] at h hstep
        have ht : takeUp (c.turn.more suf) = (takeUp c.turn).map fun x => (x.1, x.2.more suf) := by
          unfold takeUp
          rw [show (c.turn.more suf).portsAt .outstanding = c.turn.portsAt .outstanding from rfl, choose_more]
          cases choose (c.turn.portsAt .outstanding) c.turn <;> rfl
        rw [ht] at h
        cases hu : takeUp c.turn with
        | none =>
          rw [hu] at h hstep
          cases h
          exact .inr ⟨c, c.turn, suf, hc, hstep, rfl, rfl⟩
        | some x =>
          obtain ⟨p, v⟩ := x
          rw [hu] at h hstep
          dsimp only [Option.map_some] at h hstep
          have hv : v.calm ∧ v.cfg = c.cfg ∧ (Memory.wf c.mem → Memory.wf v.mem) := by
            obtain ⟨-, -, cs, n, rfl⟩ := takeUp_spec hu
            exact ⟨State.calm_turn hc, k.cfg, k.wf⟩
          rw [show (v.more suf).port p = v.port p from rfl] at h
          unfold runWord at h hstep
          cases hd : decode (v.port p).sample.word with
          | instr i =>
            rw [hd] at h hstep
            dsimp only at h hstep
            rcases exec_extends hs i hv.1 with he | ⟨w, he, ha⟩
            · rw [he] at h
              cases hx : exec i v with
              | next d => rw [hx] at h hstep; cases h; exact .inr ⟨c, d, suf, hc, hstep, rfl, rfl⟩
              | fault f => rw [hx] at h; cases h
              | refused r => rw [hx] at h; cases h
            · rw [he] at h
              cases h
              have := ha.earlier hv.2.1 hv.2.2
              exact .inl ⟨this.cfg, this.eng, this.length, this.ports, this.wf⟩
          | illegalRsv r =>
            rw [hd] at h hstep
            cases h
            exact .inr ⟨c, v.complete v.cur .illegalCommand, suf, hc, hstep, rfl, rfl⟩
          | illegalOpc r =>
            rw [hd] at h hstep
            cases h
            exact .inr ⟨c, v.complete v.cur .illegalCommand, suf, hc, hstep, rfl, rfl⟩
    · rw [hp] at h
      cases h
      exact .inl ⟨ha.cfg, ha.eng, ha.length, ha.ports, ha.wf⟩

end Sys2Proof.Machine
end

