-- ==== Sys2Proof/Laws/Chain.lean ====
section
/-! SUPPORT. The chain bookkeeping (spec/10_state.md R30, R59): what ADDDESC, PUBLISH, TAKE and IRQH do to it. -/

namespace Sys2Proof.Machine

/-- Both parts of the bookkeeping. -/
abbrev Engine.bookOk (e : Engine) : Prop := e.chainOk ∧ e.flightOk

theorem SMap.pairwise_insert {β} {R : Nat × β → Nat × β → Prop} (hs : ∀ a b, R a b → R b a) (k : Nat) (v : β)
    {m : SMap β} (h : m.Pairwise R) (hk : ∀ e ∈ m, e.1 ≠ k → R (k, v) e) (hsort : SMap.Sorted m) :
    (SMap.insert k v m).Pairwise R := by
  induction m with
  | nil => simp [SMap.insert]
  | cons f m ih =>
    obtain ⟨j, w⟩ := f
    have hj := List.pairwise_cons.mp h
    have hso := List.pairwise_cons.mp hsort
    simp only [SMap.insert]
    split_ifs with h1 h2
    · refine List.pairwise_cons.mpr ⟨fun e he => hk e he ?_, h⟩
      rcases List.mem_cons.mp he with rfl | he
      · exact (by show j ≠ k; omega)
      · have := hso.1 e he; omega
    · subst h2
      exact List.pairwise_cons.mpr ⟨fun e he => hk e (List.mem_cons_of_mem _ he) (by have := hso.1 e he; simp at this; omega), hj.2⟩
    · refine List.pairwise_cons.mpr ⟨fun e he => ?_, ih hj.2 (fun e he => hk e (List.mem_cons_of_mem _ he)) hso.2⟩
      rcases SMap.mem_insert he with rfl | he
      · exact hs _ _ (hk _ (List.mem_cons_self ..) (by show j ≠ k; omega))
      · exact hj.1 e he

theorem chain_congr {e f : Engine} (h : Engine.bookOk e) (h1 : f.nextFreeDesc = e.nextFreeDesc)
    (h2 : f.chainHead = e.chainHead) (h3 : f.chainLen = e.chainLen) (h4 : f.inflight = e.inflight) : Engine.bookOk f := by
  unfold Engine.bookOk Engine.chainOk Engine.flightOk at *; rw [h1, h2, h3, h4]; exact h

theorem chain_erase {e f : Engine} {k : Nat} (h : Engine.bookOk e) (h1 : f.nextFreeDesc = e.nextFreeDesc)
    (h2 : f.chainHead = e.chainHead) (h3 : f.chainLen = e.chainLen) (h4 : f.inflight = SMap.erase k e.inflight)
    : Engine.bookOk f := by
  unfold Engine.bookOk Engine.chainOk Engine.flightOk at *; rw [h1, h2, h3, h4]
  obtain ⟨a, b, c, d, g⟩ := h
  refine ⟨a, SMap.sorted_erase k b, fun x hx => c x (SMap.mem_erase.mp hx).1, d.sublist List.filter_sublist, fun x hx => g x (SMap.mem_erase.mp hx).1⟩

theorem chain_erases {e f : Engine} {ks : List Nat} (h : Engine.bookOk e) (h1 : f.nextFreeDesc = e.nextFreeDesc)
    (h2 : f.chainHead = e.chainHead) (h3 : f.chainLen = e.chainLen)
    (h4 : f.inflight = ks.foldl (fun m i => SMap.erase i m) e.inflight) : Engine.bookOk f := by
  induction ks generalizing e with
  | nil => exact chain_congr h h1 h2 h3 h4
  | cons k ks ih => 
    exact ih (e := { e with inflight := SMap.erase k e.inflight }) (chain_erase h rfl rfl rfl rfl) h1 h2 h3 h4

theorem chain_reset : Engine.bookOk Engine.reset := ⟨by decide, by decide⟩

theorem mem_chainIndices {h l : U16} {i : Nat} : i ∈ chainIndices h l ↔ ∃ k < l.toNat, (h.toNat + k) % 128 = i := by
  simp [chainIndices]

/-- One more descriptor keeps it (spec/41_ring_transport_ops.md R163). -/
theorem chain_described {e : Engine} {c : Bool} (h : Engine.bookOk e) (h1 : e.chainLen.toNat < 128)
    (h2 : e.inFlightDesc e.nextFreeDesc.toNat = false) : Engine.bookOk (e.described c) := by
  obtain ⟨⟨a1, a2, a3, a4⟩, b1, b2, b3, b4⟩ := h
  have hlen : (chainLenSucc e.chainLen).toNat = e.chainLen.toNat + 1 := by
    unfold chainLenSucc
    rw [if_pos (by omega), BitVec.toNat_add, show (1:U16).toNat = 1 from rfl]
    omega
  have hn : (modQ (e.nextFreeDesc + 1)).toNat = (e.nextFreeDesc.toNat + 1) % 128 := by
    simp only [modQ, BitVec.toNat_umod, BitVec.toNat_add, show (1:U16).toNat = 1 from rfl, show (128:U16).toNat = 128 from rfl]
    omega
  refine ⟨⟨?_, a2, ?_, ?_⟩, b1, b2, b3, ?_⟩
  · show (modQ _).toNat < _
    rw [hn]; exact Nat.mod_lt _ (by decide)
  · show (chainLenSucc _).toNat ≤ _
    rw [hlen]; exact h1
  · show (modQ _).toNat = (_ + (chainLenSucc _).toNat) % _
    rw [hn, hlen, a4]; simp only [qsize]; simp [Engine.described]; omega
  · intro c hc i hi hi'
    rw [mem_chainIndices] at hi'
    obtain ⟨k, hk, rfl⟩ := hi'
    have hk' : k < e.chainLen.toNat + 1 := by rw [← hlen]; exact hk
    by_cases hkk : k < e.chainLen.toNat
    · exact b4 c hc _ hi (mem_chainIndices.mpr ⟨k, hkk, rfl⟩)
    · have : k = e.chainLen.toNat := by omega
      subst this
      have hx : (e.chainHead.toNat + e.chainLen.toNat) % 128 = e.nextFreeDesc.toNat := a4.symm
      have hi2 : e.nextFreeDesc.toNat ∈ c.2 := by rw [← hx]; exact hi
      have : e.inFlightDesc e.nextFreeDesc.toNat = true := by
        unfold Engine.inFlightDesc
        simp only [List.any_eq_true]
        exact ⟨c, hc, by simpa using hi2⟩
      rw [h2] at this; cases this

theorem nodup_chainIndices {h l : U16} (hl : l.toNat ≤ 128) : (chainIndices h l).Nodup := by
  unfold chainIndices
  refine List.Nodup.map_on ?_ List.nodup_range
  intro x hx y hy hxy
  have hq : qsize = 128 := rfl
  simp only [List.mem_range, hq] at hx hy hxy
  omega

/-- Publication keeps it (spec/41_ring_transport_ops.md R164). -/
theorem chain_published {e : Engine} (h : Engine.bookOk e) (h1 : 1 ≤ e.chainLen.toNat) : Engine.bookOk e.published := by
  obtain ⟨⟨a1, a2, a3, a4⟩, b1, b2, b3, b4⟩ := h
  have hh : e.chainHead.toNat ∈ chainIndices e.chainHead e.chainLen := mem_chainIndices.mpr ⟨0, by omega, by simp at a2 ⊢; omega⟩
  have hz : chainIndices e.nextFreeDesc 0 = [] := rfl
  refine ⟨⟨a1, a1, Nat.zero_le _, ?_⟩, SMap.sorted_insert _ _ b1, ?_, ?_, ?_⟩
  · show e.nextFreeDesc.toNat = (e.nextFreeDesc.toNat + 0) % _
    rw [Nat.add_zero, Nat.mod_eq_of_lt a1]
  · intro c hc
    rcases SMap.mem_insert hc with rfl | hc
    · exact ⟨hh, nodup_chainIndices a3, fun i hi => by obtain ⟨k, _, rfl⟩ := mem_chainIndices.mp hi; exact Nat.mod_lt _ (by decide)⟩
    · exact b2 c hc
  · refine SMap.pairwise_insert (R := fun c d => disjointLists c.2 d.2) (fun a b hab i hi hi' => hab i hi' hi) _ _ b3 (fun x hx _ i hi hi' => b4 x hx i hi' hi) b1
  · intro c _ i _ hi
    change i ∈ chainIndices e.nextFreeDesc 0 at hi
    rw [hz] at hi; cases hi

/-- Every outcome of a command keeps it. -/
theorem Outcome.chain {s t : State} {i : Instr} (hi : Engine.bookOk s.eng) (h : Outcome s i t) : Engine.bookOk t.eng := by
  cases h with
  | fault h5 h6 => exact chain_congr hi rfl rfl rfl rfl
  | featureFail r h | negotiated r h | sizeTooSmall r h | configured r h | live r h | notified r h | statusRead r h | polled r h
  | spurious r h | installed r h => exact chain_congr hi (by simp [r.eng]) (by simp [r.eng]) (by simp [r.eng]) (by simp [r.eng])
  | taken r h => exact chain_erase hi (by simp [r.eng, Engine.advanced]) (by simp [r.eng, Engine.advanced]) (by simp [r.eng, Engine.advanced]) (by simp [r.eng, Engine.advanced]; rfl)
  | described r h hl hc h1 h2 => 
    simp only [State.complete_eng, State.setEng_eng, r.eng]; exact chain_described hi h1 h2
  | published r h hl hc h1 => 
    simp only [State.complete_eng, State.setEng_eng, r.eng]; exact chain_published hi h1
  | constructed r h => exact chain_congr chain_reset rfl rfl rfl rfl
  | allocated | got | collided | waited | locked | freed => exact chain_congr hi rfl rfl rfl rfl
  | waits | locks => exact chain_congr hi rfl rfl rfl rfl
  | handed => exact chain_congr hi rfl rfl rfl rfl
  | signalled => 
     rename_i q hq
     obtain ⟨f1, f2, f3, f4, f5, f6, f7, f8, f9, f10⟩ := State.signalSlot_fields s q.toNat
     exact chain_congr hi (by simp [f2]) (by simp [f2]) (by simp [f2]) (by simp [f2])
  | drained r h d hs r2 => exact chain_erases hi (by simp [r2.eng, d.eng, Engine.drained, r.eng]) (by simp [r2.eng, d.eng, Engine.drained, r.eng]) (by simp [r2.eng, d.eng, Engine.drained, r.eng]) (by simp [r2.eng, d.eng, Engine.drained, r.eng]; rfl)
  | badId r h d hs r2 => exact chain_erases hi (by simp [r2.eng, d.eng, Engine.drained, r.eng, Engine.advanced]) (by simp [r2.eng, d.eng, Engine.drained, r.eng, Engine.advanced]) (by simp [r2.eng, d.eng, Engine.drained, r.eng, Engine.advanced]) (by simp [r2.eng, d.eng, Engine.drained, r.eng, Engine.advanced]; rfl)

end Sys2Proof.Machine
end

