-- ==== Sys2Proof/Laws/Checks.lean ====
section
/-! SUPPORT. How a command starts and how it ends: the checks of spec/30_encoding.md R119 for `exec` as a whole, completion and frame of a
body whose accesses are known (`Ran`), and the choice of the command taken up. -/

namespace Sys2Proof.Machine

/-- Every command is its checks and then a body. -/
theorem exec_command (i : Instr) : ∃ body : State → Acc Unit, ∀ s, exec i s = command i body s := by
  cases i <;> exact ⟨_, fun _ => rfl⟩

theorem exec_pf5 {i : Instr} {s : State} (h : contextAllows i s.cur = false) : exec i s = .next (s.raise .pf5) := by
  obtain ⟨b, hb⟩ := exec_command i
  rw [hb]; simp [command, checks, h, raise]

theorem exec_pf6 {i : Instr} {s : State} (h : contextAllows i s.cur = true) (h2 : phaseAllows i s.eng.phase = false)
    : exec i s = .next (s.raise .pf6) := by
  obtain ⟨b, hb⟩ := exec_command i
  rw [hb]; simp [command, checks, h, h2, raise]

theorem exec_pf4 {i : Instr} {s : State} (h : contextAllows i s.cur = true) (h2 : phaseAllows i s.eng.phase = true)
    (h3 : needsLock i = true) (h4 : ¬ s.holdsLock) : exec i s = .next (s.raise .pf4) := by
  obtain ⟨b, hb⟩ := exec_command i
  have : s.eng.lock ≠ .held s.cur := h4
  rw [hb]; simp [command, checks, h, h2, h3, this, raise]

theorem exec_pf7 {i : Instr} {s : State} (h : contextAllows i s.cur = true) (h2 : phaseAllows i s.eng.phase = true)
    (h3 : needsLock i = true → s.holdsLock) (h4 : slotOk i = false) : exec i s = .next (s.raise .pf7) := by
  obtain ⟨b, hb⟩ := exec_command i
  have : ¬ (needsLock i = true ∧ s.eng.lock ≠ .held s.cur) := fun hc => hc.2 (h3 hc.1)
  rw [hb]; simp only [command, checks, h, h2, h4, this]; rfl

/-- A contract that the body itself tests. -/
theorem exec_contract {i : Instr} {s : State} {pf : PF} {body : State → Acc Unit} (hb : ∀ s, exec i s = command i body s)
    (h1 : contextAllows i s.cur = true) (h2 : phaseAllows i s.eng.phase = true) (h3 : needsLock i = true → s.holdsLock)
    (h4 : slotOk i = true) (h : body s = raise pf s) : exec i s = .next (s.raise pf) := by
  rw [hb]
  have hl : ¬ (needsLock i = true ∧ s.eng.lock ≠ .held s.cur) := fun hc => hc.2 (h3 hc.1)
  simp only [command, checks, h1, h2, h4, hl, Bool.true_eq_false, if_false, Acc.bind_ok, h]
  rfl

theorem State.admits_of_ready {i : Instr} {s : State} (hr : s.ready) (h1 : contextAllows i s.cur = true)
    (h2 : phaseAllows i s.eng.phase = true)
    (h3 : needsLock i = true → s.holdsLock) (h4 : slotOk i = true) : s.admits i := ⟨hr.2.2, h1, h2, h3, h4⟩

theorem State.submitter_ne {s : State} (h : 1 ≤ s.cur) : (s.cur != 0) = true := by simp; omega

theorem State.running_of_ringUp {s : State} (h : s.ringUp)
    : s.eng.phase.running = true := by rcases h with h | h <;> simp [h, Phase.running]

theorem State.not_running_of_ringUp {s : State} (h : ¬ s.ringUp) : s.eng.phase.running = false := by
  unfold State.ringUp at h; push Not at h
  cases hp : s.eng.phase <;> simp_all [Phase.running]

/-- A body whose accesses led to `u` and whose last writes are to its own port completes so. -/
theorem Ran.finished {s u t : State} {W : Nat → Prop} {es : List Event} (h : Ran s u W es) (hr : s.running)
    (e : ErrVal) (a : U64) (b : U32)
    (_ : t.cur = u.cur) (h2 : t.ports.length = u.ports.length) (h3 : (t.port u.cur).r0 = a) (h4 : (t.port u.cur).r1 = b) :
    s.finished (t.complete u.cur e) e a b := by
  have hl := (h.running hr).1
  have hc := h.cur
  unfold State.finished
  rw [← hc]
  rw [State.port_complete, if_pos ⟨rfl, by rw [h2]; exact hl⟩]
  exact ⟨rfl, rfl, h3, h4, by simp [h3, h4]⟩

theorem Ran.finished_done {s u : State} {W : Nat → Prop} {es : List Event} (h : Ran s u W es) (hr : s.running)
    (f : Engine → Engine) (e : ErrVal) :
    s.finished ((u.setEng f).complete u.cur e) e (s.port s.cur).r0 (s.port s.cur).r1 :=
  Ran.finished h hr e _ _ rfl rfl h.r0 h.r1

theorem Ran.finished_setR0 {s u : State} {W : Nat → Prop} {es : List Event} (h : Ran s u W es) (hr : s.running)
    (f : Engine → Engine) (e : ErrVal) (v : U64) :
    s.finished (((u.setEng f).setR0 v).complete u.cur e) e v (s.port s.cur).r1 := by
  have hl := (h.running hr).1
  have hp : ((u.setEng f).setR0 v).port u.cur = { u.port u.cur with r0 := v } := by
    rw [State.port_setR0, if_pos ⟨rfl, hl⟩]; rfl
  exact Ran.finished h hr e _ _ rfl (by simp) (by rw [hp]) (by rw [hp]; exact h.r1)

theorem Ran.finished_setR1 {s u : State} {W : Nat → Prop} {es : List Event} (h : Ran s u W es) (hr : s.running)
    (f : Engine → Engine) (e : ErrVal) (v : U64) (w : U32) :
    s.finished ((((u.setEng f).setR0 v).setR1 w).complete u.cur e) e v w := by
  have hl := (h.running hr).1
  have hp0 : ((u.setEng f).setR0 v).port u.cur = { u.port u.cur with r0 := v } := by
    rw [State.port_setR0, if_pos ⟨rfl, hl⟩]; rfl
  have hp : (((u.setEng f).setR0 v).setR1 w).port u.cur = { u.port u.cur with r0 := v, r1 := w } := by
    rw [State.port_setR1, if_pos ⟨rfl, by simpa using hl⟩, hp0]
  exact Ran.finished h hr e _ _ rfl (by simp) (by rw [hp]) (by rw [hp])

/-- What such a body leaves as it was. -/
theorem Ran.frame_done {s u : State} {W : Nat → Prop} {es : List Event} (h : Ran s u W es) (f : Engine → Engine) (e : ErrVal) :
    s.frame ((u.setEng f).complete u.cur e) W := by
  refine h.frame rfl rfl (by simp) (fun q => ?_) rfl rfl rfl rfl (fun q hq => ?_)
  · rw [State.port_complete]; split_ifs <;> rfl
  · rw [State.port_complete, if_neg fun hc => hq hc.1.symm]; rfl

theorem Ran.frame_setR0 {s u : State} {W : Nat → Prop} {es : List Event} (h : Ran s u W es) (f : Engine → Engine)
    (e : ErrVal) (v : U64) :
    s.frame (((u.setEng f).setR0 v).complete u.cur e) W := by
  refine h.frame rfl rfl (by simp) (fun q => ?_) rfl rfl rfl rfl (fun q hq => ?_)
  · rw [State.port_complete, State.port_setR0]; split_ifs <;> rfl
  · rw [State.port_complete, if_neg fun hc => hq hc.1.symm, State.port_setR0, if_neg fun hc => hq hc.1.symm]; rfl

theorem Ran.frame_setR1 {s u : State} {W : Nat → Prop} {es : List Event} (h : Ran s u W es) (f : Engine → Engine)
    (e : ErrVal) (v : U64) (w : U32) :
    s.frame ((((u.setEng f).setR0 v).setR1 w).complete u.cur e) W := by
  refine h.frame rfl rfl (by simp) (fun q => ?_) rfl rfl rfl rfl (fun q hq => ?_)
  · rw [State.port_complete, State.port_setR1, State.port_setR0]; split_ifs <;> rfl
  · rw [State.port_complete, if_neg fun hc => hq hc.1.symm, State.port_setR1, if_neg fun hc => hq hc.1.symm, State.port_setR0, if_neg fun hc => hq hc.1.symm]; rfl

/-- A hold changes nothing but the issuing port. -/
theorem State.frame_hold {s : State} (hr : s.ready) (w : Work) : s.frame
    (s.setPort s.cur fun q => { q with work := w }) (fun _ => False) := by
  refine (Ran.refl hr.1).frame rfl rfl (by simp) (fun q => ?_) rfl rfl rfl rfl (fun q hq => ?_)
  · rw [State.port_setPort]; split_ifs <;> rfl
  · rw [State.port_setPort_other _ _ (Ne.symm hq)]

@[simp] theorem State.accesses_complete (s : State) (p : Nat) (e : ErrVal) : (s.complete p e).accesses = s.accesses := by simp [State.accesses, Event.isAccess]

@[simp] theorem State.accesses_setEng (s : State) (f) : (s.setEng f).accesses = s.accesses := rfl

@[simp] theorem State.accesses_setR0 (s : State) (f) : (s.setR0 f).accesses = s.accesses := rfl

@[simp] theorem State.accesses_setR1 (s : State) (f) : (s.setR1 f).accesses = s.accesses := rfl

theorem Engine.inFlightDesc_iff (e : Engine) (i : Nat) : e.inFlightDesc i = true ↔ ∃ c ∈ e.inflight, i ∈ c.2 := by
  simp [Engine.inFlightDesc]

theorem Engine.inFlightHead_iff (e : Engine) (i : Nat) : e.inFlightHead i = true ↔ ∃ c ∈ e.inflight, c.1 = i := by
  simp [Engine.inFlightHead]

theorem Config.hasNext_eq (c : Config) (f : U16) : c.hasNext f = decide (f &&& c.fNext ≠ 0) := by
  simp [Config.hasNext, bne, BEq.beq]

theorem ofLE_leBytes_of_lt {n v : Nat} (h : v < 256 ^ n) : ofLE (leBytes n v) = v := by rw [ofLE_leBytes, Nat.mod_eq_of_lt h]

/-- The four fields of a descriptor read back (spec/20_memory.md R77). -/
theorem Memory.load_fields (m : Memory) (a : U64) (v8 v4 v2 v2' : List Byte) (l8 : v8.length = 8) (l4 : v4.length = 4)
    (l2 : v2.length = 2) (l2' : v2'.length = 2) :
    let m' := ((((m.store a v8).store (a + 8) v4).store (a + 12) v2).store (a + 14) v2')
    m'.load a 8 = v8 ∧ m'.load (a+8) 4 = v4 ∧ m'.load (a+12) 2 = v2 ∧ m'.load (a+14) 2 = v2' := by
  intro m'
  have dis : ∀ (j n k p : Nat), (j + n ≤ k ∨ k + p ≤ j) → k + p ≤ 16 → j + n ≤ 16 → ∀ x, inBytes (a + BitVec.ofNat 64 j) n x → ¬ inBytes (a + BitVec.ofNat 64 k) p x := by
    intro j n k p h hk hj x h1 h2
    rcases h with h | h
    · exact inBytes_disjoint h1 h2 h (by omega)
    · exact inBytes_disjoint h2 h1 h (by omega)
  have d0 : a + BitVec.ofNat 64 0 = a := by simp
  have d : ∀ x, (inBytes a 8 x → ¬ inBytes (a + 8) 4 x) ∧ (inBytes a 8 x → ¬ inBytes (a + 12) 2 x) ∧ (inBytes a 8 x → ¬ inBytes (a + 14) 2 x)
      ∧ (inBytes (a + 8) 4 x → ¬ inBytes (a + 12) 2 x) ∧ (inBytes (a + 8) 4 x → ¬ inBytes (a + 14) 2 x) ∧ (inBytes (a + 12) 2 x → ¬ inBytes (a + 14) 2 x) := by
    intro x
    refine ⟨?_, ?_, ?_, dis 8 4 12 2 (by omega) (by omega) (by omega) x, dis 8 4 14 2 (by omega) (by omega) (by omega) x, dis 12 2 14 2 (by omega) (by omega) (by omega) x⟩
    · have := dis 0 8 8 4 (by omega) (by omega) (by omega) x; rwa [d0] at this
    · have := dis 0 8 12 2 (by omega) (by omega) (by omega) x; rwa [d0] at this
    · have := dis 0 8 14 2 (by omega) (by omega) (by omega) x; rwa [d0] at this
  refine ⟨?_, ?_, ?_, ?_⟩
  · rw [Memory.load_store_other _ (by rw [l2']; exact fun x => (d x).2.2.1), Memory.load_store_other _ (by rw [l2]; exact fun x => (d x).2.1),
      Memory.load_store_other _ (by rw [l4]; exact fun x => (d x).1), ← l8, Memory.load_store_same _ _ _ (by omega)]
  · rw [Memory.load_store_other _ (by rw [l2']; exact fun x => (d x).2.2.2.2.1), Memory.load_store_other _ (by rw [l2]; exact fun x => (d x).2.2.2.1),
      ← l4, Memory.load_store_same _ _ _ (by omega)]
  · rw [Memory.load_store_other _ (by rw [l2']; exact fun x => (d x).2.2.2.2.2), ← l2, Memory.load_store_same _ _ _ (by omega)]
  · rw [← l2', Memory.load_store_same _ _ _ (by omega)]

theorem State.portsAt_singleton {s : State} {p : Nat} {w : Work} (hp : p < s.ports.length)
    (h : ∀ q < s.ports.length, (s.port q).work = w ↔ q = p) : s.portsAt w = [p] := by
  unfold State.portsAt
  have : (List.range s.ports.length).filter (fun q => (s.port q).work == w) = (List.range s.ports.length).filter (fun q => q == p) := by
    apply List.filter_congr
    intro q hq
    have := h q (List.mem_range.mp hq)
    rw [Bool.eq_iff_iff]
    simp [this]
  rw [this]
  generalize s.ports.length = n at hp
  clear h this
  induction n with
  | zero => omega
  | succ n ih =>
    rw [List.range_succ, List.filter_append]
    by_cases hn : p = n
    · subst hn
      have : (List.range p).filter (fun q => q == p) = [] := by
        rw [List.filter_eq_nil_iff]
        intro a ha
        have := List.mem_range.mp ha
        simp; omega
      rw [this]; simp
    · rw [ih (by omega)]
      simp [Ne.symm hn]

theorem State.portsAt_nil {s : State} {w : Work} : s.portsAt w = [] ↔ ∀ q < s.ports.length, (s.port q).work ≠ w := by
  simp [State.portsAt, List.filter_eq_nil_iff]

theorem takeUp_none {s : State} : takeUp s = none ↔ ∀ p < s.ports.length, (s.port p).work ≠ .outstanding := by
  unfold takeUp
  rw [Option.map_eq_none_iff, choose_none_iff, State.portsAt_nil]

/-- Every candidate is chosen under some choices. -/
theorem choose_any {cands : List Nat} {s : State} {p : Nat} (h : p ∈ cands) : ∃ cs t, choose cands
    { s with choices := cs } = some (p, t) := by
  match cands, h with
  | [q], h =>
    simp at h; subst h
    exact ⟨[], _, rfl⟩
  | c :: d :: cs, h =>
    refine ⟨[p], { s with choices := [] }, ?_⟩
    unfold choose
    simp only
    rw [if_pos (by simpa using h)]

end Sys2Proof.Machine
end

