-- ==== Sys2Proof/Laws/Decode.lean ====
section
/-! SUPPORT. The three fields of a command word. -/

namespace Sys2Proof

theorem opcField_cmdWord (imm : U16) (rsv opc : BitVec 8) : opcField (cmdWord imm rsv opc) = opc := by
  ext i h
  simp only [opcField, cmdWord, BitVec.getElem_extractLsb', BitVec.getLsbD_append]
  grind

theorem rsvField_cmdWord (imm : U16) (rsv opc : BitVec 8) : rsvField (cmdWord imm rsv opc) = rsv := by
  ext i h
  simp only [rsvField, cmdWord, BitVec.getElem_extractLsb', BitVec.getLsbD_append]
  grind

theorem immField_cmdWord (imm : U16) (rsv opc : BitVec 8) : immField (cmdWord imm rsv opc) = imm := by
  ext i h
  simp only [immField, cmdWord, BitVec.getElem_extractLsb', BitVec.getLsbD_append]
  grind

/-- A word is its three fields. -/
theorem cmdWord_fields (w : U32) : cmdWord (immField w) (rsvField w) (opcField w) = w := by
  apply BitVec.eq_of_getLsbD_eq
  intro i h
  simp only [immField, rsvField, opcField, cmdWord, BitVec.getLsbD_append, BitVec.getLsbD_extractLsb']
  grind

end Sys2Proof
end

