-- ==== Sys2Proof/Laws/Device.lean ====
section
/-! SUPPORT. The bytes of one device register (spec/20_memory.md R71), and what the ledger keeps of a device write. -/

namespace Sys2Proof.Machine

/-- At its own four addresses a register shows its bytes. -/
theorem regByteAt_same (base : U64) (v : U32) (k : Nat) (hk : k < 4) :
    regByteAt base v (base + BitVec.ofNat 64 k) = some (regByte v k) := by
  have h : (base + BitVec.ofNat 64 k - base).toNat = k := by
    rw [BitVec.add_comm, BitVec.add_sub_cancel, BitVec.toNat_ofNat]
    omega
  rw [regByteAt, h, if_pos hk]

/-- At the addresses of a register four bytes away or more it shows none. -/
theorem regByteAt_apart (b : U64) (o o' v : U32) (k : Nat) (hk : k < 4)
    (h : o.toNat + 4 ≤ o'.toNat ∨ o'.toNat + 4 ≤ o.toNat) :
    regByteAt (b + zext64 o') v (b + zext64 o + BitVec.ofNat 64 k) = none := by
  have e : b + zext64 o + BitVec.ofNat 64 k - (b + zext64 o') = zext64 o + BitVec.ofNat 64 k - zext64 o' := by bv_omega
  have h1 := o.isLt
  have h2 := o'.isLt
  rw [regByteAt, e, if_neg]
  simp only [zext64, BitVec.toNat_sub, BitVec.toNat_add, BitVec.toNat_setWidth, BitVec.toNat_ofNat]
  omega

/-- A write by the device changes memory, the history and the ledger, and nothing else. -/
theorem State.deviceWrite_fields (s : State) (addr : U64) (bytes : List Byte) :
    (s.deviceWrite addr bytes).mem = s.mem.store addr bytes ∧ (s.deviceWrite addr bytes).dev = s.dev
      ∧ (s.deviceWrite addr bytes).eng = s.eng ∧ (s.deviceWrite addr bytes).ports = s.ports
      ∧ (s.deviceWrite addr bytes).cfg = s.cfg ∧ (s.deviceWrite addr bytes).script = s.script
      ∧ (s.deviceWrite addr bytes).history = .devMemW addr bytes.length (ofLE bytes) :: s.history :=
  ⟨rfl, rfl, rfl, rfl, rfl, rfl, rfl⟩

end Sys2Proof.Machine
end

