-- ==== Sys2Proof/Laws/Ledger.lean ====
section
/-! SUPPORT. What the ledger of what belongs to the device (Machine/Ledger.lean) does at each event, at a publication and at
a signal. -/

namespace Sys2Proof.Machine

variable (s : State)

@[simp] theorem State.ledgerAfter_issue (p : Nat) (w : U32) (a b c d : U64) (bs : List Byte) :
    s.ledgerAfter (.issue p w a b c d bs) = s.ledger := rfl
@[simp] theorem State.ledgerAfter_mmioR (off v : U32) : s.ledgerAfter (.mmioR off v) = s.ledger := rfl
@[simp] theorem State.ledgerAfter_mmioW (off v : U32) :
    s.ledgerAfter (.mmioW off v) = s.ledger.registerWritten s.cfg off v := rfl
@[simp] theorem State.ledgerAfter_devMemR (a : U64) (n v : Nat) : s.ledgerAfter (.devMemR a n v) = s.ledger := rfl
@[simp] theorem State.ledgerAfter_signal (i : Nat) :
    s.ledgerAfter (.signal i) = { s.ledger with grants := s.ledger.grants.filter fun g => g.head != i } := rfl
@[simp] theorem State.afterRst_ledger : s.afterRst.ledger = s.ledger := rfl

/-- A read of fewer or more than four bytes reads no length of a used entry. -/
theorem State.ledgerAfter_memR_other (a : U64) (n v : Nat) (h : n ≠ 4) : s.ledgerAfter (.memR a n v) = s.ledger :=
  if_neg fun hc => h hc.1

/-- A write of another width, or elsewhere, than of `avail.index` publishes nothing. -/
theorem State.ledgerAfter_memW_other (a : U64) (n v : Nat) (h : n ≠ 2 ∨ a ≠ s.eng.availIndexAddr) :
    s.ledgerAfter (.memW a n v) = s.ledger := if_neg fun hc => h.elim (fun h => h hc.1) fun h => h hc.2

/-- The write of `avail.index` publishes the chain under construction. -/
theorem State.ledgerAfter_publish (v : Nat) :
    s.ledgerAfter (.memW s.eng.availIndexAddr 2 v) = { s.ledger with grants := s.newGrant :: s.ledger.grants } := by
  rw [State.ledgerAfter, if_pos ⟨rfl, rfl⟩]

/-- A command that completes confirms the ring region and changes no grant. -/
theorem State.ledgerAfter_complete (p : Nat) (e : ErrVal) (r0 : U64) (r1 : U32) :
    (s.ledgerAfter (.complete p e r0 r1)).grants = s.ledger.grants := by
  rw [State.ledgerAfter]
  split_ifs <;> rfl

/-- Completing a command gives and takes nothing. -/
@[simp] theorem State.grants_complete (p : Nat) (e : ErrVal) : (s.complete p e).ledger.grants = s.ledger.grants :=
  State.ledgerAfter_complete (s.setPort p fun q => q.completed e) p e (s.port p).r0 (s.port p).r1

theorem State.grants_release (ps : List Nat) : (s.release ps).ledger.grants = s.ledger.grants := by
  unfold State.release
  induction ps generalizing s with
  | nil => rfl
  | cons p ps ih => rw [List.foldl_cons, ih, State.grants_complete]

/-- Signalling a slot takes its chain back, and no other. -/
theorem State.grants_signalSlot (i : Nat) :
    (s.signalSlot i).ledger.grants = s.ledger.grants.filter fun g => g.head != i := by
  unfold State.signalSlot
  rw [State.grants_release]
  rfl

/-- No ring entry stands where `avail.index` does (spec/20_memory.md R79). -/
theorem Engine.availRingAddr_ne_index (e : Engine) (v : U16) : e.availRingAddr (modQ v) ≠ e.availIndexAddr := by
  have h : (modQ v).toNat < 128 := by
    rw [modQ, BitVec.toNat_umod]
    exact Nat.mod_lt _ (by decide)
  unfold Engine.availRingAddr Engine.availIndexAddr zext64
  intro hc
  have h1 : (modQ v).setWidth 64 < 128 := by
    rw [BitVec.lt_def, BitVec.toNat_setWidth]
    have : (128 : U64).toNat = 128 := rfl
    omega
  bv_omega

/-- In a quiet environment an access changes neither the engine, nor the issuer, nor the parameters. -/
structure QuietAccess (s t : State) : Prop where
  eng : t.eng = s.eng
  cur : t.cur = s.cur
  cfg : t.cfg = s.cfg
  quiet : t.quiet

theorem memRead16_grant {s : State} (a : U64) (h : s.quiet) :
    ∃ (v : U16) (t : State), memRead16 a s = .ok v t ∧ QuietAccess s t ∧ t.ledger = s.ledger := by
  refine ⟨_, s.log (.memR a 2 (ofLE (s.mem.load a 2))), memRead16_quiet a h, ⟨rfl, rfl, rfl, h⟩, ?_⟩
  exact State.ledgerAfter_memR_other s a 2 (ofLE (s.mem.load a 2)) (by decide)

theorem memWrite_grant {s : State} (a : U64) (n v : Nat) (h : s.quiet) (ha : n ≠ 2 ∨ a ≠ s.eng.availIndexAddr) :
    ∃ t, memWrite a n v s = .ok () t ∧ QuietAccess s t ∧ t.ledger = s.ledger := by
  refine ⟨(s.setMem (s.mem.store a (leBytes n v))).log (.memW a n v), memWrite_quiet a n v h, ⟨rfl, rfl, rfl, h⟩, ?_⟩
  exact State.ledgerAfter_memW_other (s.setMem (s.mem.store a (leBytes n v))) a n v ha

/-- What a publication grants, the buffers read from memory as it leaves it. -/
def State.granting (s t : State) : Grant :=
  { head := s.eng.chainHead.toNat, descs := chainIndices s.eng.chainHead s.eng.chainLen,
    payload := s.payload s.eng.chainHead, buffers := (chainIndices s.eng.chainHead s.eng.chainLen).map t.bufferOf,
    written := [], stage := .published }

theorem memWrite_availIndex_grant {s : State} (v : Nat) (h : s.quiet) :
    ∃ t : State, memWrite s.eng.availIndexAddr 2 v s = .ok () t ∧ QuietAccess s t
      ∧ t.ledger.grants = s.granting t :: s.ledger.grants := by
  refine ⟨(s.setMem (s.mem.store s.eng.availIndexAddr (leBytes 2 v))).log (.memW s.eng.availIndexAddr 2 v),
    memWrite_quiet s.eng.availIndexAddr 2 v h, ⟨rfl, rfl, rfl, h⟩, ?_⟩
  rw [State.log_ledger]
  exact congrArg Ledger.grants (State.ledgerAfter_publish (s.setMem (s.mem.store s.eng.availIndexAddr (leBytes 2 v))) v)

/-- In a quiet environment PUBLISH gives one chain more: the one its registers and memory describe. -/
theorem publishBody_grant {s : State} (h : s.quiet) (h1 : 1 ≤ s.eng.chainLen.toNat ∧ s.eng.chainOpen = false) :
    ∃ u : State, publishBody s = done .ok (u.setEng Engine.published) ∧ QuietAccess s u
      ∧ u.ledger.grants = s.granting u :: s.ledger.grants := by
  obtain ⟨idx, u, hu, qu, lu⟩ := memRead16_grant s.eng.availIndexAddr h
  obtain ⟨v, hv, qv, lv⟩ := memWrite_grant (u.eng.availRingAddr (modQ idx)) 2 u.eng.chainHead.toNat qu.quiet
    (.inr (Engine.availRingAddr_ne_index _ _))
  obtain ⟨w, hw, qw, lw⟩ := memWrite_availIndex_grant (idx + 1).toNat qv.quiet
  refine ⟨w, ?_, ⟨qw.eng.trans (qv.eng.trans qu.eng), qw.cur.trans (qv.cur.trans qu.cur),
    qw.cfg.trans (qv.cfg.trans qu.cfg), qw.quiet⟩, ?_⟩
  · rw [publishBody, if_pos h1, hu, Acc.bind_ok, hv, Acc.bind_ok, hw, Acc.bind_ok, finish_quiet _ _ qw.quiet]
  · rw [lw, lv, lu]
    simp only [State.granting, State.payload, qv.eng, qu.eng, qv.cfg, qu.cfg]

end Sys2Proof.Machine
end

