-- ==== Sys2Proof/Laws/PerInstr.lean ====
section
/-! SUPPORT. Statements about every command as syntax, one lemma per constructor. -/

namespace Sys2Proof.Laws.EncodingShape

/-- The word of a command is legal and carries its opcode and its immediate (spec/30_encoding.md R110, R114). -/
def Statement (i : Instr) : Prop :=
  opcField (encode i) = i.opcode ∧ rsvField (encode i) = 0 ∧ immField (encode i) = i.imm ∧ i.opcode ∈ definedOpcodes

theorem of_opcode (i : Instr) (h : i.opcode ∈ definedOpcodes) : Statement i :=
  ⟨opcField_cmdWord _ _ _, rsvField_cmdWord _ _ _, immField_cmdWord _ _ _, h⟩

theorem negotiate : Statement .negotiate := of_opcode _ (by decide)
theorem cfgring (index : U16) : Statement (.cfgring index) := of_opcode _ (by simp [Instr.opcode, definedOpcodes])
theorem drvok : Statement .drvok := of_opcode _ (by decide)
theorem notify (queue : U16) : Statement (.notify queue) := of_opcode _ (by simp [Instr.opcode, definedOpcodes])
theorem ipend : Statement .ipend := of_opcode _ (by decide)
theorem qinit : Statement .qinit := of_opcode _ (by decide)
theorem alloc : Statement .alloc := of_opcode _ (by decide)
theorem adddesc (flags : U16) : Statement (.adddesc flags) := of_opcode _ (by simp [Instr.opcode, definedOpcodes])
theorem publish : Statement .publish := of_opcode _ (by decide)
theorem poll : Statement .poll := of_opcode _ (by decide)
theorem take : Statement .take := of_opcode _ (by decide)
theorem get (slot : U16) : Statement (.get slot) := of_opcode _ (by simp [Instr.opcode, definedOpcodes])
theorem install (slot : U16) : Statement (.install slot) := of_opcode _ (by simp [Instr.opcode, definedOpcodes])
theorem signal (slot : U16) : Statement (.signal slot) := of_opcode _ (by simp [Instr.opcode, definedOpcodes])
theorem wait (slot : U16) : Statement (.wait slot) := of_opcode _ (by simp [Instr.opcode, definedOpcodes])
theorem lock : Statement .lock := of_opcode _ (by decide)
theorem unlock : Statement .unlock := of_opcode _ (by decide)
theorem irqh : Statement .irqh := of_opcode _ (by decide)

end Sys2Proof.Laws.EncodingShape
end

