-- ==== Sys2Proof/Laws/Quiet.lean ====
section
/-! SUPPORT. The whole run of the handler's loop in an environment that makes no move, and what the loop leaves as it was in any
(spec/43_protocol_ops.md R200). -/

namespace Sys2Proof.Machine

theorem drainTrace_signalled (e : Engine) (c : U16) (xs : List Drain) : (drainTrace e c xs).filterMap Event.signalled =
    (drainIds xs).reverse := by
  induction xs generalizing c with
  | nil => rfl
  | cons x xs ih => simp [drainTrace, drainIds, Event.signalled, ih]

/-- Accesses, the loop, accesses again: memory, parameters and operand registers are the environment's. -/
theorem Drained.kept {s v u t : State} {es : List Event} {xs : List Drain} {fs : List Event}
    (r : Ran s v (fun _ => False) es) (d : Drained v u xs) (r2 : Ran u t (fun _ => False) fs) :
    s.kept t (fun _ => False) := by
  obtain ⟨k, hk, hm, hp, _⟩ := r.environment
  obtain ⟨l, hl, hm', hp', _⟩ := d.environment
  obtain ⟨j, hj, hm'', hp'', _⟩ := r2.environment
  have hsc : t.script = s.script.drop (k + l + j) := by
    rw [hj, hl, hk, List.drop_drop, List.drop_drop, Nat.add_assoc]
  have hu : s.environmentUntil t = State.environmentAlone (k + l + j) s := State.environmentUntil_drop hsc
  have c1 : v.script = (State.environmentAlone k s).script := by rw [State.environmentAlone_script, hk]
  have c2 : u.script = (State.environmentAlone l v).script := by rw [State.environmentAlone_script, hl]
  have hcalm : v.calm := r.calm
  refine ⟨r2.cfg.trans (d.cfg.trans r.cfg), r2.cur.trans (d.cur.trans r.cur), r2.length.trans (d.length.trans r.length), fun q => ?_, fun a _ => ?_⟩
  · rw [hu, hp'', State.environmentAlone_add, State.environmentAlone_add]
    refine (State.samePorts_environmentAlone j d.calm ?_ ⟨?_, ?_, ?_⟩).2.2
    · rw [c2, State.environmentAlone_script, State.environmentAlone_script, c1]
    · rw [d.length, State.length_environmentAlone _ (State.calm_environmentAlone _ r.start), State.length_environmentAlone _ r.start, r.length]
    · rw [d.cfg, State.environmentAlone_cfg, State.environmentAlone_cfg, r.cfg]
    · rw [hp' q]
      refine (State.samePorts_environmentAlone l hcalm c1 ⟨?_, ?_, hp q⟩).2.2
      · rw [State.length_environmentAlone _ r.start, r.length]
      · rw [State.environmentAlone_cfg, r.cfg]
  · rw [hu, hm'' a id, State.environmentAlone_add, State.environmentAlone_add]
    refine State.read_environmentAlone_congr j ?_ ?_
    · rw [c2, State.environmentAlone_script, State.environmentAlone_script, c1]
    · rw [hm' a]
      exact State.read_environmentAlone_congr l c1 (hm a id)

theorem State.kept_congr {s u t : State} {W} (h : s.kept u W) (h1 : t.cfg = u.cfg) (h2 : t.cur = u.cur)
    (h3 : t.ports.length = u.ports.length)
    (h4 : ∀ q, (t.port q).operandRegs = (u.port q).operandRegs) (h5 : t.mem = u.mem) (h6 : t.script = u.script) : s.kept t W := by
  have hu : s.environmentUntil t = s.environmentUntil u := by unfold State.environmentUntil; rw [h6]
  refine ⟨h1.trans h.1, h2.trans h.2.1, h3.trans h.2.2.1, fun q => ?_, fun a ha => ?_⟩
  · rw [hu, h4 q]; exact h.2.2.2.1 q
  · rw [hu, h5]; exact h.2.2.2.2 a ha

theorem State.usedIndexNow_congr {s t : State} (h1 : t.mem = s.mem) (h2 : t.eng.qbase = s.eng.qbase)
    : t.usedIndexNow = s.usedIndexNow := by
  unfold State.usedIndexNow Engine.usedIndexAddr Engine.usedAddr; rw [h1, h2]

/-- With no moves the loop consumes exactly the unread entries. -/
theorem drain_quiet (d : Nat) : ∀ (fuel : Nat) (n : U32) (s : State), s.quiet →
    (s.usedIndexNow - s.eng.lastConsumedUsed).toNat = d → d < fuel →
    (∀ id ∈ s.unreadIds s.usedIndexNow, id < qsize) →
    ∃ t, drain fuel n s = .ok (n + BitVec.ofNat 32 d) t ∧ t.eng = s.eng.drained (s.unreadIds s.usedIndexNow) ∧ t.mem = s.mem ∧ t.dev = s.dev ∧ t.script = s.script
      ∧ t.cur = s.cur ∧ t.cfg = s.cfg ∧ t.choices = s.choices ∧ t.freeCount = s.freeCount ∧ t.ports.length = s.ports.length
      ∧ (∀ q, t.port q = (s.port q).released (s.unreadIds s.usedIndexNow)) ∧ t.signals = (s.unreadIds s.usedIndexNow).reverse ++ s.signals := by
  induction d with
  | zero =>
    intro fuel n s hq hd hf hid
    obtain ⟨f, rfl⟩ : ∃ f, fuel = f + 1 := ⟨fuel - 1, by omega⟩
    have hu : s.unreadIds s.usedIndexNow = [] := by unfold State.unreadIds; rw [hd]; rfl
    have heq : s.usedIndexNow = s.eng.lastConsumedUsed := by
      have h1 := s.usedIndexNow.isLt
      have h2 := s.eng.lastConsumedUsed.isLt
      rw [BitVec.toNat_sub] at hd
      apply BitVec.eq_of_toNat_eq; omega
    rw [drain_succ, memRead16_quiet _ hq, Acc.bind_ok]
    have hp : pending (BitVec.ofNat 16 (ofLE (s.mem.load s.eng.usedIndexAddr 2))) s.eng.lastConsumedUsed = false := by
      have : BitVec.ofNat 16 (ofLE (s.mem.load s.eng.usedIndexAddr 2)) = s.usedIndexNow := rfl
      rw [this, heq]; simp [pending]
    rw [hu]
    simp only [State.log_eng, hp]
    refine ⟨s.log (.memR s.eng.usedIndexAddr 2 (ofLE (s.mem.load s.eng.usedIndexAddr 2))), by simp, by simp [Engine.drained_nil], rfl, rfl, rfl, rfl, rfl, rfl, rfl, rfl, fun q => rfl, rfl⟩
  | succ d ih =>
    intro fuel n s hq hd hf hid
    obtain ⟨f, rfl⟩ : ∃ f, fuel = f + 1 := ⟨fuel - 1, by omega⟩
    have hne : s.usedIndexNow ≠ s.eng.lastConsumedUsed := by
      intro h; rw [h] at hd; simp at hd
    rw [drain_succ, memRead16_quiet _ hq, Acc.bind_ok]
    have hp : pending (BitVec.ofNat 16 (ofLE (s.mem.load s.eng.usedIndexAddr 2))) s.eng.lastConsumedUsed = true := by
      have : BitVec.ofNat 16 (ofLE (s.mem.load s.eng.usedIndexAddr 2)) = s.usedIndexNow := rfl
      rw [this]; simpa [pending] using hne
    simp only [State.log_eng, hp, if_true]
    obtain ⟨id, hidd⟩ : ∃ id : U32, id = BitVec.ofNat 32 (ofLE (s.mem.load (s.eng.usedIdAddr (modQ s.eng.lastConsumedUsed)) 4)) := ⟨_, rfl⟩
    have hidn : id.toNat = ofLE (s.mem.load (s.eng.usedIdAddr (modQ s.eng.lastConsumedUsed)) 4) := by
      rw [hidd, BitVec.toNat_ofNat, Nat.mod_eq_of_lt (show _ < 2 ^ 32 from ofLE_load_lt _ _ 4)]
    obtain ⟨w, len, hte, wmem, wdev, weng, wscr, wport, wlen, wsig, wcur, wcfg, wch, wfc⟩ : ∃ (w : State) (len : U32),
        takeEntry (s.log (Event.memR s.eng.usedIndexAddr 2 (ofLE (s.mem.load s.eng.usedIndexAddr 2)))) = .ok (id, len) w
        ∧ w.mem = s.mem ∧ w.dev = s.dev ∧ w.eng = s.eng.advanced ∧ w.script = s.script ∧ (∀ q, w.port q = s.port q) ∧ w.ports.length = s.ports.length
        ∧ w.signals = s.signals ∧ w.cur = s.cur ∧ w.cfg = s.cfg ∧ w.choices = s.choices ∧ w.freeCount = s.freeCount :=
      hidd ▸ ⟨_, _, takeEntry_quiet (s := s.log (Event.memR s.eng.usedIndexAddr 2 (ofLE (s.mem.load s.eng.usedIndexAddr 2)))) hq, rfl, rfl, rfl, rfl, fun _ => rfl, rfl, rfl, rfl, rfl, rfl, rfl⟩
    rw [hte, Acc.bind_ok]
    obtain ⟨f1, f2, f3, f4, f5, f6, f7, f8, f9, f10⟩ := State.signalSlot_fields (w.landed id) id.toNat
    have fp := State.port_signalSlot (w.landed id) id.toNat
    generalize hx : (w.landed id).signalSlot id.toNat = x at *
    have xeng : x.eng = { s.eng with lastConsumedUsed := s.eng.lastConsumedUsed + 1, inflight := SMap.erase id.toNat s.eng.inflight, completion := setSignaled s.eng.completion id.toNat } := by
      rw [f2, State.landed_eng, weng]; rfl
    have xmem : x.mem = s.mem := by rw [f4]; exact wmem
    have xu : x.usedIndexNow = s.usedIndexNow := State.usedIndexNow_congr xmem (by rw [xeng])
    have xq : x.quiet := by rw [State.quiet, f6]; exact wscr.trans hq
    have hdist : (x.usedIndexNow - x.eng.lastConsumedUsed).toNat = d := by
      rw [xu, xeng]
      have := usedIndex_distance hne
      show (s.usedIndexNow - (s.eng.lastConsumedUsed + 1)).toNat = d
      omega
    have hids : s.unreadIds s.usedIndexNow = id.toNat :: x.unreadIds x.usedIndexNow := by
      unfold State.unreadIds
      rw [hdist, hd, List.range_succ_eq_map, List.map_cons, List.map_map, xmem, xeng, hidn]
      congr 1
      · simp
      · apply List.map_congr_left
        intro k _
        simp only [Function.comp]
        have : s.eng.lastConsumedUsed + BitVec.ofNat 16 (k.succ) = s.eng.lastConsumedUsed + 1 + BitVec.ofNat 16 k := by
          rw [Nat.succ_eq_add_one, Nat.add_comm, BitVec.ofNat_add, BitVec.add_assoc]; rfl
        rw [this]; rfl
    have hidlt : id.toNat < qsize := hid _ (by rw [hids]; exact List.mem_cons_self)
    rw [if_pos hidlt]
    obtain ⟨t, h1, h2, h3, h4, h5, h6, h7, h8, h9, h10, h11, h12⟩ := ih f (n + 1) x xq hdist (by omega) (fun i hi => hid i (by rw [hids]; exact List.mem_cons_of_mem _ hi))
    refine ⟨t, ?_, ?_, h3.trans xmem, h4.trans (f5.trans wdev), h5.trans (f6.trans wscr), h6.trans (f3.trans wcur), h7.trans (f1.trans wcfg), h8.trans (f7.trans wch), h9.trans (f8.trans wfc), h10.trans (f9.trans wlen), fun q => ?_, ?_⟩
    · rw [h1, BitVec.add_assoc, BitVec.add_comm 1, BitVec.ofNat_add]; rfl
    · rw [h2, hids, xeng]; exact Engine.drained_cons _ _ _
    · rw [h11, hids, Port.released_cons, fp]
      simp only [State.port_landed, wport, State.landed_ports, wlen]
      by_cases hw : (s.port q).work = .holdWait id.toNat
      · have hlt : q < s.ports.length := by
          by_contra hge
          have : s.port q = Port.reset s.cfg := State.port_of_length_le _ (Nat.le_of_not_lt hge)
          rw [this] at hw; cases hw
        rw [if_pos ⟨hlt, hw⟩, if_pos hw, Port.released_of_not_held (by intro i _ h; cases h)]
      · rw [if_neg (fun h => hw h.2), if_neg hw]
    · have xs : x.signals = id.toNat :: s.signals := by
        unfold State.signals
        rw [f10]
        have : (w.landed id).accesses = w.accesses := rfl
        rw [this, List.filterMap_cons]
        simp only [Event.signalled]
        exact congrArg _ wsig
      rw [h12, xs, hids]; simp

theorem getLsbD_foldl_setSignaled (ids : List Nat) (c : BitVec 128) (j : Nat) :
   (ids.foldl setSignaled c).getLsbD j = (c.getLsbD j || (decide (j ∈ ids) && decide (j < 128))) := by
  induction ids generalizing c with
  | nil => simp
  | cons a ids ih =>
    rw [List.foldl_cons, ih, getLsbD_setSignaled]
    by_cases h : j < 128 <;> by_cases h1 : j = a <;> simp [h, h1, eq_comm (a := a)] <;> (subst h1; simp [h])

theorem SMap.find?_erase {α} (m : SMap α) (h k : Nat) : SMap.find? h
    (SMap.erase k m) = if h = k then none else SMap.find? h m := by
  split_ifs with e
  · subst e; exact SMap.find?_erase_same _ _
  · exact SMap.find?_erase_other _ e

theorem SMap.find?_erases {α} (ids : List Nat) (m : SMap α) (h : Nat) : SMap.find? h
    (ids.foldl (fun m i => SMap.erase i m) m) = if h ∈ ids then none else SMap.find? h m := by
  induction ids generalizing m with
  | nil => simp
  | cons a ids ih => rw [List.foldl_cons, ih, SMap.find?_erase]; by_cases h1 : h ∈ ids <;> by_cases h2 : h = a <;> simp [h1, h2]

theorem SMap.find?_insert {α} (m : SMap α) (h k : Nat) (v : α) : SMap.find? h
    (SMap.insert k v m) = if h = k then some v else SMap.find? h m := by
  split_ifs with e
  · subst e; exact SMap.find?_insert_same _ _ _
  · exact SMap.find?_insert_other _ _ e

theorem State.finished_setR0 {s t : State} (tc : t.cur = s.cur) (hcl : t.cur < t.ports.length)
    (hp : t.port s.cur = s.port s.cur) (v : U64) :
    s.finished ((t.setR0 v).complete t.cur .ok) .ok v (s.port s.cur).r1 := by
  have h0 : (t.setR0 v).port s.cur = { s.port s.cur with r0 := v } := by
    rw [State.port_setR0, if_pos ⟨tc, hcl⟩, hp]
  unfold State.finished
  rw [State.port_complete, if_pos ⟨tc, by simpa using hcl⟩, h0]
  refine ⟨rfl, rfl, rfl, rfl, ?_⟩
  rw [State.complete_history, tc, h0]; rfl

end Sys2Proof.Machine
end

