-- ==== Sys2Proof/Laws/Ports.lean ====
section
/-! SUPPORT. What every outcome of a command does to the fault register, the history, parameters, ports, lock and holds. -/

namespace Sys2Proof.Machine

theorem Outcome.pfault {s t : State} {i : Instr} (h : Outcome s i t) :
    t.eng.pfault = s.eng.pfault ∨ ∃ pf, (pf = .pf5 → contextAllows i s.cur = false) ∧ (pf = .pf6 → phaseAllows i s.eng.phase = false) ∧ t.eng.pfault = some (s.eng.pfault.getD pf) := by
  cases h with
  | fault h5 h6 => exact .inr ⟨_, h5, h6, rfl⟩
  | featureFail r h | negotiated r h | sizeTooSmall r h | configured r h | live r h | notified r h | statusRead r h | polled r h
  | spurious r h | taken r h | described r h | published r h | installed r h => left; simp [r.eng, Engine.described, Engine.published, Engine.advanced]
  | constructed r h => left; simp [r.eng, Engine.constructed]
  | allocated | got | collided | waited | waits | locked | locks | freed | handed => left; simp
  | signalled => left; simp [(State.signalSlot_fields _ _).2.1]
  | drained r h d hs r2 => left; simp [r2.eng, d.eng, r.eng, Engine.drained]
  | badId r h d hs r2 => right; refine ⟨.pf7, by simp, by simp, ?_⟩; simp [r2.eng, d.eng, r.eng, Engine.drained, Engine.advanced]

theorem Outcome.history {s t : State} {i : Instr} (h : Outcome s i t) : s.history <:+ t.history := by
  have c : ∀ (u : State) p e, u.history <:+ (u.complete p e).history := fun u p e => List.suffix_cons _ _
  cases h with
  | fault h5 h6 => exact List.suffix_refl _
  | featureFail r h | negotiated r h | sizeTooSmall r h | configured r h | live r h | notified r h | statusRead r h | polled r h
  | spurious r h | taken r h | described r h | published r h | installed r h => exact r.history.trans (List.suffix_cons _ _)
  | constructed r h => exact r.history.trans (List.suffix_cons _ _)
  | allocated | got | collided | waited | locked | freed => exact (List.suffix_cons _ _)
  | waits | locks => exact List.suffix_refl _
  | handed => exact (List.suffix_cons _ _).trans (List.suffix_cons _ _)
  | signalled => exact (State.history_signalSlot _ _).trans (List.suffix_cons _ _)
  | drained r h d hs r2 => exact ((r.history.trans d.history).trans r2.history).trans (List.suffix_cons _ _)
  | badId r h d hs r2 => exact ((r.history.trans d.history).trans r2.history)

theorem Outcome.fixed {s t : State} {i : Instr} (h : Outcome s i t) : t.cfg = s.cfg ∧ t.ports.length = s.ports.length ∧
    (Memory.wf s.mem → Memory.wf t.mem) := by
  cases h with
  | fault h5 h6 => exact ⟨rfl, rfl, id⟩
  | featureFail r h | negotiated r h | sizeTooSmall r h | configured r h | live r h | notified r h | statusRead r h | polled r h
  | spurious r h | taken r h | described r h | published r h | installed r h => exact ⟨by simp [r.cfg], by simp [r.length], r.wf⟩
  | constructed r h => exact ⟨by simp [r.cfg], by simp [r.length], r.wf⟩
  | allocated | got | collided | waited | locked | freed => exact ⟨by simp, by simp, id⟩
  | waits | locks => exact ⟨by simp, by simp, id⟩
  | handed => exact ⟨by simp, by simp, id⟩
  | signalled => 
     rename_i q hq
     obtain ⟨f1, f2, f3, f4, f5, f6, f7, f8, f9, f10⟩ := State.signalSlot_fields s q.toNat
     exact ⟨by simp [f1], by simp [f9], by simp [f4]⟩
  | drained r h d hs r2 => exact ⟨by simp [r2.cfg, d.cfg, r.cfg], by simp [r2.length, d.length, r.length], fun h => r2.wf (d.wf (r.wf h))⟩
  | badId r h d hs r2 => exact ⟨by simp [r2.cfg, d.cfg, r.cfg], by simp [r2.length, d.length, r.length], fun h => r2.wf (d.wf (r.wf h))⟩

theorem step_fields {s t : State} (hc : s.calm) (hs : step s = .next t) : t.cfg = s.cfg
    ∧ t.ports.length = s.ports.length ∧ (Memory.wf s.mem → Memory.wf t.mem) := by
  have se := State.sameEngine_turn (State.rstNext_calm hc)
  obtain ⟨_, rfl | ⟨p, cs, n, h1, h2, h3, h4, ⟨i, hd, ho⟩ | rfl⟩⟩ := step_calm hc hs
  · exact ⟨se.cfg, se.length, se.wf⟩
  · obtain ⟨a, b, c⟩ := Outcome.fixed ho
    exact ⟨a.trans se.cfg, b.trans se.length, fun h => c (se.wf h)⟩
  · exact ⟨se.cfg, by simp [se.length], se.wf⟩

theorem State.names_congr {s t : State} (h1 : t.eng.qbase = s.eng.qbase) (h2 : t.cfg = s.cfg) (b : Nat → Prop) (e : Event)
    (h : s.names b e) : t.names b e := by
  cases e <;> simp_all [State.names, Engine.usedIndexAddr, Engine.availIndexAddr, Engine.usedIdAddr, Engine.usedLenAddr, Engine.availRingAddr, Engine.descAddr, Engine.usedAddr, Engine.availAddr]

theorem State.names_single {t : State} (e : Event) (b : Nat → Prop) (h : t.names (fun _ => False) e) : t.names b e := by
  cases e <;> simp_all [State.names]

theorem drainTrace_names {s : State} (c : U16) (xs : List Drain) (hs : drainSound c xs)
    : ∀ e ∈ drainTrace s.eng c xs, s.names (fun _ => False) e := by
  induction xs generalizing c with
  | nil => simp [drainTrace]
  | cons x xs ih =>
    obtain ⟨h1, h2, h3⟩ := hs
    intro e he
    rw [drainTrace, List.mem_append] at he
    rcases he with he | he
    · exact ih _ h3 e he
    · simp at he
      rcases he with rfl | rfl | rfl | rfl
      · exact h2
      · exact .inr ⟨rfl, _, modQ_lt _, .inr rfl⟩
      · exact .inr ⟨rfl, _, modQ_lt _, .inl rfl⟩
      · exact .inl ⟨rfl, .inl rfl⟩

theorem State.operandRegs_complete (u : State) (p : Nat) (e : ErrVal) (q : Nat) :
    ((u.complete p e).port q).operandRegs = (u.port q).operandRegs := by
    rw [State.port_complete]; split_ifs <;> rfl

theorem State.operandRegs_setR0 (u : State) (v : U64) (q : Nat) : ((u.setR0 v).port q).operandRegs = (u.port q).operandRegs := by
    rw [State.port_setR0]; split_ifs <;> rfl

theorem State.operandRegs_setR1 (u : State) (v : U32) (q : Nat) : ((u.setR1 v).port q).operandRegs = (u.port q).operandRegs := by
    rw [State.port_setR1]; split_ifs <;> rfl

theorem State.portsOk_turn {s : State} (hc : s.rstNext = false) (h : s.portsOk) : s.turn.portsOk := by
  have se := State.sameEngine_turn hc
  obtain ⟨h1, h2, h3, h4, h5, h6⟩ := h
  have wk : ∀ q, (s.turn.port q).busy = true → (s.turn.port q).work = (s.port q).work ∨ (s.turn.port q).work = .outstanding := by
    intro q hb
    by_cases hq : (s.port q).busy = true
    · exact .inl ((se.ports q).2.1 hq).1
    · rcases (se.ports q).2.2 (by simpa using hq) with k | k
      · rw [Port.busy, k] at hb; cases hb
      · exact .inr k
  refine ⟨by rw [se.cfg]; exact h1, by rw [se.cfg, se.length]; exact h2, by rw [se.cfg, se.eng]; exact h3, ?_, ?_, ?_⟩
  · intro p hp hw
    rw [se.length] at hp; rw [se.eng]
    rcases wk p (by simp [Port.busy, hw]) with k | k
    · exact h4 p hp (k.symm.trans hw)
    · rw [hw] at k; cases k
  · intro p hp i hw
    rw [se.length] at hp; rw [se.eng]
    rcases wk p (by simp [Port.busy, hw]) with k | k
    · exact h5 p hp i (k.symm.trans hw)
    · rw [hw] at k; cases k
  · intro p hp hw
    rw [se.length] at hp; rw [se.eng]
    refine h6 p hp ?_
    unfold State.holding at hw ⊢
    rcases wk p (by simp [Port.busy]; intro e; rw [e] at hw; cases hw) with k | k
    · rw [← k]; exact hw
    · rw [k] at hw; cases hw

/-- Holds that only disappear, on a lock that stays, keep the port invariant. -/
theorem State.portsOk_keep {s t : State} (h : s.portsOk) (h1 : t.cfg = s.cfg) (h2 : t.ports.length = s.ports.length)
  (h3 : t.eng.lock = s.eng.lock) (h4 : ∀ q, (∀ i, (t.port q).work = .holdWait i → (s.port q).work = .holdWait i ∧ (s.eng.signaled i = false → t.eng.signaled i = false)) ∧ ((t.port q).work = .holdLock → (s.port q).work = .holdLock))
  (h5 : s.eng.phase.running = true → t.eng.phase.running = true) : t.portsOk := by
  obtain ⟨a1, a2, a3, a4, a5, a6⟩ := h
  refine ⟨by rw [h1]; exact a1, by rw [h1, h2]; exact a2, by rw [h1, h3]; exact a3, ?_, ?_, ?_⟩
  · intro p hp hw; rw [h3]; rw [h2] at hp; exact a4 p hp ((h4 p).2 hw)
  · intro p hp i hw; rw [h2] at hp
    have := a5 p hp i ((h4 p).1 i hw).1
    exact ⟨this.1, ((h4 p).1 i hw).2 this.2⟩
  · intro p hp hw; rw [h2] at hp
    refine h5 (a6 p hp ?_)
    unfold State.holding at hw ⊢
    have := h4 p
    cases hq : (t.port p).work <;> rw [hq] at hw
    · cases hw
    · cases hw
    · rw [(this.1 _ hq).1]
    · rw [this.2 hq]

theorem Port.hold_of_hostChanged {q r : Port} (h : q.hostChanged r) :
    (∀ i, q.work = .holdWait i → r.work = .holdWait i) ∧ (q.work = .holdLock → r.work = .holdLock) := by
  refine ⟨fun i hq => Port.work_of_hostChanged h hq, fun hq => ?_⟩
  by_cases hb : r.busy = true
  · exact (h.2.1 hb).1.symm.trans hq
  · rcases h.2.2 (by simpa using hb) with hc | hc <;> rw [hq] at hc <;> cases hc

theorem Ran.holds {s u : State} {W es} (r : Ran s u W es) (q : Nat) :
    (∀ i, (u.port q).work = .holdWait i → (s.port q).work = .holdWait i) ∧
    ((u.port q).work = .holdLock → (s.port q).work = .holdLock) :=
  Port.hold_of_hostChanged (r.ports q)

theorem State.holds_complete (u : State) (p : Nat) (e : ErrVal) (q : Nat) :
    (∀ i, ((u.complete p e).port q).work = .holdWait i → (u.port q).work = .holdWait i) ∧
    (((u.complete p e).port q).work = .holdLock → (u.port q).work = .holdLock) := by
  rw [State.port_complete]; split_ifs <;> simp

theorem State.work_setR0 (u : State) (v : U64) (q : Nat) : ((u.setR0 v).port q).work = (u.port q).work := by
    rw [State.port_setR0]; split_ifs <;> rfl

theorem State.work_setR1 (u : State) (v : U32) (q : Nat) : ((u.setR1 v).port q).work = (u.port q).work := by
    rw [State.port_setR1]; split_ifs <;> rfl

theorem Outcome.portsOk {s t : State} {i : Instr} (hr : s.running) (hi : s.portsOk) (h : Outcome s i t) : t.portsOk := by
  have k := Outcome.fixed h
  have nohold : s.eng.phase.running = false → ∀ p < s.ports.length, s.holding p = false := fun hp p hl => by
    by_contra hc
    have := hi.2.2.2.2.2 p hl (by simpa using hc)
    rw [hp] at this; cases this
  have curl := hr.1
  have H : ∀ {u v : State} {W es} {e : ErrVal}, Ran s u W es → v.cfg = u.cfg → v.ports.length = u.ports.length → (∀ q, (v.port q).work = (u.port q).work) → v.eng.lock = u.eng.lock →  v.eng.completion = u.eng.completion → (u.eng.phase.running = true → v.eng.phase.running = true) → (v.complete u.cur e).portsOk := by
    intro u v W es e r h1 h2 h3 h4 h5 h6
    refine State.portsOk_keep hi (h1.trans r.cfg) (by simp [h2, r.length]) (h4.trans (by rw [r.eng])) (fun q => ?_) (fun x => h6 (by rw [r.eng]; exact x))
    have c := State.holds_complete v u.cur e q
    have d := Ran.holds r q
    rw [h3 q] at c
    refine ⟨fun i hw => ⟨d.1 i (c.1 i hw), ?_⟩, fun hw => d.2 (c.2 hw)⟩
    show s.eng.completion.getLsbD i = false → v.eng.completion.getLsbD i = false
    rw [h5, r.eng]; exact id
  have k0 := Ran.refl (s := s)
  cases h with
  | fault h5 h6 => exact State.portsOk_keep hi rfl rfl rfl (fun q => ⟨fun i h => ⟨h, id⟩, id⟩) id
  | featureFail r h hp | sizeTooSmall r h hp | configured r h hp | live r h hp => exact H r rfl rfl (fun _ => rfl) rfl rfl (by simp [r.eng, hp, Phase.running])
  | negotiated r h hp => exact H r rfl (by simp) (fun _ => State.work_setR0 ..) rfl rfl (by simp [r.eng, hp, Phase.running])
  | notified r h | spurious r h => exact H r rfl rfl (fun _ => rfl) rfl rfl id
  | statusRead r h | polled r h => exact H r rfl (by simp) (fun _ => State.work_setR0 ..) rfl rfl id
  | taken r h => exact H r rfl (by simp) (fun _ => by rw [State.work_setR1, State.work_setR0]; rfl) rfl rfl id
  | described r h | published r h => exact H r rfl rfl (fun _ => rfl) rfl rfl id
  | installed r h => 
    rename_i u es W q v hl hc
    refine State.portsOk_keep hi (by simp [r.cfg]) (by simp [r.length]) (by simp [r.eng]) (fun p => ?_) (fun x => by simpa [r.eng] using x)
    have c := State.holds_complete ((u.setEng fun e => { e with completion := setPending e.completion q.toNat }).setR0 v) u.cur .ok p
    have d := Ran.holds r p
    rw [State.work_setR0] at c
    refine ⟨fun i hw => ⟨d.1 i (c.1 i hw), ?_⟩, fun hw => d.2 (c.2 hw)⟩
    simp [Engine.signaled, getLsbD_setPending, r.eng]; intro a b; simp_all
  | constructed r h hp => 
    have nh := nohold (by rw [hp]; rfl)
    have hs : ∀ p, (s.port p).work ≠ .holdLock ∧ ∀ i, (s.port p).work ≠ .holdWait i := by
      intro p
      by_cases hl : p < s.ports.length
      · have := nh p hl
        unfold State.holding at this
        constructor
        · intro hc; rw [hc] at this; cases this
        · intro i hc; rw [hc] at this; cases this
      · rw [State.port_of_length_le _ (Nat.le_of_not_lt hl)]; simp [Port.reset]
    refine State.portsOk_keep hi (by simp [r.cfg]) (by simp [r.length]) (by simp [r.eng, Engine.constructed]) (fun p => ?_) (fun x => by simp [Engine.constructed, Phase.running])
    rename_i u _ _ _ _ _
    have c := State.holds_complete (State.setEng u Engine.constructed) u.cur .ok p
    have d := Ran.holds r p
    exact ⟨fun i hw => absurd (d.1 i (c.1 i hw)) ((hs p).2 i), fun hw => absurd (d.2 (c.2 hw)) (hs p).1⟩
  | @allocated v => 
    refine State.portsOk_keep hi rfl (by simp) rfl (fun p => ?_) id
    have c := State.holds_complete (State.setR0 s v) s.cur .ok p
    rw [State.work_setR0] at c
    exact ⟨fun i h => ⟨c.1 i h, id⟩, c.2⟩
  | @got q v w => 
    refine State.portsOk_keep hi rfl (by simp) rfl (fun p => ?_) id
    have c := State.holds_complete ((State.setR0 s v).setR1 w) s.cur .ok p
    rw [State.work_setR1, State.work_setR0] at c
    exact ⟨fun i h => ⟨c.1 i h, id⟩, c.2⟩
  | collided | waited => 
    refine State.portsOk_keep hi rfl (by simp) rfl (fun p => ?_) id
    have c := State.holds_complete s s.cur .ok p
    have c' := State.holds_complete s s.cur .requestError p
    first 
    | exact ⟨fun i h => ⟨c.1 i h, id⟩, c.2⟩
    | exact ⟨fun i h => ⟨c'.1 i h, id⟩, c'.2⟩
  | locked hf hc => 
    obtain ⟨a1, a2, a3, a4, a5, a6⟩ := hi
    have c := fun p => State.holds_complete (s.setLock (.held s.cur)) s.cur .ok p
    refine ⟨a1, by simpa using a2, ?_, ?_, ?_, ?_⟩
    · intro p hp
      simp at hp; subst hp; exact ⟨by omega, by simp only [State.complete_cfg, State.setLock_cfg]; omega⟩
    · intro p hp hw
      simp at hp
      exact ⟨(a4 p hp ((c p).2 hw)).1, by simp⟩
    · intro p hp i hw
      simp at hp
      exact a5 p hp i ((c p).1 i hw)
    · intro p hp hw
      simp at hp
      refine a6 p hp ?_
      unfold State.holding at hw ⊢
      rw [State.port_complete] at hw
      split_ifs at hw
      · cases hw
      · exact hw
  | freed hl hc he => 
    obtain ⟨a1, a2, a3, a4, a5, a6⟩ := hi
    have c := fun p => State.holds_complete (s.setLock .free) s.cur .ok p
    refine ⟨a1, by simpa using a2, ?_, ?_, ?_, ?_⟩
    · intro p hp
      simp at hp
    · intro p hp hw
      simp at hp
      have : p ∈ s.portsAt .holdLock := State.mem_portsAt.mpr ⟨hp, (c p).2 hw⟩
      rw [he] at this; cases this
    · intro p hp i hw
      simp at hp
      exact a5 p hp i ((c p).1 i hw)
    · intro p hp hw
      simp at hp
      refine a6 p hp ?_
      unfold State.holding at hw ⊢
      rw [State.port_complete] at hw
      split_ifs at hw
      · cases hw
      · exact hw
  | waits hc hs hp => 
    obtain ⟨a1, a2, a3, a4, a5, a6⟩ := hi
    refine ⟨a1, by simpa using a2, a3, ?_, ?_, ?_⟩
    · intro p hl hw
      simp at hl
      rw [State.port_setPort] at hw; split_ifs at hw
      · exact a4 p hl hw
    · intro p hl i hw
      simp at hl
      rw [State.port_setPort] at hw; split_ifs at hw with hx
      · simp at hw; subst hw; exact ⟨by omega, hs⟩
      · exact a5 p hl i hw
    · intro p hl hw
      exact hp
  | locks hc hs hp => 
    obtain ⟨a1, a2, a3, a4, a5, a6⟩ := hi
    refine ⟨a1, by simpa using a2, a3, ?_, ?_, ?_⟩
    · intro p hl hw
      simp at hl
      rw [State.port_setPort] at hw; split_ifs at hw
      · exact ⟨by omega, hc⟩
      · exact a4 p hl hw
    · intro p hl i hw
      simp at hl
      rw [State.port_setPort] at hw; split_ifs at hw with hx
      · exact a5 p hl i hw
    · intro p hl hw
      exact hp
  | handed hl hc hw0 => 
    rename_i w cs n
    obtain ⟨a1, a2, a3, a4, a5, a6⟩ := hi
    rw [State.mem_portsAt] at hw0
    have c := fun p => State.holds_complete (({ s with choices := cs, freeCount := n } : State).setLock (.held w)) w .ok p
    have c2 := fun p => State.holds_complete ((({ s with choices := cs, freeCount := n } : State).setLock (.held w)).complete w .ok) s.cur .ok p
    refine ⟨a1, by simpa using a2, ?_, ?_, ?_, ?_⟩
    · intro p hp
      simp at hp
      subst hp
      have := (a4 _ hw0.1 hw0.2).1
      exact ⟨this, by have := hw0.1; simp; omega⟩
    · intro p hp hw
      simp at hp
      exact ⟨(a4 p hp ((c p).2 ((c2 p).2 hw))).1, by simp⟩
    · intro p hp i hw
      simp at hp
      exact a5 p hp i ((c p).1 i ((c2 p).1 i hw))
    · intro p hp hw
      simp at hp
      refine a6 p hp ?_
      unfold State.holding at hw ⊢
      rw [State.port_complete] at hw
      split_ifs at hw
      · cases hw
      · rw [State.port_complete] at hw
        split_ifs at hw
        · cases hw
        · exact hw
  | signalled => 
     rename_i q hq
     obtain ⟨f1, f2, f3, f4, f5, f6, f7, f8, f9, f10⟩ := State.signalSlot_fields s q.toNat
     refine State.portsOk_keep hi k.1 k.2.1 (by simp [f2]) (fun p => ?_) (by simp [f2])
     have c := State.holds_complete (s.signalSlot q.toNat) s.cur .ok p
     rw [State.port_signalSlot] at c
     refine ⟨fun i h => ?_, fun h => ?_⟩
     · have := c.1 i h
       split_ifs at this with hx
       · cases this
       · refine ⟨this, fun h0 => ?_⟩
         simp [f2, Engine.signaled, getLsbD_setSignaled]
         refine ⟨h0, fun h1 => ?_⟩
         subst h1
         by_cases hl : p < s.ports.length
         · exact absurd ⟨hl, this⟩ hx
         · rw [State.port_of_length_le _ (Nat.le_of_not_lt hl)] at this; cases this
     · have := c.2 h
       split_ifs at this with hx
       · cases this
       · exact this
  | @drained v w u es fs xs n r h d hs r2 => 
    refine State.portsOk_keep hi k.1 k.2.1 (by simp [r2.eng, d.eng, Engine.drained, r.eng]) (fun p => ?_) (by simp [r2.eng, d.eng, Engine.drained, r.eng])
    have c := State.holds_complete (u.setR0 (zext64 n)) u.cur .ok p
    rw [State.work_setR0] at c
    have d1 := Ran.holds r2 p
    have d2 := Port.hold_of_hostChanged (d.ports p)
    have d3 := Ran.holds r p
    refine ⟨fun i h => ?_, fun h => ?_⟩
    · have a := d2.1 i (d1.1 i (c.1 i h))
      unfold Port.released at a
      split_ifs at a with hx
      · cases a
      have hn : i ∉ drainIds xs := fun hc => hx (by simp [a]; exact hc)
      exact ⟨d3.1 i a, fun h0 => by simp [r2.eng, d.eng, Engine.drained, r.eng, Engine.signaled, getLsbD_foldl_setSignaled, hn]; exact h0⟩
    · have a := d2.2 (d1.2 (c.2 h))
      unfold Port.released at a
      split_ifs at a with hx
      · cases a
      · exact d3.2 a
  | @badId v w u es fs xs r h d hs r2 =>
    refine State.portsOk_keep hi k.1 k.2.1 (by simp [r2.eng, d.eng, Engine.drained, r.eng, Engine.advanced]) (fun p => ?_) (by simp [r2.eng, d.eng, Engine.drained, r.eng, Engine.advanced])
    have d1 := Ran.holds r2 p
    have d2 := Port.hold_of_hostChanged (d.ports p)
    have d3 := Ran.holds r p
    refine ⟨fun i h => ?_, fun h => ?_⟩
    · have a := d2.1 i (d1.1 i h)
      unfold Port.released at a
      split_ifs at a with hx
      · cases a
      have hn : i ∉ drainIds xs := fun hc => hx (by simp [a]; exact hc)
      exact ⟨d3.1 i a, fun h0 => by simp [r2.eng, d.eng, Engine.drained, r.eng, Engine.signaled, getLsbD_foldl_setSignaled, hn, Engine.advanced]; exact h0⟩
    · have a := d2.2 (d1.2 h)
      unfold Port.released at a
      split_ifs at a with hx
      · cases a
      · exact d3.2 a

end Sys2Proof.Machine
end

