-- ==== Sys2Proof/Tests/Slice0.lean ====
section
/-! SUPPORT. The model's own tests: words decoded as the spec writes them, what WellFormed refuses, single steps of the
vectors of spec/95_test_vectors.md (expected values are that file's), and for each obligation with hypotheses a state that
meets them. -/

namespace Sys2Proof.Tests
open Sys2Proof Sys2Proof.Machine

-- One theorem after another: each `decide +kernel` waits for the kernel, and many waiting at once take a thread each.
set_option Elab.async false

/-! ### Decoding (spec/95_test_vectors.md 2.1, V-EN-1 to V-EN-30) -/

theorem test_decode_negotiate : decode 0x00000001 = .instr .negotiate := by decide
theorem test_decode_cfgring : decode 0x00000002 = .instr (.cfgring 0) ∧ decode 0x00010002 = .instr (.cfgring 1) := by decide
theorem test_decode_drvok : decode 0x00000003 = .instr .drvok ∧ decode 0x12340003 = .instr .drvok := by decide
theorem test_decode_notify : decode 0x00000004 = .instr (.notify 0) ∧ decode 0x00020004 = .instr (.notify 2) := by decide
theorem test_decode_ipend : decode 0x00000005 = .instr .ipend := by decide
theorem test_decode_qinit : decode 0x00000010 = .instr .qinit := by decide
theorem test_decode_alloc : decode 0x00000011 = .instr .alloc := by decide
theorem test_decode_adddesc :
    decode 0x00010012 = .instr (.adddesc 1) ∧ decode 0x00030012 = .instr (.adddesc 3)
      ∧ decode 0x00020012 = .instr (.adddesc 2) ∧ decode 0xFFFF0012 = .instr (.adddesc 0xFFFF) := by decide
theorem test_decode_publish : decode 0x00000013 = .instr .publish := by decide
theorem test_decode_poll : decode 0x00000014 = .instr .poll := by decide
theorem test_decode_take : decode 0x00000015 = .instr .take := by decide
theorem test_decode_get : decode 0x00030020 = .instr (.get 3) := by decide
theorem test_decode_install : decode 0x00050021 = .instr (.install 5) := by decide
theorem test_decode_signal : decode 0x007F0022 = .instr (.signal 127) := by decide
theorem test_decode_wait : decode 0x007F0023 = .instr (.wait 127) ∧ decode 0x00800023 = .instr (.wait 128) := by decide
theorem test_decode_lock : decode 0x00000024 = .instr .lock := by decide
theorem test_decode_unlock : decode 0x00000025 = .instr .unlock := by decide
theorem test_decode_irqh : decode 0x00000030 = .instr .irqh := by decide
theorem test_decode_illegal :
    decode 0x00000000 = .illegalOpc 0x00 ∧ decode 0x00000006 = .illegalOpc 0x06 ∧ decode 0x00000016 = .illegalOpc 0x16
      ∧ decode 0x00000026 = .illegalOpc 0x26 ∧ decode 0x00000031 = .illegalOpc 0x31 ∧ decode 0x000000FF = .illegalOpc 0xFF
      ∧ decode 0x00000112 = .illegalRsv 0x01 ∧ decode 0x0003FF12 = .illegalRsv 0xFF := by decide

/-! ### What WellFormed refuses -/

theorem test_refuses_reserved_byte : wordWellFormed 0x00000112 = false := by decide
theorem test_refuses_undefined_opcode : wordWellFormed 0x00000006 = false ∧ wordWellFormed 0x000000FF = false := by decide
theorem test_accepts_wait_128 : wordWellFormed 0x00800023 = true ∧ (Instr.wait 128).wellFormed = true := by decide
theorem test_accepts_default_config : defaultConfig.wellFormed = true := by decide
theorem test_refuses_empty_payload : Config.wellFormed { defaultConfig with reqBytes := 0, statusOff := 0 } = false := by decide
theorem test_refuses_short_stride : Config.wellFormed { defaultConfig with reqStride := 16 } = false := by decide
theorem test_refuses_no_submitter : Config.wellFormed { defaultConfig with nsub := 0 } = false := by decide
theorem test_refuses_status_outside : Config.wellFormed { defaultConfig with statusOff := 17 } = false := by decide
theorem test_refuses_odd_base : Config.wellFormed { defaultConfig with mmioBase := 0x10001002 } = false := by decide
theorem test_refuses_equal_offsets : Offsets.wellFormed { magic := 0x004 } = false := by decide
theorem test_refuses_offsets_out_of_order :
    Offsets.wellFormed { magic := 0x004, version := 0x000 } = false ∧ Offsets.distinct { magic := 0x004, version := 0x000 } = true := by
  decide
theorem test_refuses_odd_offset : Offsets.wellFormed { config := 0x102 } = false := by decide
theorem test_refuses_two_status_bits : Config.wellFormed { defaultConfig with stDriver := 6 } = false := by decide
theorem test_refuses_equal_status_bits : Config.wellFormed { defaultConfig with stDriver := 1 } = false := by decide
theorem test_refuses_no_flag_bit : Config.wellFormed { defaultConfig with fWrite := 0 } = false := by decide
theorem test_refuses_equal_flag_bits : Config.wellFormed { defaultConfig with fWrite := 1 } = false := by decide

/-! ### Small states -/

/-- The engine of S-LIVE (spec/95_test_vectors.md section 0). -/
def live : Engine := { Engine.reset with phase := .live, qbase := 0x80200000, poolBase := 0x80210000 }

/-- The same before `DRVOK`. -/
def ready : Engine := { live with phase := .ringReady }

/-- S-LIVE with the lock held by port 1. -/
def locked : Engine := { live with lock := .held 1 }

/-- A chain of one descriptor, at 0, closed. -/
def built : Engine := { locked with nextFreeDesc := 1, chainLen := 1 }

/-- A chain of the descriptors 0, 1, 2 in flight. -/
def flying : Engine := { live with nextFreeDesc := 3, chainHead := 3, inflight := [(0, [0, 1, 2])] }

/-- The example device (section 0). -/
def device : Device :=
  { Device.reset with hostFeatures := [(0, 0xB)], queues := [(0, { max := 128, num := 0, pfn := 0 })] }

def operands (a0 a1 a2 : U64) : Sample := { Sample.reset defaultConfig with a0 := a0, a1 := a1, a2 := a2 }

/-- Port `p` runs a command that was issued with the operands `o`. -/
def given (e : Engine) (p : Nat) (o : Sample := Sample.reset defaultConfig) : State :=
  { State.reset with
    eng := e, dev := device, cur := p
    ports := State.reset.ports.modify p fun q => { q with work := .outstanding, sample := o } }

/-- Port `p` holds. -/
def State.holds (s : State) (p : Nat) (w : Work) : State := s.setPort p fun q => { q with work := w }

/-- Memory of V-RT-12: two used entries and `used.index = 2`. -/
def twoUsed : Memory :=
  [(0x80201002, 2), (0x80201004, 4), (0x80201008, 100), (0x80201010, 1), (0x80201011, 2)]

/-- One used entry with the id `id` and the length 513, and `used.index = 1`. -/
def oneUsed (id : Byte) : Memory :=
  (Memory.write [(0x80201002, 1), (0x80201008, 1), (0x80201009, 2)] 0x80201004 id)

/-- The interrupt status reads `v`. -/
def State.pendingIrq (s : State) (v : U32) : State := { s with dev := { s.dev with interruptStatus := v } }

/-- The command ends in a next state of which `f` holds. -/
def ends (r : Result) (f : State → Bool) : Bool :=
  match r with
  | .next t => f t
  | .fault _ => false
  | .refused _ => false

/-- The command raised the protocol fault `pf` and made no access. -/
def faults (r : Result) (pf : PF) : Bool := ends r fun t => t.eng.pfault == some pf && t.history == []

/-- A used index of 1 with slot 4 and 0 waiting: the state of V-PR-3. -/
def v_pr_3 : State :=
  State.pendingIrq { (given { live with inflight := [(0, [0]), (4, [4])], completion := setPending (setPending live.completion 0) 4 } 0)
    with mem := twoUsed } 1

/-! ### Single steps (the vectors named) -/

-- V-CR-1, V-CR-3.
theorem test_negotiate : ends (exec .negotiate (given Engine.reset 1 (operands 0xDEADBEEF00000007 0 0))) (fun t =>
    t.accesses.reverse == [.mmioW 0x070 0, .mmioR 0x070 0, .mmioW 0x070 1, .mmioR 0x070 1, .mmioW 0x070 3, .mmioR 0x010 0xB,
      .mmioW 0x020 3, .mmioR 0x070 3, .mmioW 0x070 0xB, .mmioR 0x070 0xB]
    && t.eng.features == 3 && t.eng.phase == .featuresOk && (t.port 1).r0 == 3 && (t.port 1).err == .ok) = true := by
  decide +kernel

-- V-CR-5.
theorem test_negotiate_declined :
    ends (exec .negotiate { (given Engine.reset 1 (operands 7 0 0)) with
        script := [[], [], [], [], [], [], [], [], [], [.devDecline]] }) (fun t =>
      t.accesses.head? == some (.mmioR 0x070 3) && t.eng.features == 0 && t.eng.phase == .failed && (t.port 1).r0 == 0
      && (t.port 1).err == .featureFail && t.dev.guestFeatures == 3) = true := by
  decide +kernel

-- V-CR-8.
theorem test_cfgring : ends (exec (.cfgring 0) (given { Engine.reset with phase := .featuresOk } 1 (operands 128 4096 0x80200))) (fun t =>
    t.accesses.reverse == [.mmioW 0x030 0, .mmioR 0x034 128, .mmioW 0x038 128, .mmioW 0x028 4096, .mmioW 0x040 0x80200]
    && t.eng.cfgSize == 128 && t.eng.cfgPage == 4096 && t.eng.cfgPfn == 0x80200 && t.eng.phase == .ringConfigured
    && (t.port 1).err == .ok) = true := by
  decide +kernel

-- V-CR-12.
theorem test_cfgring_unsigned :
    ends (exec (.cfgring 0) (given { Engine.reset with phase := .featuresOk } 1 (operands 0x80000000 4096 0x80200))) (fun t =>
      t.accesses.reverse == [.mmioW 0x030 0, .mmioR 0x034 128] && t.eng.cfgSize == 0 && t.eng.phase == .failed
      && (t.port 1).err == .ringSizeTooSmall) = true := by
  decide +kernel

-- V-CR-15.
theorem test_drvok : ends (exec .drvok { (given ready 1) with dev := { device with status := 0xB } }) (fun t =>
    t.accesses.reverse == [.mmioR 0x070 0xB, .mmioW 0x070 0xF] && t.eng.phase == .live && (t.port 1).err == .ok) = true := by
  decide +kernel

-- V-CR-17, V-CR-18, V-CR-19.
theorem test_notify : ends (exec (.notify 2) (given live 0)) (fun t => t.accesses == [.mmioW 0x050 2] && t.eng == live) = true := by
  decide +kernel
theorem test_notify_before_drvok : faults (exec (.notify 0) (given ready 1)) .pf6 = true := by decide +kernel

-- V-CR-20.
theorem test_ipend : ends (exec .ipend (State.pendingIrq (given { Engine.reset with phase := .failed } 0) 1)) (fun t =>
    t.accesses == [.mmioR 0x060 1] && (t.port 0).r0 == 1 && t.dev.interruptStatus == 1) = true := by
  decide +kernel

-- V-RT-17.
theorem test_qinit_size :
    faults (exec .qinit (given { Engine.reset with phase := .ringConfigured, cfgSize := 64, cfgPage := 4096 } 1)) .pf9 = true := by
  decide +kernel

-- V-RT-1.
theorem test_alloc : ends (exec .alloc (given { locked with nextFreeDesc := 3, chainHead := 3 } 1)) (fun t =>
    t.history == [.complete 1 .ok 3 0] && (t.port 1).r0 == 3) = true := by
  decide +kernel

-- V-RT-2.
theorem test_adddesc_wraps :
    ends (exec (.adddesc 1) (given { locked with nextFreeDesc := 127, chainHead := 127 } 1 (operands 0x80210FE0 16 0))) (fun t =>
      t.accesses.reverse == [.memW 0x802007F0 8 0x80210FE0, .memW 0x802007F8 4 16, .memW 0x802007FC 2 1, .memW 0x802007FE 2 0]
      && t.eng.nextFreeDesc == 0 && t.eng.chainLen == 1 && t.eng.chainOpen) = true := by
  decide +kernel

-- V-RT-4, V-RT-5.
theorem test_adddesc_bytes :
    ends (exec (.adddesc 0xFFFF) (given locked 1 (operands 0xFFFFFFFFFFFFFFFF 0x0000000100000010 0))) (fun t =>
      t.mem.load 0x80200000 16 == [0xFF, 0xFF, 0xFF, 0xFF, 0xFF, 0xFF, 0xFF, 0xFF, 0x10, 0, 0, 0, 0xFF, 0xFF, 1, 0]) = true := by
  decide +kernel

-- V-RT-6.
theorem test_publish_wraps :
    ends (exec .publish { (given { locked with nextFreeDesc := 6, chainHead := 5, chainLen := 1 } 1) with
        mem := [(0x80200802, 0xFF), (0x80200803, 0xFF)] }) (fun t =>
      t.accesses.reverse == [.memR 0x80200802 2 0xFFFF, .memW 0x80200902 2 5, .memW 0x80200802 2 0]
      && t.eng.inflight == [(5, [5])] && t.eng.chainHead == 6 && t.eng.chainLen == 0) = true := by
  decide +kernel

-- V-RT-7b.
theorem test_publish_open : faults (exec .publish (given { built with chainOpen := true } 1)) .pf2 = true := by decide +kernel

-- V-RT-11c.
theorem test_poll_across_the_wrap : ends (exec .poll (given { live with lastConsumedUsed := 0xFFFF } 1)) (fun t =>
    t.accesses == [.memR 0x80201002 2 0] && (t.port 1).r0 == 1) = true := by
  decide +kernel

-- V-RT-12.
theorem test_take : ends (exec .take { (given { live with inflight := [(0, [0]), (4, [4])] } 0) with mem := twoUsed }) (fun t =>
    t.accesses.reverse == [.memR 0x80201004 4 4, .memR 0x80201008 4 100] && (t.port 0).r0 == 4 && (t.port 0).r1 == 100
    && t.eng.lastConsumedUsed == 1 && t.eng.inflight == [(0, [0])]) = true := by
  decide +kernel

-- V-RT-13.
theorem test_take_wraps :
    ends (exec .take { (given { live with lastConsumedUsed := 0xFFFF } 0) with mem := [(0x802013FC, 7)] }) (fun t =>
      t.accesses.reverse == [.memR 0x802013FC 4 7, .memR 0x80201400 4 0] && t.eng.lastConsumedUsed == 0) = true := by
  decide +kernel

-- V-SP-1b, V-SP-1c.
theorem test_get : ends (exec (.get 127) (given live 1)) (fun t => (t.port 1).r0 == 0x80210FE0 && (t.port 1).r1 == 1) = true := by
  decide +kernel
theorem test_get_range : faults (exec (.get 128) (given live 1)) .pf7 = true := by decide +kernel

-- V-SP-3 with a payload of 17 bytes.
theorem test_install :
    ends (exec (.install 9) (given locked 1 { Sample.reset defaultConfig with
        pbuf := [1, 2, 3, 4, 5, 6, 7, 8, 9, 10, 11, 12, 13, 14, 15, 16, 17] })) (fun t =>
      t.mem.load 0x80210120 18 == [1, 2, 3, 4, 5, 6, 7, 8, 9, 10, 11, 12, 13, 14, 15, 16, 17, 0]
      && t.eng.signaled 9 == false && t.eng.signaled 8 && (t.port 1).r0 == 0x80210120) = true := by
  decide +kernel

-- V-SP-2b.
theorem test_install_collides :
    ends (exec (.install 0) (given { locked with completion := setPending locked.completion 0 } 1)) (fun t =>
      t.history == [.complete 1 .requestError 0 0] && t.mem == [] && (t.port 1).err == .requestError) = true := by
  decide +kernel

-- V-SP-6.
theorem test_signal : ends (exec (.signal 0) (State.holds (given { live with completion := setPending live.completion 0 } 0) 1 (.holdWait 0)))
    (fun t => t.eng.signaled 0 && (t.port 1).busy == false && (t.port 1).err == .ok && t.accesses == [.signal 0]) = true := by
  decide +kernel

-- V-SP-9.
theorem test_signal_in_flight : faults (exec (.signal 0) (given flying 0)) .pf8 = true := by decide +kernel

-- V-SP-5, and rule R184.
theorem test_wait_signalled : ends (exec (.wait 6) (given live 1)) (fun t => (t.port 1).busy == false) = true := by decide +kernel
theorem test_wait_holds : ends (exec (.wait 0) (given { live with completion := setPending live.completion 0 } 1)) (fun t =>
    (t.port 1).work == .holdWait 0 && t.history == []) = true := by
  decide +kernel

-- V-SP-7, V-SP-7b.
theorem test_lock : ends (exec .lock (given live 1)) (fun t => t.eng.lock == .held 1 && (t.port 1).busy == false) = true := by
  decide +kernel
theorem test_lock_by_its_owner : ends (exec .lock (given locked 1)) (fun t =>
    t.eng.lock == .held 1 && (t.port 1).work == .holdLock) = true := by
  decide +kernel

-- V-SP-7, V-SP-8.
theorem test_unlock : ends (exec .unlock (State.holds (given locked 1) 2 .holdLock)) (fun t =>
    t.eng.lock == .held 2 && (t.port 1).busy == false && (t.port 2).busy == false) = true := by
  decide +kernel
theorem test_unlock_by_another : faults (exec .unlock (given locked 2)) .pf4 = true := by decide +kernel

-- V-PR-3.
theorem test_irqh : ends (exec .irqh v_pr_3) (fun t =>
    t.accesses.reverse == [.mmioR 0x060 1, .mmioW 0x064 1, .memR 0x80201002 2 2, .memR 0x80201004 4 4, .memR 0x80201008 4 100,
      .signal 4, .memR 0x80201002 2 2, .memR 0x8020100C 4 0, .memR 0x80201010 4 513, .signal 0, .memR 0x80201002 2 2]
    && (t.port 0).r0 == 2 && t.eng.lastConsumedUsed == 2 && t.eng.signaled 0 && t.eng.signaled 4) = true := by
  decide +kernel

-- V-PR-5.
theorem test_irqh_bad_id : ends (exec .irqh (State.pendingIrq { (given live 0) with mem := oneUsed 200 } 1)) (fun t =>
    t.eng.pfault == some .pf7 && t.eng.lastConsumedUsed == 1 && (t.port 0).busy) = true := by
  decide +kernel

-- V-EN-31.
theorem test_illegal_word : ends (runWord 0x00000031 (given { Engine.reset with phase := .failed } 0)) (fun t =>
    t.history == [.complete 0 .illegalCommand 0 0] && t.eng.pfault == none) = true := by
  decide +kernel

-- Placing a word from outside, right after reset (the first line of program P1 with the operand 0).
theorem test_placed_word_runs :
    ends (step (State.reset.withFetchWord 32 0x00000001)) (fun t => t.eng.phase == .featuresOk && (t.port 1).err == .ok) = true := by
  decide +kernel

-- R162: construction in a state that meets its contract.
theorem qinit_constructs {s : State} (h : s.calm) (ha : s.admits .qinit) (hf : s.layoutFits s.operands.a0) :
    ∃ t, exec .qinit s = .next t ∧ t.eng.qbase = zext64 s.eng.cfgPfn * zext64 s.eng.cfgPage
      ∧ t.eng.poolBase = s.operands.a0 ∧ t.eng.phase = .ringReady := by
  obtain ⟨u, r, -, hb⟩ := qinitBody_spec h hf
  exact ⟨_, (command_admitted qinitBody ha).trans (congrArg Acc.result hb), congrArg Engine.qbase r.eng, congrArg Engine.poolBase r.eng, rfl⟩

/-- Ready for construction with the page frame number `pfn` and the pool base `pool`. -/
def configured (size pfn : U32) (pool : U64) : State :=
  given { Engine.reset with phase := .ringConfigured, cfgSize := size, cfgPage := 4096, cfgPfn := pfn } 1 (operands pool 0 0)

theorem test_qinit :
    ∃ t, exec .qinit (configured 128 0x80200 0x80210000) = .next t
      ∧ t.eng.qbase = 0x80200000 ∧ t.eng.poolBase = 0x80210000 ∧ t.eng.phase = .ringReady := by
  obtain ⟨t, h, hq, hp, hr⟩ := qinit_constructs (s := configured 128 0x80200 0x80210000) (by decide) (by decide) (by decide)
  exact ⟨t, h, hq.trans (by decide), hp.trans (by decide), hr⟩

/-! ### The register block, software's sequences, the duties -/

-- R71, R41: magic is 0x74726976, so "v" stands lowest; status is at +0x70.
theorem test_register_block : (given live 1).blockByte 0x10001000 = some 0x76 ∧ (given live 1).blockByte 0x10001003 = some 0x74
    ∧ ({ (given live 1) with dev := { device with status := 0x0000040F } }).blockByte 0x10001071 = some 4
    ∧ (given live 1).blockByte 0x100010FC = none := by decide +kernel

/-- The three descriptors of program P2. -/
def p2Descs : List Desc :=
  [{ addr := 0x80210000, len := 16, flags := 0 }, { addr := 0x80300000, len := 512, flags := 2 },
   { addr := 0x80210010, len := 1, flags := 2 }]

-- V-PR-8, on the machine.
theorem test_submit_refused :
    (((submit defaultConfig [1, 2, 3] p2Descs).drive 1 2
        { State.reset with eng := { live with completion := setPending live.completion 0 } }).map
      fun r => (r.1, r.2.accesses, r.2.eng.lock)) = some (.requestError, [], .free) := by decide +kernel

def reply (r0 : U64) : Reply := { err := .ok, r0 := r0, r1 := 0 }

-- Program P2, steps 1 to 13, seen from the submitter; R205: the asynchronous form ends with NOTIFY.
theorem test_submit :
    ((submit defaultConfig [] p2Descs).trace ((reply 0 :: reply 0 :: [reply 0x80210000]) ++ List.replicate 7 (reply 0)) [0]).2
      = some .success
    ∧ ((submit defaultConfig [] p2Descs).trace ((reply 0 :: reply 0 :: [reply 0x80210000]) ++ List.replicate 7 (reply 0)) [1]).2
      = some .failure := by decide
theorem test_submit_async :
    let r := (submitAsync defaultConfig [] p2Descs).trace (List.replicate 9 (reply 0)) []
    r.1.map (fun c => encode c.instr) = [0x24, 0x11, 0x21, 0x00010012, 0x00030012, 0x00020012, 0x13, 0x25, 0x04]
      ∧ r.2 = some (some 0) := by decide

-- V-PR-9; and R205: return if IPEND answers zero.
theorem test_drain :
    let r := (drainRoutine 9 .ipend).trace (List.map reply [1, 1, 4, 0, 1, 0, 0, 0]) []
    r.1.map (fun c => encode c.instr) = [0x05, 0x14, 0x15, 0x00040022, 0x14, 0x15, 0x22, 0x14] ∧ r.2 = some .finished := by decide
theorem test_drain_not_ours :
    let r := (drainRoutine 9 .ipend).trace [reply 0] []
    r.1.map (fun c => encode c.instr) = [0x05] ∧ r.2 = some .finished := by decide

-- R202: FeatureFail is fatal, nothing more is issued.
theorem test_setup_stops :
    let r := (setup 7 0 0x80200 0x80210000).trace [{ err := .featureFail, r0 := 0, r1 := 0 }] []
    r.1.length = 1 ∧ r.2 = some .featureFail := by decide

-- R166, C2: an id that names no slot, and fits no operand of SIGNAL, is not signalled (the model's choice, log 25).
theorem test_drain_bad_id :
    let r := (drainRoutine 9 .ipend).trace (List.map reply [1, 1, 0x10000]) []
    r.1.map (fun c => encode c.instr) = [0x05, 0x14, 0x15] ∧ r.2 = some (.badId 0x10000) := by decide

/-- A live device, and one `WRITE` descriptor for the status byte of slot 0, about to be published. -/
def toPublish : State :=
  { (given built 1) with
    dev := { device with status := 0xF }, ledger := { Ledger.empty with ring := some 0x80200000 }
    mem := [(0x80200000, 0x10), (0x80200002, 0x21), (0x80200003, 0x80), (0x80200008, 1), (0x8020000C, 2)] }

/-- The same, published. -/
def published : State :=
  match exec .publish toPublish with
  | .next t => t
  | .fault _ => toPublish
  | .refused _ => toPublish

def statusByte : Move := .devMemW 0x80210010 [0]
def usedEntry (len : Byte) : Move := .devMemW 0x80201004 [0, 0, 0, 0, len, 0, 0, 0]
def usedIndex : Move := .devMemW 0x80201002 [1, 0]

-- R93, R244 (c), (d): in-place result, entry with the number of bytes written, index, interrupt, in this order.
theorem test_device_order :
    published.dutifulAll [statusByte, usedEntry 1, usedIndex, .devIrq 1] = true
    ∧ published.dutifulAll [usedEntry 1, statusByte] = false ∧ published.dutifulAll [statusByte, usedIndex] = false
    ∧ published.dutifulAll [statusByte, usedEntry 2, usedIndex] = false
    ∧ published.dutifulAll [statusByte, usedEntry 1, .devIrq 1] = false
    ∧ published.dutifulAll [statusByte, usedEntry 1, usedIndex, usedEntry 1] = false
    ∧ published.dutifulAll [statusByte, usedEntry 1, usedIndex, .devIrq 1, .devIrq 1] = false := by decide +kernel

/-- Chains 4 and 0 published, with a buffer of two bytes the device may write. -/
def twoPublished : State :=
  let grant (head : Nat) (a : U64) : Grant :=
    { head := head, descs := [head], payload := 0x80210000 + 32 * BitVec.ofNat 64 head,
      buffers := [{ addr := a, len := 2, write := true }], written := [], stage := .published }
  { toPublish with
    ledger := { ring := some 0x80200000, grants := [grant 0 0x80300000, grant 4 0x80300010], owes := false } }

/-- The used entry at position `j`. -/
def entryAt (j id len : Byte) : Move := .devMemW (0x80201004 + 8 * j.setWidth 64) [id, 0, 0, 0, len, 0, 0, 0]
def indexAt (n : Byte) : Move := .devMemW 0x80201002 [n, 0]

-- V-RT-12's device, R93, R244 (c), (e): both entries before the index, in two writes or (log 31) one; never past a missing one.
theorem test_device_ahead :
    twoPublished.dutifulAll [entryAt 0 4 0, entryAt 1 0 0, indexAt 1, indexAt 2, .devIrq 1] = true
    ∧ twoPublished.dutifulAll [entryAt 1 0 0, entryAt 0 4 0, indexAt 2] = true
    ∧ twoPublished.dutifulAll [entryAt 0 4 0, indexAt 2] = false ∧ twoPublished.dutifulAll [entryAt 1 0 0, indexAt 1] = false
    ∧ twoPublished.dutifulAll [entryAt 0 4 0, entryAt 1 4 0, indexAt 2] = false
    ∧ published.dutifulAll [entryAt 1 0 0, statusByte] = false := by decide +kernel

-- R244 (c): what `len` counts stays what was written; R274: the bytes counted may be written again until the signal.
theorem test_device_len :
    let done : List Move := [.devMemW 0x80300000 [7], entryAt 0 0 1, indexAt 1]
    twoPublished.dutifulAll (done ++ [.devMemW 0x80300000 [8]]) = true
    ∧ twoPublished.dutifulAll (done ++ [.devMemW 0x80300001 [8]]) = false := by decide +kernel

-- U19: front-ends set neither INDIRECT nor an unnamed flag.
theorem test_flags :
    let s := (given locked 2).setPort 1 fun q => { q with written := { q.written with a0 := true, a1 := true } }
    s.dutiful (.issue 1 0x00030012) = true ∧ s.dutiful (.issue 1 0x00040012) = false
      ∧ s.dutiful (.issue 1 0x00080012) = false := by decide

-- R6, R98: after the last index read of IRQH and before its completion the device covers another entry.
theorem test_completion_point :
    ends (exec .irqh { (given live 0) with
        dev := { device with interruptStatus := 1 }, script := [[], [], [], [.devMemW 0x80201002 [1, 0]]] }) (fun t =>
      (t.port 0).r0 == 0 && t.usedIndexNow == 1 && t.eng.lastConsumedUsed == 0) = true := by decide

-- R243: used.flags at any step; R244 (a), (b), (f): no descriptor before DRIVER_OK or not published, no write of a table.
theorem test_device_reach :
    toPublish.dutiful (.devMemW 0x80201000 [1, 0]) = true ∧ toPublish.dutiful (.devMemR 0x80200000 16) = false
    ∧ published.dutiful (.devMemR 0x80200000 16) = true ∧ published.dutiful (.devMemR 0x80200010 16) = false
    ∧ published.dutiful (.devMemW 0x80200000 [0]) = false ∧ published.dutiful (.devMemW 0x80210000 [0]) = false
    ∧ ({ published with dev := device } : State).dutiful (.devMemR 0x80200802 2) = false := by decide +kernel

-- R82, R274, R262: payload and buffer from PUBLISH on, over `RST`, until status is written 0.
theorem test_ownership :
    published.dutiful (.hostMemW 0x80210003 [1]) = false ∧ published.dutifulAll [.rst, .hostMemW 0x80210003 [1]] = false
    ∧ published.dutifulAll [.rst, statusByte] = true
    ∧ (published.applyMoves [.rst, .hostMmioW .status 0]).dutiful (.hostMemW 0x80210003 [1]) = true
    ∧ (given { live with completion := setPending live.completion 0 } 1).dutiful (.hostMemW 0x80210003 [1]) = false
    ∧ (given live 1).dutiful (.hostMemW 0x80210003 [1]) = true
    -- The engine in INSTALL.
    ∧ (given live 1 { Sample.reset defaultConfig with word := 0x00000021 }).dutiful (.hostMemW 0x80210003 [1]) = false
    ∧ (given live 1 { Sample.reset defaultConfig with word := 0x00010021 }).dutiful (.hostMemW 0x80210003 [1]) = true := by
  decide +kernel

-- R89: the request buffer is filled before PUBLISH is issued.
theorem test_buffer_before_publish :
    let s : State := { (given built 1) with mem := [(0x80200002, 0x30), (0x80200003, 0x80), (0x80200008, 1)] }
    s.dutiful (.hostMemW 0x80300000 [1]) = true
    ∧ (s.setPort 1 fun q => { q with sample := { q.sample with word := 0x00000013 } }).dutiful (.hostMemW 0x80300000 [1]) = false
    ∧ (s.setPort 1 fun q => { q with sample := { q.sample with word := 0x00000013 } }).dutiful (.hostMemW 0x80300001 [1]) = true := by
  decide +kernel

-- R56, R245, U18.
theorem test_device_moves :
    let s : State := { (given live 1) with dev := { device with status := 0x1F } }
    (s.applyMove (.devStatusDrop 0x1F)).dev.status = 0xF
      ∧ ((s.applyMove (.devQueueRegs 0 64 0x99)).dev.queue 0) = { max := 128, num := 64, pfn := 0x99 } := by decide

/-! ### States that meet the hypotheses of the obligations, clause by clause

Each theorem is named after the obligation it belongs to. An answer `exec i s = .next t` among the hypotheses is shown by
`ends`. -/

/-- The command ends in a next state. -/
def completes (i : Instr) (s : State) : Bool := ends (exec i s) fun _ => true

/-- A second command outstanding, on port `p`, with the word `w`. -/
def State.also (s : State) (p : Nat) (w : U32) : State :=
  s.setPort p fun q => { q with work := .outstanding, sample := { q.sample with word := w } }

/-- Port `p` has the command `w` outstanding. -/
def issued (e : Engine) (p : Nat) (w : U32) : State := State.also { State.reset with eng := e, dev := device } p w

def faulted : Engine := { live with pfault := some .pf6 }

theorem witness_EveryCommandDecodesFromItsWord :
    (Instr.adddesc 0xFFFF).wellFormed = true ∧ (Instr.wait 0).wellFormed = true ∧ Instr.irqh.wellFormed = true := by decide

theorem witness_IllegalWordsOnlyReportIllegalCommand :
    ((given live 0).running ∧ rsvField 0x00000112 ≠ 0) ∧ ((given live 2).running ∧ reservedOpcode (opcField 0x00000031) = true)
      ∧ rsvField 0x00000030 = 0 ∧ reservedOpcode (opcField 0x00000030) = false := by decide

theorem witness_StepRunsTheCommandTakenUp :
    ∃ u v, point (State.also (issued live 1 0x14) 0 0x05) = .ok () u ∧ u.eng.pfault = none
      ∧ takeUp { u with choices := [0] } = some (0, v) ∧ takeUp (issued live 1 0x14) = some (1, { issued live 1 0x14 with cur := 1 })
      ∧ decode (u.port 0).sample.word = .instr .ipend ∧ decode (u.port 1).sample.word = .instr .poll
      ∧ takeUp (issued live 2 0x31) = some (2, { issued live 2 0x31 with cur := 2 })
      ∧ ∀ i, decode ((issued live 2 0x31).port 2).sample.word ≠ .instr i :=
  ⟨_, _, rfl, rfl, rfl, rfl, by decide, by decide, rfl, fun i h => by
    rw [show decode ((issued live 2 0x31).port 2).sample.word = .illegalOpc 0x31 by decide] at h
    cases h⟩

theorem witness_StepTakesUpTheOnlyOutstandingCommand :
    ((issued live 2 0x14).quiet ∧ (issued live 2 0x14).eng.pfault = none ∧ 2 < (issued live 2 0x14).ports.length
      ∧ (∀ q < (issued live 2 0x14).ports.length, ((issued live 2 0x14).port q).work = .outstanding ↔ q = 2)
      ∧ decode ((issued live 2 0x14).port 2).sample.word = .instr .poll)
    ∧ State.reset.rstNext = false ∧ State.reset.turn.eng.pfault = none
      ∧ ∀ q < State.reset.ports.length, (State.reset.turn.port q).work ≠ .outstanding := by decide

theorem witness_AnyOutstandingCommandMayBeTakenUpNext :
    let s := State.also (issued live 0 0x05) 2 0x14
    (∀ p ∈ [0, 2], p < s.ports.length ∧ (s.port p).work = .outstanding) ∧ (s.port 1).work = .idle := by decide

theorem witness_FaultsAreStickyAndStopTheMachine :
    ((given faulted 0).calm ∧ (given faulted 0).running ∧ (given faulted 0).eng.pfault = some .pf6
      ∧ completes .ipend (given faulted 0) = true)
    ∧ (Move.devIrq 1).isRst = false ∧ (given faulted 0).rstNext = false := by decide +kernel

theorem witness_RaisingRecordsTheFaultAndNothingElse :
    (given live 0).eng.pfault = none ∧ (given faulted 0).eng.pfault = some .pf6 ∧ 2 ≤ State.reset.cfg.nsub
      ∧ ((given live 0).raise .pf9).eng.pfaultReg = 0
      ∧ (State.raise { (given live 0) with cfg := { defaultConfig with debugAssert := true } } .pf9).eng.pfaultReg = 0x200 := by decide

theorem witness_RstResetsTheEngineAndAbandonsCommands :
    ({ (given live 1) with script := [[.rst], [.devIrq 1]] } : State).script = [.rst] :: [[.devIrq 1]]
      ∧ ({ (given live 1) with script := [[.devIrq 1, .rst, .devIrq 1]] } : State).rstNext = true := by decide

theorem witness_IssuedCommandIsFixedAtItsWrite :
    (∀ p ∈ [0, 2], p ≤ State.reset.cfg.nsub ∧ p < State.reset.ports.length ∧ (State.reset.port p).busy = false)
      ∧ ((given live 2).port 2).busy = true ∧ ((State.holds (given live 0) 1 (.holdWait 3)).port 1).busy = true
      ∧ (Move.hostA 2 0 7).isRst = false ∧ (Move.issue 2 0x14).isRst = false := by decide

theorem witness_ChecksAreMadeInOrder :
    (∀ i : Instr, decode 0x00000112 ≠ .instr i)
      ∧ contextAllows .lock 0 = false
      ∧ (contextAllows .take 0 = true ∧ phaseAllows .take .reset = false)
      ∧ (contextAllows .alloc 1 = true ∧ phaseAllows .alloc .live = true ∧ needsLock .alloc = true ∧ ¬ (given live 1).holdsLock)
      ∧ (contextAllows (.install 128) 1 = true ∧ phaseAllows (.install 128) .live = true ∧ (given locked 1).holdsLock
        ∧ slotOk (.install 128) = false) :=
  ⟨fun _ => by rw [(by decide : decode 0x00000112 = .illegalRsv 0x01)]; exact nofun, by decide⟩

theorem witness_EachContextPermitsItsCommands :
    (Instr.lock.opcode ∉ ([0x30, 0x05, 0x14, 0x15, 0x20, 0x22, 0x04] : List (BitVec 8)) ∧ (given live 0).cur = 0)
      ∧ (Instr.take.opcode ∉ ([0x01, 0x02, 0x10, 0x03, 0x04, 0x05, 0x11, 0x12, 0x13, 0x14, 0x20, 0x21, 0x23, 0x24, 0x25] : List (BitVec 8))
        ∧ (given live 1).cur ≠ 0)
      ∧ ((given live 0).ready ∧ completes (.get 127) (given live 0) = true)
      ∧ ((given live 2).ready ∧ completes .lock (given live 2) = true) := by decide +kernel

theorem witness_EachPhasePermitsItsCommands :
    (contextAllows .drvok 1 = true ∧ Instr.drvok.opcode ∉ ([0x01, 0x05] : List (BitVec 8)))
      ∧ (∀ e ∈ [Engine.reset, { live with phase := .failed }, ready, live],
          (given e 0).ready ∧ completes .ipend (given e 0) = true)
      ∧ (∀ j : Instr, decode 0x000000FF ≠ .instr j)
      ∧ ((given ready 1).calm ∧ (given ready 1).running
        ∧ ends (exec .drvok (given ready 1)) (fun t => t.eng.phase != ready.phase) = true) :=
  ⟨by decide, by decide +kernel, fun _ => by rw [(by decide : decode 0x000000FF = .illegalOpc 0xFF)]; exact nofun, by decide +kernel⟩

theorem witness_NegotiateMakesItsAccessesAndDecidesByTheLatch :
    ((given Engine.reset 1).ready ∧ 1 ≤ (given Engine.reset 1).cur ∧ (given Engine.reset 1).eng.phase = .reset)
      ∧ (given Engine.reset 0).cur = 0 ∧ (1 ≤ (given live 2).cur ∧ (given live 2).eng.phase ≠ .reset) := by decide

theorem witness_NegotiationSucceedsUnlessTheDeviceDeclines :
    let s := given Engine.reset 1
    s.running ∧ s.eng.pfault = none ∧ 1 ≤ s.cur ∧ s.eng.phase = .reset ∧ s.cfg.stFeaturesOk ≠ 0 ∧ s.quiet
      ∧ ({ s with script := [[], [], [], [], [], [], [], [], [], [.devDecline]] } : State).running := by decide

/-- Negotiation done: the state of the CFGRING vectors. -/
def negotiated (size : U64) : State := given { Engine.reset with phase := .featuresOk } 1 (operands size 4096 0x80200)

theorem witness_CfgringCommitsOrRefusesTheSize :
    ((negotiated 128).ready ∧ 1 ≤ (negotiated 128).cur ∧ (negotiated 128).eng.phase = .featuresOk)
      ∧ ends (exec (.cfgring 0) (negotiated 128)) (fun t => (t.port 1).err == .ok) = true
      ∧ ends (exec (.cfgring 0) (negotiated 129)) (fun t => (t.port 1).err == .ringSizeTooSmall) = true
      ∧ (given { Engine.reset with phase := .featuresOk } 0).cur = 0
      ∧ (1 ≤ (given live 1).cur ∧ (given live 1).eng.phase ≠ .featuresOk) := by decide +kernel

theorem witness_CfgringReadsTheSelectedQueuesMaximum :
    ((negotiated 128).quiet ∧ (negotiated 128).running ∧ (negotiated 128).eng.pfault = none ∧ 1 ≤ (negotiated 128).cur
        ∧ (negotiated 128).eng.phase = .featuresOk)
      ∧ ((negotiated 129).quiet ∧ (negotiated 129).running)
      ∧ ((negotiated 129).dev.queue 0).max.toNat < (low32 (negotiated 129).operands.a0).toNat
      ∧ (low32 (negotiated 128).operands.a0).toNat ≤ ((negotiated 128).dev.queue 0).max.toNat := by decide +kernel

theorem witness_DrvokSetsTheBitAndGoesLive :
    ((given ready 1).ready ∧ 1 ≤ (given ready 1).cur ∧ (given ready 1).eng.phase = .ringReady ∧ (given ready 1).quiet)
      ∧ (given ready 0).cur = 0 ∧ (1 ≤ (given live 1).cur ∧ (given live 1).eng.phase ≠ .ringReady)
      ∧ (1 ≤ (given live 1).cur ∧ (given live 1).eng.phase = .live) := by decide

theorem witness_NotifyWritesTheQueueIndex :
    (∀ p ∈ [0, 1, 2], (given live p).ready ∧ (given live p).eng.phase = .live) ∧ (given ready 1).eng.phase ≠ .live := by decide

theorem witness_IpendReturnsTheInterruptStatus :
    ∀ p ∈ [0, 2], (given { Engine.reset with phase := .failed } p).ready := by decide

theorem witness_QinitConstructsTheRingOrFaults :
    ((configured 128 0xFFFFFFFF 0xFFFFFFFFFFFFF000).ready ∧ 1 ≤ (configured 128 0xFFFFFFFF 0xFFFFFFFFFFFFF000).cur
      ∧ (configured 128 0xFFFFFFFF 0xFFFFFFFFFFFFF000).eng.phase = .ringConfigured
      ∧ (configured 128 0xFFFFFFFF 0xFFFFFFFFFFFFF000).quiet
      ∧ (configured 128 0xFFFFFFFF 0xFFFFFFFFFFFFF000).layoutFits (configured 128 0xFFFFFFFF 0xFFFFFFFFFFFFF000).operands.a0)
    ∧ ((configured 128 0 0xFFFFFFFFFFFFF001).ready
      ∧ ¬ (configured 128 0 0xFFFFFFFFFFFFF001).layoutFits (configured 128 0 0xFFFFFFFFFFFFF001).operands.a0)
    ∧ ((configured 127 0 0).ready ∧ ¬ (configured 127 0 0).layoutFits (configured 127 0 0).operands.a0)
    ∧ (given live 0).cur = 0 ∧ (1 ≤ (given live 1).cur ∧ (given live 1).eng.phase ≠ .ringConfigured) := by decide

/-- The three refusals every producer command shares: the handler's port, a phase without a ring, no lock. -/
theorem witness_producer_refusals :
    (given live 0).cur = 0 ∧ (1 ≤ (given Engine.reset 1).cur ∧ ¬ (given Engine.reset 1).ringUp)
      ∧ (1 ≤ (given locked 2).cur ∧ (given locked 2).ringUp ∧ ¬ (given locked 2).holdsLock) := by decide

/-- The issuer of a producer command that is admitted. -/
theorem witness_producer :
    ∀ s ∈ [given locked 1, given { locked with phase := .ringReady } 1, given built 1],
      s.ready ∧ 1 ≤ s.cur ∧ s.ringUp ∧ s.holdsLock := by decide

theorem witness_AllocReturnsTheNextFreeDescriptor :
    (given locked 1).ready ∧ 1 ≤ (given locked 1).cur ∧ (given locked 1).ringUp ∧ (given locked 1).holdsLock
      ∧ (given locked 1).eng.chainOk ∧ (given locked 1).eng.chainLen = 0
      ∧ (given { locked with nextFreeDesc := 127, chainHead := 127 } 1).eng.chainOk := by decide

theorem witness_AdddescAppendsOneDescriptorOrFaults :
    (∀ e ∈ [locked, { built with chainOpen := true }, { built with chainOpen := true, chainLen := 127, nextFreeDesc := 127 }],
      (given e 1).ready ∧ 1 ≤ (given e 1).cur ∧ (given e 1).ringUp ∧ (given e 1).holdsLock
        ∧ ¬ (0 < e.chainLen.toNat ∧ e.chainOpen = false) ∧ e.chainLen.toNat < qsize
        ∧ e.inFlightDesc e.nextFreeDesc.toNat = false ∧ (given e 1).quiet)
    ∧ ((given built 1).ringUp ∧ (given built 1).holdsLock ∧ 0 < built.chainLen.toNat ∧ built.chainOpen = false)
    ∧ ((given { locked with chainLen := 128, chainOpen := true } 1).holdsLock ∧ qsize ≤ ({ locked with chainLen := 128, chainOpen := true } : Engine).chainLen.toNat)
    ∧ (let e := { locked with inflight := [(0, [0])] }
       (given e 1).ringUp ∧ (given e 1).holdsLock ∧ ¬ (0 < e.chainLen.toNat ∧ e.chainOpen = false) ∧ e.chainLen.toNat < qsize
        ∧ ∃ c ∈ e.inflight, e.nextFreeDesc.toNat ∈ c.2) := by decide

theorem witness_PublishCommitsTheChainOrFaults :
    ((given built 1).ready ∧ 1 ≤ (given built 1).cur ∧ (given built 1).ringUp ∧ (given built 1).holdsLock
      ∧ 1 ≤ built.chainLen.toNat ∧ built.chainOpen = false ∧ (given built 1).quiet)
    ∧ ((given locked 1).ringUp ∧ (given locked 1).holdsLock ∧ locked.chainLen = 0)
    ∧ ((given { built with chainOpen := true } 1).holdsLock ∧ ({ built with chainOpen := true } : Engine).chainOpen = true) := by decide

theorem witness_PollComparesTheUsedIndexWithTheCursor :
    (∀ p ∈ [0, 2], (given ready p).ready ∧ (given ready p).ringUp) ∧ ¬ (given Engine.reset 1).ringUp := by decide

theorem witness_TakeReturnsTheNextUsedEntryOrFaults :
    (let s := { (given live 0) with mem := twoUsed }
     s.ready ∧ s.cur = 0 ∧ s.ringUp ∧ s.usedIndexNow ≠ s.eng.lastConsumedUsed ∧ s.quiet)
    ∧ ((given ready 0).cur = 0 ∧ (given ready 0).ringUp ∧ (given ready 0).usedIndexNow = (given ready 0).eng.lastConsumedUsed)
    ∧ 1 ≤ (given live 1).cur ∧ ((given Engine.reset 0).cur = 0 ∧ ¬ (given Engine.reset 0).ringUp) := by decide

theorem witness_GetReturnsThePayloadAddressAndTheCompletionBit :
    (∀ p ∈ [0, 2], (given live p).ready ∧ (given live p).ringUp) ∧ (127 : U16).toNat < qsize ∧ qsize ≤ (128 : U16).toNat
      ∧ ¬ (given Engine.reset 0).ringUp := by decide

theorem witness_InstallWritesAFreeSlotOrRefuses :
    ((given locked 1).ready ∧ 1 ≤ (given locked 1).cur ∧ (given locked 1).ringUp ∧ (given locked 1).holdsLock
      ∧ (127 : U16).toNat < qsize ∧ locked.signaled 127 = true ∧ (given locked 1).quiet
      ∧ ((given locked 1).operands.pbuf.take (given locked 1).cfg.reqBytes).length = 17)
    ∧ ((given { locked with completion := setPending locked.completion 127 } 1).ready
      ∧ ({ locked with completion := setPending locked.completion 127 } : Engine).signaled 127 = false)
    ∧ qsize ≤ (128 : U16).toNat := by decide

theorem witness_SignalReleasesEveryWaitOnTheSlotOrFaults :
    (let s := State.holds (State.holds (given live 0) 1 (.holdWait 127)) 2 (.holdWait 127)
     s.ready ∧ s.cur = 0 ∧ s.ringUp ∧ (127 : U16).toNat < qsize ∧ ∀ c ∈ s.eng.inflight, c.1 ≠ (127 : U16).toNat)
    ∧ ((given flying 0).cur = 0 ∧ (given flying 0).ringUp ∧ ∃ c ∈ (given flying 0).eng.inflight, c.1 = (0 : U16).toNat)
    ∧ qsize ≤ (128 : U16).toNat ∧ 1 ≤ (given live 1).cur ∧ ((given Engine.reset 0).cur = 0 ∧ ¬ (given Engine.reset 0).ringUp) := by
  decide

theorem witness_WaitCompletesOnASignalledSlotAndElseHolds :
    ((given live 1).ready ∧ 1 ≤ (given live 1).cur ∧ (given live 1).ringUp ∧ (127 : U16).toNat < qsize ∧ live.signaled 127 = true)
      ∧ ((given { live with completion := setPending live.completion 0 } 2).ready
        ∧ ({ live with completion := setPending live.completion 0 } : Engine).signaled 0 = false)
      ∧ qsize ≤ (128 : U16).toNat ∧ (given live 0).cur = 0 ∧ ¬ (given Engine.reset 1).ringUp := by decide

theorem witness_LockAcquiresAFreeLockAndElseHolds :
    ((given live 2).ready ∧ 1 ≤ (given live 2).cur ∧ (given live 2).ringUp ∧ live.lock = .free)
      ∧ ((given locked 1).ready ∧ locked.lock ≠ .free) ∧ ((given locked 2).ready ∧ (given locked 2).ringUp)
      ∧ (given live 0).cur = 0 ∧ ¬ (given Engine.reset 1).ringUp := by decide

theorem witness_UnlockFreesTheLockOrHandsItToOneWaiter :
    ((given locked 1).ready ∧ 1 ≤ (given locked 1).cur ∧ (given locked 1).ringUp ∧ (given locked 1).holdsLock ∧ locked.chainLen = 0
      ∧ ∀ q < (given locked 1).ports.length, ((given locked 1).port q).work ≠ .holdLock)
    ∧ (let s := State.holds (given locked 1) 2 .holdLock
       s.ready ∧ s.holdsLock ∧ s.eng.chainLen = 0 ∧ ∃ q < s.ports.length, (s.port q).work = .holdLock)
    ∧ ((given built 1).ringUp ∧ (given built 1).holdsLock ∧ built.chainLen ≠ 0) := by decide

theorem witness_IrqhReportsASpuriousInterrupt :
    ((given live 0).ready ∧ (given live 0).cur = 0 ∧ (given live 0).eng.phase = .live
      ∧ (given live 0).turn.dev.interruptStatus = 0)
    ∧ 1 ≤ (given live 1).cur ∧ ((given ready 0).cur = 0 ∧ (given ready 0).eng.phase ≠ .live) := by decide

theorem witness_IrqhAcknowledgesAndDrainsEntryByEntry :
    v_pr_3.ready ∧ v_pr_3.cur = 0 ∧ v_pr_3.eng.phase = .live ∧ v_pr_3.turn.dev.interruptStatus ≠ 0 := by decide

theorem witness_IrqhDrainsEveryUnreadEntry :
    v_pr_3.quiet ∧ v_pr_3.running ∧ v_pr_3.eng.pfault = none ∧ v_pr_3.cur = 0 ∧ v_pr_3.eng.phase = .live
      ∧ v_pr_3.dev.interruptStatus ≠ 0 ∧ v_pr_3.unreadIds v_pr_3.usedIndexNow = [4, 0]
      ∧ ∀ id ∈ v_pr_3.unreadIds v_pr_3.usedIndexNow, id < qsize := by decide +kernel

theorem witness_TheHandlersLoopEndsWithinItsBound : v_pr_3.drainFuel ≤ 65536 := by decide

theorem witness_EveryStepKeepsMemoryCanonical :
    Memory.wf twoUsed ∧ ends (step { (issued live 0 0x15) with mem := twoUsed }) (fun t => t.mem == twoUsed) = true := by
  decide +kernel

theorem witness_EveryStepKeepsTheChainBookkeeping :
    let e := { locked with nextFreeDesc := 3, chainHead := 3, inflight := [(0, [0, 1, 2])] }
    e.chainOk ∧ e.flightOk ∧ ends (step (issued e 1 0x00010012)) (fun t => t.eng.chainLen == 1) = true := by decide +kernel

theorem witness_EveryStepKeepsPortsLockAndHolds :
    (State.holds (issued locked 1 0x25) 2 .holdLock).portsOk
      ∧ ends (step (State.holds (issued locked 1 0x25) 2 .holdLock)) (fun t => t.eng.lock == .held 2) = true := by
  have hw : ∀ p < 3, ((State.holds (issued locked 1 0x25) 2 .holdLock).port p).work ∈ [Work.idle, .outstanding, .holdLock] := by decide
  refine ⟨⟨by decide, by decide, fun p h => ?_, by decide, fun p hp i h => ?_, by decide⟩, by decide +kernel⟩
  · cases h; decide
  · exact absurd (h ▸ hw p hp) (by simp)

theorem witness_ChainsNeverExceedTheTable :
    let e := { flying with inflight := [(0, List.range 128)], nextFreeDesc := 0, chainHead := 0 }
    e.chainOk ∧ e.flightOk ∧ flying.chainOk ∧ flying.flightOk := by decide +kernel

theorem witness_PhasesChangeOnlyAsTheLifecycleSays :
    ((given Engine.reset 1 (operands 7 0 0)).calm ∧ (given Engine.reset 1 (operands 7 0 0)).running
      ∧ completes .negotiate (given Engine.reset 1 (operands 7 0 0)) = true)
    ∧ ((negotiated 128).calm ∧ (negotiated 128).running ∧ completes (.cfgring 0) (negotiated 128) = true)
    ∧ ((negotiated 129).calm ∧ (negotiated 129).running ∧ completes (.cfgring 0) (negotiated 129) = true)
    ∧ ((given ready 1).calm ∧ completes .drvok (given ready 1) = true)
    ∧ ((issued live 0 0x05).calm ∧ ends (step (issued live 0 0x05)) (fun _ => true) = true)
    ∧ ((issued { live with phase := .failed } 0 0x05).calm
      ∧ ends (step (issued { live with phase := .failed } 0 0x05)) (fun _ => true) = true) := by decide +kernel

/-- One command that changes each of the engine's registers, but for QINIT's, of which `test_qinit` speaks. -/
theorem witness_EveryEngineRegisterHasItsWriters :
    (∀ s ∈ [given locked 1, given built 1, v_pr_3, given Engine.reset 1, negotiated 128], s.calm ∧ s.running)
      ∧ ends (exec (.adddesc 0) (given locked 1)) (fun t => t.eng.nextFreeDesc != locked.nextFreeDesc && t.eng.chainLen != locked.chainLen) = true
      ∧ ends (exec .publish (given built 1)) (fun t => t.eng.chainHead != built.chainHead && t.eng.inFlightHead 0) = true
      ∧ ends (exec .irqh v_pr_3) (fun t => t.eng.lastConsumedUsed != 0 && t.eng.signaled 4 && !t.eng.inFlightHead 4) = true
      ∧ ends (exec .unlock (given locked 1)) (fun t => t.eng.lock != locked.lock) = true
      ∧ ends (exec .negotiate (given Engine.reset 1 (operands 7 0 0))) (fun t => t.eng.features != 0) = true
      ∧ ends (exec (.cfgring 0) (negotiated 128)) (fun t => t.eng.cfgSize != 0 && t.eng.cfgPfn != 0) = true
      ∧ ends (exec (.install 127) (given locked 1)) (fun t => !t.eng.signaled 127) = true
      ∧ ends (exec .drvok (given ready 1)) (fun t => t.eng.phase != ready.phase) = true
      ∧ ends (exec .publish { (given locked 1) with cfg := { defaultConfig with debugAssert := true } }) (fun t =>
          t.eng.pfault == some .pf2 && t.eng.pfaultReg == 4) = true := by decide +kernel

theorem witness_TheHandlerTouchesOnlyTheConsumerSide :
    v_pr_3.calm ∧ v_pr_3.running ∧ v_pr_3.cur = 0 ∧ completes .irqh v_pr_3 = true := by decide +kernel

theorem witness_ErrorsAreRaisedByTheirCommandsAndLeaveResults :
    ((negotiated 129).calm ∧ (negotiated 129).running
      ∧ ends (exec (.cfgring 0) (negotiated 129)) (fun t => !(t.port 1).busy && (t.port 1).err != .ok) = true)
    ∧ ((given locked 1).calm ∧ (given locked 1).running ∧ ends (exec .lock (given locked 1)) (fun t => (t.port 1).busy) = true)
    ∧ ((given live 1).calm ∧ (given live 1).running
      ∧ ends (exec (.get 127) (given live 1)) (fun t => (t.port 1).r0 != 0 && (t.port 1).r1 != 0) = true) := by decide +kernel

theorem witness_OnlyFourCommandsStoreToMemory :
    v_pr_3.calm ∧ v_pr_3.running ∧ completes .irqh v_pr_3 = true ∧ Instr.irqh ≠ .qinit ∧ (∀ f, Instr.irqh ≠ .adddesc f)
      ∧ Instr.irqh ≠ .publish ∧ ∀ slot, Instr.irqh ≠ .install slot :=
  ⟨by decide, by decide, by decide +kernel, nofun, nofun, nofun, nofun⟩

/-- Commands of each kind of access; QINIT's is `test_qinit`. -/
theorem witness_EveryAccessIsAFieldTheRulesName :
    (∀ s ∈ [v_pr_3, given locked 1, given built 1], s.calm ∧ s.running ∧ s.eng.chainOk) ∧ completes .irqh v_pr_3 = true
      ∧ completes (.adddesc 0) (given locked 1) = true ∧ completes .publish (given built 1) = true
      ∧ completes (.install 127) (given locked 1) = true := by decide +kernel

theorem witness_HoldsAreLiftedOnlyByTheirSignalOrTheLock :
    (let s := State.holds (issued { live with completion := setPending live.completion 0 } 0 0x22) 1 (.holdWait 0)
     s.calm ∧ 1 < s.ports.length ∧ (s.port 1).work = .holdWait 0 ∧ ends (step s) (fun t => !(t.port 1).busy) = true)
    ∧ (let s := State.holds (issued locked 1 0x25) 2 .holdLock
       s.calm ∧ 2 < s.ports.length ∧ (s.port 2).work = .holdLock ∧ ends (step s) (fun t => t.eng.lock == .held 2) = true)
    ∧ (let s := State.holds (issued locked 1 0x05) 2 .holdLock
       (s.port 2).work = .holdLock ∧ ends (step s) (fun t => (t.port 2).work == .holdLock) = true) := by decide +kernel

theorem witness_TheHistoryIsAppendOnly :
    (issued live 0 0x05).calm ∧ ends (step (issued live 0 0x05)) (fun t => t.history != []) = true := by decide +kernel

theorem witness_NoStepChangesAParameter :
    ends (step { State.reset with script := [[.rst]] }) (fun _ => true) = true ∧ ends (step (issued live 0 0x05)) (fun _ => true) = true := by
  decide +kernel

theorem witness_TheRegisterBlockIsLittleEndian :
    let s := given live 1
    s.cfg.off.distinct = true ∧ (0 = s.cfg.readOff .magic ∧ 0x74726976 = s.dev.answer .magic)
      ∧ 0xA4 = s.cfg.writeOff .queueDeviceHigh ∧ s.dev.stored .queueDeviceHigh = some 0 := by decide

theorem witness_BuffersAreTheDevicesFromPublishToSignal :
    ((given built 1).quiet ∧ (given built 1).running ∧ built.pfault = none ∧ 1 ≤ (given built 1).cur ∧ (given built 1).ringUp
      ∧ (given built 1).holdsLock ∧ 1 ≤ built.chainLen.toNat ∧ built.chainOpen = false
      ∧ (0x80210010 : U64).toNat ∈ addresses 0x80210010 [(0 : Byte)].length
      ∧ within ((given built 1).payload built.chainHead) (given built 1).cfg.reqBytes (0x80210010 : U64).toNat = true)
    ∧ ((given live 0).ready ∧ (given live 0).cur = 0 ∧ (given live 0).ringUp ∧ (127 : U16).toNat < qsize
      ∧ ∀ c ∈ live.inflight, c.1 ≠ (127 : U16).toNat)
    ∧ (let s := given { ready with completion := setPending ready.completion 127 } 1
       s.ringUp ∧ (127 : U16).toNat < qsize ∧ s.eng.signaled (127 : U16).toNat = false
        ∧ within (s.payload 127) s.cfg.reqBytes (0x80210FF0 : U64).toNat = true)
    ∧ (let s := given live 1 { Sample.reset defaultConfig with word := 0x007F0021 }
       s.ringUp ∧ 1 < s.ports.length ∧ (s.port 1).work = .outstanding
        ∧ decode (s.port 1).sample.word = .instr (.install 127))
    ∧ (let s : State := { (given built 1 { Sample.reset defaultConfig with word := 0x00000013 }) with
         mem := [(0x80200002, 0x30), (0x80200003, 0x80), (0x80200008, 1)] }
       s.ringUp ∧ s.eng.lock = .held 1 ∧ (s.port 1).work = .outstanding ∧ decode (s.port 1).sample.word = .instr .publish
        ∧ 0 < s.eng.chainLen.toNat ∧ (s.bufferOf ((s.eng.chainHead.toNat + 0) % qsize)).contains (0x80300000 : U64).toNat = true
        ∧ (0x80300000 : U64).toNat ∈ addresses 0x80300000 [(0 : Byte)].length) := by decide

theorem witness_TheEnvironmentActsBetweenTheLastAccessAndCompletion :
    (∀ m ∈ [Move.devMemR 0x80200802 2, .rst],
      let s : State := { (given built 1) with script := [[], [], [], [m]] }
      s.script = [[], [], [], [m]] ∧ s.running ∧ s.eng.pfault = none ∧ 1 ≤ s.cur ∧ s.ringUp ∧ s.holdsLock
        ∧ 1 ≤ s.eng.chainLen.toNat ∧ s.eng.chainOpen = false)
    ∧ (let s : State := { (given live 0) with
         dev := { device with interruptStatus := 1 }
         script := [[], [], [], [.devMemW live.usedIndexAddr (leBytes 2 (1 : U16).toNat)]] }
       s.script = [[], [], [], [.devMemW s.eng.usedIndexAddr (leBytes 2 (1 : U16).toNat)]]
        ∧ s.running ∧ s.eng.pfault = none ∧ s.cur = 0 ∧ s.eng.phase = .live ∧ s.dev.interruptStatus ≠ 0
        ∧ s.usedIndexNow = s.eng.lastConsumedUsed) := by decide

theorem witness_AHoldWithNothingToComeIsStuck :
    let s := State.holds { State.reset with eng := { live with completion := setPending live.completion 0 } } 2 (.holdWait 0)
    s.quiet ∧ s.eng.pfault = none ∧ (∀ q < s.ports.length, (s.port q).work ≠ .outstanding) ∧ 2 < s.ports.length
      ∧ s.holding 2 = true := by decide

theorem witness_TheDeviceAnswersWhatItHolds : WriteReg.interruptAck ≠ .status ∧ WriteReg.queueNum ≠ .status := by decide

end Sys2Proof.Tests
end

/-! PROOF. The lifecycle of the engine (spec/10_state.md R33): what each outcome of a command does to the phase. -/

namespace Sys2Proof.Machine

/-- What one command may do to the phase (R33): nothing, and then no completed command is one of the four that make a
transition; or the transition of one row of the table. -/
def State.followsLifecycle (i : Instr) (s t : State) : Prop :=
  (t.eng.phase = s.eng.phase
    ∧ ((t.port s.cur).busy = false → i.opcode ∉ ([0x01, 0x02, 0x10, 0x03] : List (BitVec 8))))
  ∨ (i = .negotiate ∧ s.eng.phase = .reset ∧ t.eng.phase = .featuresOk ∧ (t.port s.cur).err = .ok)
  ∨ (i = .negotiate ∧ s.eng.phase = .reset ∧ t.eng.phase = .failed ∧ (t.port s.cur).err = .featureFail)
  ∨ ((∃ q, i = .cfgring q) ∧ s.eng.phase = .featuresOk ∧ t.eng.phase = .ringConfigured ∧ (t.port s.cur).err = .ok)
  ∨ ((∃ q, i = .cfgring q) ∧ s.eng.phase = .featuresOk ∧ t.eng.phase = .failed ∧ (t.port s.cur).err = .ringSizeTooSmall)
  ∨ (i = .qinit ∧ s.eng.phase = .ringConfigured ∧ t.eng.phase = .ringReady)
  ∨ (i = .drvok ∧ s.eng.phase = .ringReady ∧ t.eng.phase = .live)

/-- A command that makes no transition only has to keep the phase. -/
theorem State.followsLifecycle_of_phase_eq {i : Instr} {s t : State} (h : t.eng.phase = s.eng.phase)
    (hi : i.opcode ∉ ([0x01, 0x02, 0x10, 0x03] : List (BitVec 8))) : s.followsLifecycle i t := .inl ⟨h, fun _ => hi⟩

/-- The accesses of a command leave the phase to its final update. -/
theorem Ran.phase {s u : State} {W : Nat → Prop} {es : List Event} (r : Ran s u W es) : u.eng.phase = s.eng.phase :=
  congrArg Engine.phase r.eng

theorem State.phase_signalSlot (s : State) (j : Nat) : (s.signalSlot j).eng.phase = s.eng.phase := by
  obtain ⟨-, heng, -⟩ := State.signalSlot_fields s j
  rw [heng]

/-- The entries that the handler's loop drains leave it too. -/
theorem Drained.phase {v w : State} {xs : List Drain} (d : Drained v w xs) : w.eng.phase = v.eng.phase := by
  rw [d.eng, Engine.drained]

theorem Outcome.followsLifecycle {i : Instr} {s t : State} (hr : s.running) (h : Outcome s i t) :
    s.followsLifecycle i t := by
  cases h with
  | fault =>
    have hbusy : (s.port s.cur).busy = true := State.busy_of_running hr
    exact .inl ⟨rfl, fun hidle => absurd (hidle.symm.trans hbusy) (by decide)⟩
  | negotiated r _ hp => exact .inr (.inl ⟨rfl, hp, rfl, (r.finished_setR0 hr _ _ _).1⟩)
  | featureFail r _ hp => exact .inr (.inr (.inl ⟨rfl, hp, rfl, (r.finished_done hr _ _).1⟩))
  | configured r _ hp => exact .inr (.inr (.inr (.inl ⟨⟨_, rfl⟩, hp, rfl, (r.finished_done hr _ _).1⟩)))
  | sizeTooSmall r _ hp => exact .inr (.inr (.inr (.inr (.inl ⟨⟨_, rfl⟩, hp, rfl, (r.finished_done hr _ _).1⟩))))
  | constructed _ _ hp => exact .inr (.inr (.inr (.inr (.inr (.inl ⟨rfl, hp, rfl⟩)))))
  | live _ _ hp => exact .inr (.inr (.inr (.inr (.inr (.inr ⟨rfl, hp, rfl⟩)))))
  | notified r | statusRead r | polled r | spurious r | taken r | described r | published r | installed r =>
    exact State.followsLifecycle_of_phase_eq r.phase (by simp [Instr.opcode])
  | allocated | got | collided | waited | waits | locked | locks | freed | handed =>
    exact State.followsLifecycle_of_phase_eq rfl (by simp [Instr.opcode])
  | signalled => exact State.followsLifecycle_of_phase_eq (State.phase_signalSlot s _) (by simp [Instr.opcode])
  | drained r _ d _ r2 | badId r _ d _ r2 =>
    exact State.followsLifecycle_of_phase_eq (r2.phase.trans (d.phase.trans r.phase)) (by simp [Instr.opcode])

/-- No row of the lifecycle starts in `LIVE` or `FAILED`. -/
theorem State.followsLifecycle.phase_eq_of_final {i : Instr} {s t : State} (h : s.followsLifecycle i t)
    (hp : s.eng.phase = .live ∨ s.eng.phase = .failed) : t.eng.phase = s.eng.phase := by
  rcases h with ⟨hkept, -⟩ | ⟨-, hfrom, -⟩ | ⟨-, hfrom, -⟩ | ⟨-, hfrom, -⟩ | ⟨-, hfrom, -⟩ | ⟨-, hfrom, -⟩ | ⟨-, hfrom, -⟩
  · exact hkept
  all_goals simp [hfrom] at hp

/-- Nothing but `RST` leaves `LIVE` or `FAILED` (R33). -/
theorem step_keeps_final_phase {s t : State} (hc : s.calm) (hs : step s = .next t)
    (hp : s.eng.phase = .live ∨ s.eng.phase = .failed) : t.eng.phase = s.eng.phase := by
  have hturn : s.turn.eng = s.eng := (State.sameEngine_turn (State.rstNext_calm hc)).eng
  obtain ⟨-, rfl | ⟨p, cs, n, -, -, -, hrun, ⟨i, -, ho⟩ | rfl⟩⟩ := step_calm hc hs
  · rw [hturn]
  · have hkept := (ho.followsLifecycle hrun).phase_eq_of_final (by simpa [hturn] using hp)
    simpa [hturn] using hkept
  · simp [hturn]

/-- Settles O45: every outcome of a command follows the lifecycle, and so a step keeps its two final phases. -/
theorem phasesChangeOnlyAsTheLifecycleSays : Obligations.PhasesChangeOnlyAsTheLifecycleSays :=
  ⟨fun _ _ _ hc hr he => (exec_outcome hc hr he).followsLifecycle hr, fun _ _ => step_keeps_final_phase, rfl⟩

end Sys2Proof.Machine

/-! PROOF. The illegal words (spec/30_encoding.md R115, R116): which words are commands, and what the engine does with one that
is not. -/

namespace Sys2Proof

/-- R114 and R115 divide the 256 opcodes between them. -/
theorem reservedOpcode_iff (o : BitVec 8) : reservedOpcode o = true ↔ o ∉ definedOpcodes := by
  revert o
  decide

theorem decodeOpc_of_defined {o : BitVec 8} (imm : U16) (h : o ∈ definedOpcodes) : ∃ i, decodeOpc o imm = .instr i := by
  simp only [definedOpcodes, List.mem_cons, List.not_mem_nil, or_false] at h
  rcases h with rfl | rfl | rfl | rfl | rfl | rfl | rfl | rfl | rfl | rfl | rfl | rfl | rfl | rfl | rfl | rfl | rfl | rfl
  all_goals exact ⟨_, rfl⟩

theorem decodeOpc_of_not_defined {o : BitVec 8} (imm : U16) (h : o ∉ definedOpcodes) : decodeOpc o imm = .illegalOpc o := by
  unfold decodeOpc
  split
  case h_19 => rfl
  all_goals exact absurd (by decide) h

theorem decode_of_rsv_eq_zero {w : U32} (h : rsvField w = 0) : decode w = decodeOpc (opcField w) (immField w) := if_pos h

theorem decode_of_rsv_ne_zero {w : U32} (h : rsvField w ≠ 0) : decode w = .illegalRsv (rsvField w) := if_neg h

/-- A word is a command exactly when it is legal by R115 and R116. -/
theorem exists_decode_eq_instr_iff (w : U32) :
    (∃ i, decode w = .instr i) ↔ rsvField w = 0 ∧ reservedOpcode (opcField w) = false := by
  by_cases hrsv : rsvField w = 0
  · rw [decode_of_rsv_eq_zero hrsv, ← Bool.not_eq_true, reservedOpcode_iff, not_not]
    by_cases hopc : opcField w ∈ definedOpcodes
    · simp [hrsv, hopc, decodeOpc_of_defined _ hopc]
    · simp [hopc, decodeOpc_of_not_defined _ hopc]
  · exact iff_of_false (by simp [decode_of_rsv_ne_zero hrsv]) fun h => hrsv h.1

end Sys2Proof

namespace Sys2Proof.Machine

/-- A word that is no command only completes its port: it has no access, and so no environment's point. -/
theorem runWord_of_not_instr {w : U32} (h : ¬ ∃ i, decode w = .instr i) (s : State) :
    runWord w s = .next (s.complete s.cur .illegalCommand) := by
  unfold runWord
  cases hd : decode w with
  | instr i => exact absurd ⟨i, hd⟩ h
  | illegalRsv _ | illegalOpc _ => rfl

/-- Completing the running command on the spot leaves its result registers as they are. -/
theorem State.finished_complete {s : State} (hr : s.running) (e : ErrVal) :
    s.finished (s.complete s.cur e) e (s.port s.cur).r0 (s.port s.cur).r1 := by
  have hport : (s.complete s.cur e).port s.cur = (s.port s.cur).completed e := by
    rw [State.port_complete, if_pos ⟨rfl, hr.1⟩]
  rw [State.finished, hport]
  exact ⟨rfl, rfl, rfl, rfl, rfl⟩

theorem State.port_complete_other {p q : Nat} (s : State) (e : ErrVal) (h : q ≠ p) : (s.complete p e).port q = s.port q := by
  rw [State.port_complete, if_neg fun hc => h hc.1.symm]

/-- Settles O3: the words that are no commands are those of R115 and R116, and running one only completes its port. -/
theorem illegalWordsOnlyReportIllegalCommand : Obligations.IllegalWordsOnlyReportIllegalCommand := by
  refine ⟨fun w s hr hillegal => ?_, fun w hrsv hopc => (exists_decode_eq_instr_iff w).mpr ⟨hrsv, hopc⟩⟩
  have hnot : ¬ ∃ i, decode w = .instr i := by
    rw [exists_decode_eq_instr_iff, not_and_or, Bool.not_eq_false]
    exact hillegal
  exact ⟨s.complete s.cur .illegalCommand, runWord_of_not_instr hnot s, State.finished_complete hr _,
    State.operandRegs_complete s _ _ _, rfl, rfl, rfl, State.accesses_complete s _ _, rfl,
    fun _ hq => State.port_complete_other s _ hq, rfl, rfl⟩

end Sys2Proof.Machine

/-! PROOF. The Control-Register Interface (spec/40_control_register_ops.md R141 to R145): when its commands are admitted, how they
complete once their accesses are known, and each command from the two. -/

namespace Sys2Proof.Machine

/-! A command of the configuration sequence: on submitter ports only, in one phase only, without lock or slot. -/

/-- The checks of R119 ask of `i` a submitter port and the phase `ph`, and no more. -/
structure ConfiguresIn (i : Instr) (ph : Phase) : Prop where
  context : ∀ p, contextAllows i p = (p != 0)
  phase : ∀ q, phaseAllows i q = (q == ph)
  lock : needsLock i = false
  slot : slotOk i = true

theorem configuresIn_negotiate : ConfiguresIn .negotiate .reset := ⟨fun _ => rfl, fun _ => rfl, rfl, rfl⟩
theorem configuresIn_cfgring (index : U16) : ConfiguresIn (.cfgring index) .featuresOk :=
  ⟨fun _ => rfl, fun _ => rfl, rfl, rfl⟩
theorem configuresIn_qinit : ConfiguresIn .qinit .ringConfigured := ⟨fun _ => rfl, fun _ => rfl, rfl, rfl⟩
theorem configuresIn_drvok : ConfiguresIn .drvok .ringReady := ⟨fun _ => rfl, fun _ => rfl, rfl, rfl⟩

theorem ConfiguresIn.admits {i : Instr} {ph : Phase} {s : State} (h : ConfiguresIn i ph) (hs : s.ready) (hc : 1 ≤ s.cur)
    (hp : s.eng.phase = ph) : s.admits i :=
  State.admits_of_ready hs (by rw [h.context, State.submitter_ne hc]) (by simp [h.phase, hp]) (by simp [h.lock]) h.slot

theorem ConfiguresIn.pf5 {i : Instr} {ph : Phase} {s : State} (h : ConfiguresIn i ph) (hc : s.cur = 0) :
    exec i s = .next (s.raise .pf5) :=
  exec_pf5 (by simp [h.context, hc])

theorem ConfiguresIn.pf6 {i : Instr} {ph : Phase} {s : State} (h : ConfiguresIn i ph) (hc : 1 ≤ s.cur)
    (hp : s.eng.phase ≠ ph) : exec i s = .next (s.raise .pf6) :=
  exec_pf6 (by rw [h.context, State.submitter_ne hc]) (by simp [h.phase, hp])

/-! Completion. -/

/-- An admitted command whose body ends in `done` completes its port there. -/
theorem exec_of_body_done {i : Instr} {s u : State} {body : State → Acc Unit} {e : ErrVal}
    (hi : exec i s = command i body s) (ha : s.admits i) (hb : body s = done e u) :
    exec i s = .next (u.complete u.cur e) := by
  rw [hi, command_admitted body ha, hb]
  rfl

/-- Accesses that led to `u`, then an update of the engine and completion, as seen from the start `s`. -/
theorem Ran.completes {s u : State} {W : Nat → Prop} {es : List Event} (r : Ran s u W es) (hr : s.running)
    (f : Engine → Engine) (e : ErrVal) :
    ((u.setEng f).complete u.cur e).accesses = es ++ s.accesses ∧ ((u.setEng f).complete u.cur e).eng = f s.eng
      ∧ s.finished ((u.setEng f).complete u.cur e) e (s.port s.cur).r0 (s.port s.cur).r1
      ∧ s.frame ((u.setEng f).complete u.cur e) W :=
  ⟨by simp [r.accesses], by simp [r.eng], r.finished_done hr f e, r.frame_done f e⟩

/-- The same where the command also answers `v` in `R0`. -/
theorem Ran.completes_setR0 {s u : State} {W : Nat → Prop} {es : List Event} (r : Ran s u W es) (hr : s.running)
    (f : Engine → Engine) (e : ErrVal) (v : U64) :
    (((u.setEng f).setR0 v).complete u.cur e).accesses = es ++ s.accesses
      ∧ (((u.setEng f).setR0 v).complete u.cur e).eng = f s.eng
      ∧ s.finished (((u.setEng f).setR0 v).complete u.cur e) e v (s.port s.cur).r1
      ∧ s.frame (((u.setEng f).setR0 v).complete u.cur e) W :=
  ⟨by simp [r.accesses], by simp [r.eng], r.finished_setR0 hr f e v, r.frame_setR0 f e v⟩

/-- Settles O17: the ten accesses are those of the body, and the last status word read chooses between its two ends. -/
theorem negotiateMakesItsAccessesAndDecidesByTheLatch : Obligations.NegotiateMakesItsAccessesAndDecidesByTheLatch := by
  refine fun s => ⟨fun hs hc hp => ?_, configuresIn_negotiate.pf5, configuresIn_negotiate.pf6⟩
  have ha := configuresIn_negotiate.admits hs hc hp
  obtain ⟨hcalm, hr, -⟩ := hs
  obtain ⟨u, s1, s2, hf, s3, s4, r, hbody⟩ := negotiateBody_spec hcalm hr
  by_cases h4 : s4 &&& s.cfg.stFeaturesOk = 0
  · rw [if_pos h4] at hbody
    obtain ⟨hacc, heng, hfin, hframe⟩ := r.completes hr (fun e => { e with phase := .failed }) .featureFail
    exact ⟨_, s1, s2, hf, s3, s4, exec_of_body_done rfl ha hbody, hacc, fun _ => ⟨heng, hfin⟩, fun h => absurd h4 h, hframe⟩
  · rw [if_neg h4] at hbody
    obtain ⟨hacc, heng, hfin, hframe⟩ := r.completes_setR0 hr
      (fun e => { e with features := hf &&& low32 s.operands.a0, phase := .featuresOk }) .ok
      (zext64 (hf &&& low32 s.operands.a0))
    exact ⟨_, s1, s2, hf, s3, s4, exec_of_body_done rfl ha hbody, hacc, fun h => absurd h h4, fun _ => ⟨heng, hfin⟩, hframe⟩

/-- Settles O19: the maximum read chooses between the two ends of the body. -/
theorem cfgringCommitsOrRefusesTheSize : Obligations.CfgringCommitsOrRefusesTheSize := by
  refine fun index s => ⟨fun hs hc hp => ?_, (configuresIn_cfgring index).pf5, (configuresIn_cfgring index).pf6⟩
  have ha := (configuresIn_cfgring index).admits hs hc hp
  obtain ⟨hcalm, hr, -⟩ := hs
  obtain ⟨max, ⟨hlt, u, r, hbody⟩ | ⟨hge, u, r, hbody⟩⟩ := cfgringBody_spec index hcalm
  · obtain ⟨hacc, heng, hfin, hframe⟩ := r.completes hr (fun e => { e with phase := .failed }) .ringSizeTooSmall
    exact ⟨_, max, exec_of_body_done rfl ha hbody, fun _ => ⟨hacc, heng, hfin⟩,
      fun hle => absurd (BitVec.lt_def.mp hlt) (Nat.not_lt.mpr hle), hframe⟩
  · obtain ⟨hacc, heng, hfin, hframe⟩ := r.completes hr
      (fun e => { e with
        cfgSize := low32 s.operands.a0, cfgPage := low32 s.operands.a1, cfgPfn := low32 s.operands.a2,
        phase := .ringConfigured }) .ok
    exact ⟨_, max, exec_of_body_done rfl ha hbody, fun hlt => absurd (BitVec.lt_def.mpr hlt) hge,
      fun _ => ⟨hacc, heng, hfin⟩, hframe⟩

/-! DRVOK. `setStatus_ran` leaves the status word read open; here it is the one that the environment's turn leaves. -/

theorem setStatus_ran_turn {s : State} (bit : U32) (h : s.calm) :
    ∃ u, setStatus bit s = .ok () u
      ∧ Ran s u (fun _ => False) [.mmioW s.cfg.off.status (s.turn.dev.status ||| bit), .mmioR s.cfg.off.status s.turn.dev.status]
      ∧ (s.quiet → u.dev = { s.dev with status := s.dev.status ||| bit }) := by
  obtain ⟨t, hread, r1⟩ := mmioRead_ran .status h
  obtain ⟨u, hwrite, r2, hdev⟩ := mmioWrite_ran .status (s.turn.dev.status ||| bit) r1.calm
  have r := r1.trans' r2
  rw [r1.cfg] at r
  refine ⟨u, by rw [setStatus, hread]; exact hwrite, r, fun hq => ?_⟩
  have ht : t.dev = s.dev := by
    rw [mmioRead_quiet .status hq, Acc.ok.injEq] at hread
    rw [← hread.2, State.log_dev]
  rw [hdev, State.turn_quiet (r1.quiet hq), ht, State.turn_quiet hq]
  rfl

/-- Settles O21: the status word read is the device's after the environment's turn, and every other command of the
configuration sequence wants another phase than `LIVE`. -/
theorem drvokSetsTheBitAndGoesLive : Obligations.DrvokSetsTheBitAndGoesLive := by
  refine fun s => ⟨fun hs hc hp => ?_, configuresIn_drvok.pf5, configuresIn_drvok.pf6, fun hc hlive => ?_⟩
  · have ha := configuresIn_drvok.admits hs hc hp
    obtain ⟨hcalm, hr, -⟩ := hs
    obtain ⟨u, hset, r, hdev⟩ := setStatus_ran_turn s.cfg.stDriverOk hcalm
    have hbody : drvokBody s = done .ok (u.turn.setEng fun e => { e with phase := .live }) := by
      rw [drvokBody, hset, Acc.bind_ok, finish_calm _ _ r.calm]
    obtain ⟨hacc, heng, hfin, hframe⟩ := r.turn.completes hr (fun e => { e with phase := .live }) .ok
    refine ⟨_, s.turn.dev.status, exec_of_body_done rfl ha hbody, hacc, heng, fun hq => ⟨?_, ?_⟩, hfin, hframe⟩
    · rw [State.turn_quiet hq]
    · show u.turn.dev = _
      rw [State.turn_quiet (r.quiet hq), hdev hq]
  · exact ⟨configuresIn_negotiate.pf6 hc (by simp [hlive]), fun q => (configuresIn_cfgring q).pf6 hc (by simp [hlive]),
      configuresIn_qinit.pf6 hc (by simp [hlive])⟩

/-- Settles O22: the one access is the write, and after it nothing but `ERR` changes. -/
theorem notifyWritesTheQueueIndex : Obligations.NotifyWritesTheQueueIndex := by
  refine fun queue s => ⟨fun hs hp => ?_, fun hp => exec_pf6 rfl (by simp [phaseAllows, hp])⟩
  have ha : s.admits (.notify queue) := State.admits_of_ready hs rfl (by simp [phaseAllows, hp]) nofun rfl
  obtain ⟨hcalm, hr, -⟩ := hs
  obtain ⟨u, r, hdev, hquiet, hbody⟩ := notifyBody_spec queue hcalm
  obtain ⟨hacc, heng, hfin, hframe⟩ := r.completes hr id .ok
  exact ⟨_, exec_of_body_done rfl ha hbody, hacc, heng, hdev, hquiet, hfin, hframe⟩

/-- Settles O23: the one access is a read, so the device is the environment's. -/
theorem ipendReturnsTheInterruptStatus : Obligations.IpendReturnsTheInterruptStatus := by
  intro s hs
  have ha : s.admits .ipend := State.admits_of_ready hs rfl rfl nofun rfl
  obtain ⟨hcalm, hr, -⟩ := hs
  obtain ⟨u, r, hbody⟩ := ipendBody_spec hcalm
  obtain ⟨hacc, heng, hfin, hframe⟩ := r.completes_setR0 hr id .ok (zext64 s.turn.dev.interruptStatus)
  have hdev : s.deviceKept ((u.setR0 (zext64 s.turn.dev.interruptStatus)).complete u.cur .ok) :=
    r.deviceKept (by simp [Event.isMmioW]) rfl rfl
  exact ⟨_, exec_of_body_done rfl ha hbody, hacc, heng, hdev, hfin, hframe⟩

end Sys2Proof.Machine

/-! PROOF. ADDDESC and TAKE (spec/41_ring_transport_ops.md R163, R166): what the checks of R119 ask of each, the contracts that
their bodies test, and each command from its body's accesses. -/

namespace Sys2Proof.Machine

/-! A producer command of the ring: on submitter ports only, while the ring is up, under the coarse lock, without a slot. -/

/-- The checks of R119 ask of `i` a submitter port, a phase in which the ring is up, and the lock, and no more. -/
structure ProducesOnRing (i : Instr) : Prop where
  context : ∀ p, contextAllows i p = (p != 0)
  phase : ∀ q, phaseAllows i q = q.running
  lock : needsLock i = true
  slot : slotOk i = true

theorem producesOnRing_adddesc (flags : U16) : ProducesOnRing (.adddesc flags) := ⟨fun _ => rfl, fun _ => rfl, rfl, rfl⟩

section
variable {i : Instr} {s : State}

theorem ProducesOnRing.context_allows (h : ProducesOnRing i) (hc : 1 ≤ s.cur) : contextAllows i s.cur = true := by
  rw [h.context, State.submitter_ne hc]

theorem ProducesOnRing.phase_allows (h : ProducesOnRing i) (hp : s.ringUp) : phaseAllows i s.eng.phase = true := by
  rw [h.phase, State.running_of_ringUp hp]

theorem ProducesOnRing.admits (h : ProducesOnRing i) (hs : s.ready) (hc : 1 ≤ s.cur) (hp : s.ringUp) (hl : s.holdsLock) :
    s.admits i :=
  State.admits_of_ready hs (h.context_allows hc) (h.phase_allows hp) (fun _ => hl) h.slot

theorem ProducesOnRing.pf5 (h : ProducesOnRing i) (hc : s.cur = 0) : exec i s = .next (s.raise .pf5) :=
  exec_pf5 (by simp [h.context, hc])

theorem ProducesOnRing.pf6 (h : ProducesOnRing i) (hc : 1 ≤ s.cur) (hp : ¬ s.ringUp) : exec i s = .next (s.raise .pf6) :=
  exec_pf6 (h.context_allows hc) (by rw [h.phase, State.not_running_of_ringUp hp])

theorem ProducesOnRing.pf4 (h : ProducesOnRing i) (hc : 1 ≤ s.cur) (hp : s.ringUp) (hl : ¬ s.holdsLock) :
    exec i s = .next (s.raise .pf4) :=
  exec_pf4 (h.context_allows hc) (h.phase_allows hp) h.lock hl

/-- A contract that the body of a producer command tests, after the checks. -/
theorem ProducesOnRing.contract {pf : PF} {body : State → Acc Unit} (h : ProducesOnRing i)
    (hb : ∀ s, exec i s = command i body s) (hc : 1 ≤ s.cur) (hp : s.ringUp) (hl : s.holdsLock)
    (hbody : body s = raise pf s) : exec i s = .next (s.raise pf) :=
  exec_contract hb (h.context_allows hc) (h.phase_allows hp) (fun _ => hl) h.slot hbody

end

/-! ADDDESC. The three contracts of R163 in their order, then the chain registers and the fields as the rule writes them. -/

theorem adddescBody_of_closed (flags : U16) {s : State} (h : 0 < s.eng.chainLen.toNat ∧ s.eng.chainOpen = false) :
    adddescBody flags s = raise .pf2 s := if_pos h

theorem adddescBody_of_full (flags : U16) {s : State} (h : ¬ (0 < s.eng.chainLen.toNat ∧ s.eng.chainOpen = false))
    (hfull : qsize ≤ s.eng.chainLen.toNat) : adddescBody flags s = raise .pf1 s :=
  (if_neg h).trans (if_pos (Nat.not_lt.mpr hfull))

theorem adddescBody_of_inFlight (flags : U16) {s : State} (h : ¬ (0 < s.eng.chainLen.toNat ∧ s.eng.chainOpen = false))
    (hroom : s.eng.chainLen.toNat < qsize) (hi : s.eng.inFlightDesc s.eng.nextFreeDesc.toNat = true) :
    adddescBody flags s = raise .pf8 s :=
  (if_neg h).trans ((if_neg (not_not.mpr hroom)).trans (if_pos hi))

/-- Below `QSIZE` the bound of R163 on `chain_len` plays no part. -/
theorem chainLenSucc_of_lt {len : U16} (h : len.toNat < qsize) : chainLenSucc len = len + 1 :=
  if_pos (Nat.succ_le_succ h.le)

theorem Engine.described_of_lt {e : Engine} (cont : Bool) (h : e.chainLen.toNat < qsize) :
    e.described cont = { e with nextFreeDesc := modQ (e.nextFreeDesc + 1), chainLen := e.chainLen + 1, chainOpen := cont } := by
  rw [Engine.described, chainLenSucc_of_lt h]

/-- The values stored in the four fields of a descriptor read back (spec/20_memory.md R72, R77). -/
theorem Memory.load_descriptor (m : Memory) (d addr : U64) (len : U32) (flags next : U16) :
    let m' := (((m.store d (leBytes 8 addr.toNat)).store (d + 8) (leBytes 4 len.toNat)).store (d + 12)
      (leBytes 2 flags.toNat)).store (d + 14) (leBytes 2 next.toNat)
    ofLE (m'.load d 8) = addr.toNat ∧ ofLE (m'.load (d + 8) 4) = len.toNat
      ∧ ofLE (m'.load (d + 12) 2) = flags.toNat ∧ ofLE (m'.load (d + 14) 2) = next.toNat := by
  intro m'
  obtain ⟨haddr, hlen, hflags, hnext⟩ := Memory.load_fields m d (leBytes 8 addr.toNat) (leBytes 4 len.toNat)
    (leBytes 2 flags.toNat) (leBytes 2 next.toNat) (leBytes_length ..) (leBytes_length ..) (leBytes_length ..)
    (leBytes_length ..)
  rw [haddr, hlen, hflags, hnext]
  exact ⟨ofLE_leBytes_of_lt addr.isLt, ofLE_leBytes_of_lt len.isLt, ofLE_leBytes_of_lt flags.isLt,
    ofLE_leBytes_of_lt next.isLt⟩

/-- ADDDESC where its checks and contracts hold (R163). -/
theorem exec_adddesc_appends (flags : U16) {s : State} (hs : s.ready) (ha : s.admits (.adddesc flags))
    (hopen : ¬ (0 < s.eng.chainLen.toNat ∧ s.eng.chainOpen = false)) (hroom : s.eng.chainLen.toNat < qsize)
    (hfree : s.eng.inFlightDesc s.eng.nextFreeDesc.toNat = false) :
    let d := s.eng.descAddr s.eng.nextFreeDesc
    let next := s.eng.nextField (s.cfg.hasNext flags)
    ∃ t, exec (.adddesc flags) s = .next t
      ∧ t.accesses = [.memW (d + 14) 2 next.toNat, .memW (d + 12) 2 flags.toNat,
          .memW (d + 8) 4 (low32 s.operands.a1).toNat, .memW d 8 s.operands.a0.toNat] ++ s.accesses
      ∧ t.eng = s.eng.described (s.cfg.hasNext flags)
      ∧ s.finished t .ok (s.port s.cur).r0 (s.port s.cur).r1 ∧ s.frame t (inBytes d 16) ∧ s.deviceKept t
      ∧ (s.quiet → ofLE (t.mem.load d 8) = s.operands.a0.toNat
          ∧ ofLE (t.mem.load (d + 8) 4) = (low32 s.operands.a1).toNat
          ∧ ofLE (t.mem.load (d + 12) 2) = flags.toNat ∧ ofLE (t.mem.load (d + 14) 2) = next.toNat) := by
  intro d next
  obtain ⟨hcalm, hr, -⟩ := hs
  obtain ⟨u, r, hmem, hbody⟩ := adddescBody_spec flags hcalm hopen hroom hfree
  obtain ⟨hacc, heng, hfin, hframe⟩ := r.completes hr (fun e => e.described (s.cfg.hasNext flags)) .ok
  refine ⟨_, exec_of_body_done rfl ha hbody, hacc, heng, hfin, hframe,
    r.deviceKept (by simp [Event.isMmioW]) rfl rfl, fun hq => ?_⟩
  rw [State.complete_mem, State.setEng_mem, hmem hq]
  exact Memory.load_descriptor s.mem d s.operands.a0 (low32 s.operands.a1) flags next

/-- Settles O26: the checks of a producer command, the contracts in their order, and else the four stores of the body. -/
theorem adddescAppendsOneDescriptorOrFaults : Obligations.AdddescAppendsOneDescriptorOrFaults := by
  intro flags s
  have hi := producesOnRing_adddesc flags
  have hb : ∀ s, exec (.adddesc flags) s = command (.adddesc flags) (adddescBody flags) s := fun _ => rfl
  refine ⟨fun hs hc hp hl hopen hroom hfree => ?_, fun hc hp hl hlen hclosed => ?_, fun hc hp hl hfull hopen => ?_,
    fun hc hp hl hopen hroom hflight => ?_, hi.pf5, hi.pf6, hi.pf4⟩
  · have happ := exec_adddesc_appends flags hs (hi.admits hs hc hp hl) hopen hroom hfree
    rwa [Engine.described_of_lt _ hroom, Config.hasNext_eq] at happ
  · exact hi.contract hb hc hp hl (adddescBody_of_closed flags ⟨hlen, hclosed⟩)
  · exact hi.contract hb hc hp hl (adddescBody_of_full flags (by simp [hopen]) hfull)
  · exact hi.contract hb hc hp hl (adddescBody_of_inFlight flags hopen hroom ((s.eng.inFlightDesc_iff _).mpr hflight))

/-! TAKE. -/

theorem takeBody_of_not_pending {s : State} (h : s.usedIndexNow = s.eng.lastConsumedUsed) : takeBody s = raise .pf3 s :=
  if_neg (by simp [pending, h])

/-- `Ran.completes` where the command also answers in `R0` and `R1`. -/
theorem Ran.completes_setR1 {s u : State} {W : Nat → Prop} {es : List Event} (r : Ran s u W es) (hr : s.running)
    (f : Engine → Engine) (e : ErrVal) (v : U64) (w : U32) :
    ((((u.setEng f).setR0 v).setR1 w).complete u.cur e).accesses = es ++ s.accesses
      ∧ ((((u.setEng f).setR0 v).setR1 w).complete u.cur e).eng = f s.eng
      ∧ s.finished ((((u.setEng f).setR0 v).setR1 w).complete u.cur e) e v w
      ∧ s.frame ((((u.setEng f).setR0 v).setR1 w).complete u.cur e) W :=
  ⟨by simp [r.accesses], by simp [r.eng], r.finished_setR1 hr f e v w, r.frame_setR1 f e v w⟩

/-- The engine after the entry with id `id` has been taken (R166): the cursor past it, its chain no longer in flight. -/
def Engine.taken (e : Engine) (id : U32) : Engine := { e.advanced with inflight := SMap.erase id.toNat e.inflight }

theorem State.landed_advanced (s : State) (id : U32) :
    (s.setEng Engine.advanced).landed id = s.setEng fun e => e.taken id := rfl

/-- A number read as four bytes fits the 32-bit register it is put into. -/
theorem toNat_ofNat_load_four (m : Memory) (a : U64) :
    (BitVec.ofNat 32 (ofLE (m.load a 4))).toNat = ofLE (m.load a 4) :=
  (BitVec.toNat_ofNat _ _).trans (Nat.mod_eq_of_lt (ofLE_load_lt m a 4))

/-- TAKE where its checks and its contract hold (R166). -/
theorem exec_take_returns {s : State} (hs : s.ready) (ha : s.admits .take)
    (hpend : s.usedIndexNow ≠ s.eng.lastConsumedUsed) :
    let j := modQ s.eng.lastConsumedUsed
    ∃ (t : State) (id len : U32), exec .take s = .next t
      ∧ t.accesses = [.memR (s.eng.usedLenAddr j) 4 len.toNat, .memR (s.eng.usedIdAddr j) 4 id.toNat] ++ s.accesses
      ∧ t.eng = s.eng.taken id
      ∧ s.finished t .ok (zext64 id) len
      ∧ (s.quiet → id.toNat = ofLE (s.mem.load (s.eng.usedIdAddr j) 4)
          ∧ len.toNat = ofLE (s.mem.load (s.eng.usedLenAddr j) 4))
      ∧ s.frame t (fun _ => False) ∧ s.deviceKept t := by
  intro j
  obtain ⟨hcalm, hr, -⟩ := hs
  obtain ⟨u, id, len, r, hquiet, hbody⟩ := takeBody_spec hcalm hpend
  rw [State.landed_advanced] at hbody
  obtain ⟨hacc, heng, hfin, hframe⟩ := r.completes_setR1 hr (fun e => e.taken id) .ok (zext64 id) len
  refine ⟨_, id, len, exec_of_body_done rfl ha hbody, hacc, heng, hfin, fun hq => ?_, hframe,
    r.deviceKept (by simp [Event.isMmioW]) rfl rfl⟩
  obtain ⟨hid, hlen⟩ := hquiet hq
  rw [hid, hlen]
  exact ⟨toNat_ofNat_load_four .., toNat_ofNat_load_four ..⟩

/-- Settles O29: the body's two reads give `id` and `len`, and the key `id` is erased from the ghost map. -/
theorem takeReturnsTheNextUsedEntryOrFaults : Obligations.TakeReturnsTheNextUsedEntryOrFaults := by
  intro s
  have hport (hc : s.cur = 0) : contextAllows .take s.cur = true := beq_iff_eq.mpr hc
  refine ⟨fun hs hc hp hpend => ?_, fun hc hp hnone => ?_,
    fun hc => exec_pf5 (beq_eq_false_iff_ne.mpr (Nat.one_le_iff_ne_zero.mp hc)),
    fun hc hp => exec_pf6 (hport hc) (State.not_running_of_ringUp hp)⟩
  · have ha : s.admits .take := State.admits_of_ready hs (hport hc) (State.running_of_ringUp hp) nofun rfl
    obtain ⟨t, id, len, hexec, hacc, heng, hfin, hquiet, hframe, hdev⟩ := exec_take_returns hs ha hpend
    refine ⟨t, id, len, hexec, hacc, ?_, ?_, fun h hne => ?_, hfin, hquiet, hframe, hdev⟩ <;> rw [heng]
    · rfl
    · exact SMap.find?_erase_same _ _
    · exact SMap.find?_erase_other _ hne
  · exact exec_contract (fun _ => rfl) (hport hc) (State.running_of_ringUp hp) nofun rfl (takeBody_of_not_pending hnone)

end Sys2Proof.Machine

/-! PROOF. GET and SIGNAL (spec/42_slot_pool_ops.md R180, R182): what the checks of R119 ask of a command with a slot operand, and
each command from its body, which makes no bus access. -/

namespace Sys2Proof.Machine

/-! A command of the Slot Pool with a slot operand: while the ring is up, on a slot below `QSIZE`. -/

/-- Besides the port and the lock, the checks of R119 ask of `i` a phase in which the ring is up and that `slot` is a slot. -/
structure OperatesOnSlot (i : Instr) (slot : U16) : Prop where
  phase : ∀ ph, phaseAllows i ph = ph.running
  slot : slotOk i = decide (slot.toNat < qsize)

theorem operatesOnSlot_get (slot : U16) : OperatesOnSlot (.get slot) slot := ⟨fun _ => rfl, rfl⟩
theorem operatesOnSlot_signal (slot : U16) : OperatesOnSlot (.signal slot) slot := ⟨fun _ => rfl, rfl⟩

section
variable {i : Instr} {slot : U16} {s : State}

theorem OperatesOnSlot.phase_allows (h : OperatesOnSlot i slot) (hp : s.ringUp) : phaseAllows i s.eng.phase = true := by
  rw [h.phase, State.running_of_ringUp hp]

theorem OperatesOnSlot.slot_ok (h : OperatesOnSlot i slot) (hlt : slot.toNat < qsize) : slotOk i = true := by
  rw [h.slot, decide_eq_true hlt]

theorem OperatesOnSlot.admits (h : OperatesOnSlot i slot) (hs : s.ready) (hc : contextAllows i s.cur = true) (hp : s.ringUp)
    (hl : needsLock i = true → s.holdsLock) (hlt : slot.toNat < qsize) : s.admits i :=
  State.admits_of_ready hs hc (h.phase_allows hp) hl (h.slot_ok hlt)

theorem OperatesOnSlot.pf6 (h : OperatesOnSlot i slot) (hc : contextAllows i s.cur = true) (hp : ¬ s.ringUp) :
    exec i s = .next (s.raise .pf6) :=
  exec_pf6 hc (by rw [h.phase, State.not_running_of_ringUp hp])

theorem OperatesOnSlot.pf7 (h : OperatesOnSlot i slot) (hc : contextAllows i s.cur = true) (hp : s.ringUp)
    (hl : needsLock i = true → s.holdsLock) (hge : qsize ≤ slot.toNat) : exec i s = .next (s.raise .pf7) :=
  exec_pf7 hc (h.phase_allows hp) hl (by rw [h.slot, decide_eq_false (Nat.not_lt.mpr hge)])

end

/-- Settles O30: GET writes the two results of its own port and completes, in the state in which it was taken up. -/
theorem getReturnsThePayloadAddressAndTheCompletionBit : Obligations.GetReturnsThePayloadAddressAndTheCompletionBit := by
  intro slot s
  have hi := operatesOnSlot_get slot
  refine ⟨fun hs hp hlt => ?_, fun hp => hi.pf7 rfl hp nofun, hi.pf6 rfl⟩
  have ha := hi.admits hs rfl hp nofun hlt
  obtain ⟨hcalm, hr, -⟩ := hs
  have r := Ran.refl hcalm
  obtain ⟨hacc, heng, hfin, hframe⟩ :=
    r.completes_setR1 hr id .ok (s.payload slot) (if s.eng.signaled slot.toNat then 1 else 0)
  exact ⟨_, exec_of_body_done rfl ha rfl, hacc, heng, hfin, hframe, r.deviceKept nofun rfl rfl⟩

/-! SIGNAL. Its own port is not held, so the release of the held WAITs leaves that port alone. -/

/-- A command is held on a port of the machine only. -/
theorem State.lt_length_of_holdWait {s : State} {q i : Nat} (h : (s.port q).work = .holdWait i) : q < s.ports.length := by
  by_contra hq
  rw [State.port_of_length_le s (Nat.not_lt.mp hq)] at h
  exact nomatch h

theorem State.operandRegs_signalSlot (s : State) (i q : Nat) :
    ((s.signalSlot i).port q).operandRegs = (s.port q).operandRegs := by
  rw [State.port_signalSlot]; split_ifs <;> rfl

theorem State.port_signalSlot_of_running {s : State} (hr : s.running) (i : Nat) : (s.signalSlot i).port s.cur = s.port s.cur := by
  rw [State.port_signalSlot, if_neg (by simp [hr.2])]

theorem Engine.signaled_setSignaled (e : Engine) (i : Nat) {j : Nat} (hj : j < qsize) :
    ({ e with completion := setSignaled e.completion i } : Engine).signaled j = (e.signaled j || decide (j = i)) := by
  have hset := getLsbD_setSignaled e.completion i j
  rwa [decide_eq_true hj, Bool.and_true, decide_eq_decide.mpr (eq_comm (a := i))] at hset

theorem signalBody_of_inFlight {slot : U16} {s : State} (h : s.eng.inFlightHead slot.toNat = true) :
    signalBody slot s = raise .pf8 s := if_pos h

theorem signalBody_of_not_inFlight {slot : U16} {s : State} (h : ∀ c ∈ s.eng.inflight, c.1 ≠ slot.toNat) :
    signalBody slot s = done .ok (s.signalSlot slot.toNat) :=
  if_neg fun hin => by
    obtain ⟨c, hc, heq⟩ := (s.eng.inFlightHead_iff _).mp hin
    exact h c hc heq

/-- A command that signals the slot `i` and completes, as seen from its start `s`. -/
theorem State.signalSlot_completes {s : State} (hcalm : s.calm) (hr : s.running) (i : Nat) :
    let t := (s.signalSlot i).complete s.cur .ok
    t.accesses = .signal i :: s.accesses
      ∧ t.eng = { s.eng with completion := setSignaled s.eng.completion i }
      ∧ s.finished t .ok (s.port s.cur).r0 (s.port s.cur).r1
      ∧ (∀ q, q ≠ s.cur →
          t.port q = if (s.port q).work = .holdWait i then { s.port q with err := .ok, work := .idle } else s.port q)
      ∧ s.kept t (fun _ => False) ∧ s.arbiterKept t ∧ s.deviceKept t := by
  intro t
  obtain ⟨hcfg, heng, hcur, hmem, hdev, hscript, hchoices, hfree, hlen, hacc⟩ := s.signalSlot_fields i
  have r := Ran.refl hcalm
  have hown := State.port_signalSlot_of_running hr i
  refine ⟨(State.accesses_complete ..).trans hacc, heng, r.finished hr .ok _ _ hcur hlen (by rw [hown]) (by rw [hown]),
    fun q hq => ?_, r.kept hcfg hcur ?_ (fun q => ?_) hmem hscript, ⟨hchoices, hfree⟩, r.deviceKept nofun hdev hscript⟩
  · rw [State.port_complete, if_neg fun hc => hq hc.1.symm, State.port_signalSlot]
    exact if_congr (and_iff_right_of_imp State.lt_length_of_holdWait) rfl rfl
  · rw [State.complete_ports, List.length_modify, hlen]
  · rw [← s.operandRegs_signalSlot i q, State.port_complete]
    split_ifs <;> rfl

/-- Settles O32: the checks, the contract of R182, and else the signal of the slot and completion. -/
theorem signalReleasesEveryWaitOnTheSlotOrFaults : Obligations.SignalReleasesEveryWaitOnTheSlotOrFaults := by
  intro slot s
  have hi := operatesOnSlot_signal slot
  have hport (hc : s.cur = 0) : contextAllows (.signal slot) s.cur = true := beq_iff_eq.mpr hc
  refine ⟨fun hs hc hp hlt hout => ?_, fun hc hp hlt hin => ?_, fun hc hp => hi.pf7 (hport hc) hp nofun,
    fun hc => exec_pf5 (beq_eq_false_iff_ne.mpr (Nat.one_le_iff_ne_zero.mp hc)), fun hc => hi.pf6 (hport hc)⟩
  · have hexec := exec_of_body_done rfl (hi.admits hs (hport hc) hp nofun hlt) (signalBody_of_not_inFlight hout)
    obtain ⟨-, -, hcur, -⟩ := s.signalSlot_fields slot.toNat
    rw [hcur] at hexec
    obtain ⟨hcalm, hr, -⟩ := hs
    obtain ⟨hacc, heng, hkept⟩ := State.signalSlot_completes hcalm hr slot.toNat
    refine ⟨_, hexec, hacc, ?_, fun j hj => ?_, hkept⟩ <;> rw [heng]
    exact s.eng.signaled_setSignaled _ hj
  · exact exec_contract (fun _ => rfl) (hport hc) (hi.phase_allows hp) nofun (hi.slot_ok hlt)
      (signalBody_of_inFlight ((s.eng.inFlightHead_iff _).mpr hin))

end Sys2Proof.Machine

/-! PROOF. The permission tables (spec/60_exceptions.md R241, R242): the checks of R119 read them as the spec lists them, by
opcode, and PF5 and PF6 come from those checks alone. -/

namespace Sys2Proof.Machine

/-- R242's row of port `p`: the interrupt context's for port 0, the call context's for every other. -/
def contextRow (p : Nat) : List (BitVec 8) :=
  if p = 0 then [0x30, 0x05, 0x14, 0x15, 0x20, 0x22, 0x04]
  else [0x01, 0x02, 0x10, 0x03, 0x04, 0x05, 0x11, 0x12, 0x13, 0x14, 0x20, 0x21, 0x23, 0x24, 0x25]

/-- R241's row of a phase. -/
def Phase.row : Phase → List (BitVec 8)
  | .reset => [0x01, 0x05]
  | .featuresOk => [0x02, 0x05]
  | .ringConfigured => [0x10, 0x05]
  | .ringReady => [0x03, 0x05, 0x11, 0x12, 0x13, 0x14, 0x15, 0x20, 0x21, 0x22, 0x23, 0x24, 0x25]
  | .live => [0x04, 0x05, 0x30, 0x11, 0x12, 0x13, 0x14, 0x15, 0x20, 0x21, 0x22, 0x23, 0x24, 0x25]
  | .failed => [0x05]

theorem contextAllows_eq (i : Instr) (p : Nat) : contextAllows i p = decide (i.opcode ∈ contextRow p) := by
  cases p with
  | zero => cases i <;> rfl
  | succ n => cases i <;> rfl

theorem phaseAllows_eq (i : Instr) (ph : Phase) : phaseAllows i ph = decide (i.opcode ∈ ph.row) := by
  cases ph with
  | reset | featuresOk | ringConfigured | ringReady | live | failed => cases i <;> rfl

/-- A run from a state without a fault ends with PF5 or PF6 only where the check of that name has failed. -/
theorem exec_raises_checked {i : Instr} {s t : State} {pf : PF} (hs : s.ready) (he : exec i s = .next t)
    (hf : t.eng.pfault = some pf) :
    (pf = .pf5 → contextAllows i s.cur = false) ∧ (pf = .pf6 → phaseAllows i s.eng.phase = false) := by
  obtain ⟨hcalm, hr, hnone⟩ := hs
  obtain hsame | ⟨pf', h5, h6, hraised⟩ := (exec_outcome hcalm hr he).pfault
  · rw [hsame, hnone] at hf
    exact nomatch hf
  · rw [hraised, hnone, Option.getD_none, Option.some.injEq] at hf
    exact hf ▸ ⟨h5, h6⟩

/-- Settles O15: an opcode outside the row fails the first check, and PF5 comes from nowhere else. -/
theorem eachContextPermitsItsCommands : Obligations.EachContextPermitsItsCommands := by
  refine fun i s => ⟨fun hout => exec_pf5 ?_, fun hin hs t he hf => ?_⟩
  · rw [contextAllows_eq]
    exact decide_eq_false hout
  · have hfail := (exec_raises_checked hs he hf).1 rfl
    rw [contextAllows_eq] at hfail
    exact of_decide_eq_false hfail hin

/-- The rows of the lifecycle, by the opcode that leaves each phase (R241). -/
theorem State.followsLifecycle.left_by {i : Instr} {s t : State} (h : s.followsLifecycle i t)
    (hne : t.eng.phase ≠ s.eng.phase) :
    (s.eng.phase = .reset ∧ i.opcode = 0x01) ∨ (s.eng.phase = .featuresOk ∧ i.opcode = 0x02)
      ∨ (s.eng.phase = .ringConfigured ∧ i.opcode = 0x10) ∨ (s.eng.phase = .ringReady ∧ i.opcode = 0x03) := by
  rcases h with ⟨hkept, -⟩ | ⟨rfl, hp, -⟩ | ⟨rfl, hp, -⟩ | ⟨⟨q, rfl⟩, hp, -⟩ | ⟨⟨q, rfl⟩, hp, -⟩ | ⟨rfl, hp, -⟩
    | ⟨rfl, hp, -⟩
  · exact absurd hkept hne
  · exact .inl ⟨hp, rfl⟩
  · exact .inl ⟨hp, rfl⟩
  · exact .inr (.inl ⟨hp, rfl⟩)
  · exact .inr (.inl ⟨hp, rfl⟩)
  · exact .inr (.inr (.inl ⟨hp, rfl⟩))
  · exact .inr (.inr (.inr ⟨hp, rfl⟩))

/-- Settles O16: an opcode outside the row fails the second check and PF6 comes from nowhere else; a word that is no command
meets no check; and the lifecycle says which command leaves a phase. -/
theorem eachPhasePermitsItsCommands : Obligations.EachPhasePermitsItsCommands := by
  refine fun i s => ⟨fun hout hc => exec_pf6 hc ?_, fun hin hs t he hf => ?_,
    fun w hw => runWord_of_not_instr (not_exists.mpr hw) s,
    fun hcalm hr t he => ((exec_outcome hcalm hr he).followsLifecycle hr).left_by⟩
  · rw [phaseAllows_eq]
    exact decide_eq_false hout
  · have hfail := (exec_raises_checked hs he hf).2 rfl
    rw [phaseAllows_eq] at hfail
    exact of_decide_eq_false hfail hin

end Sys2Proof.Machine

/-! PROOF. Encoding (spec/30_encoding.md R110 to R117): a word is read by its three fields, and so the word of a command is read
as that command. -/

namespace Sys2Proof

/-- The opcode map, read from the command: its opcode, and the immediate where R113 gives it one. -/
theorem decodeOpc_eq_instr_iff (opc : BitVec 8) (imm : U16) (i : Instr) :
    decodeOpc opc imm = .instr i ↔ opc = i.opcode ∧ i.imm = if i.usesImm then imm else 0 := by
  constructor
  · intro h
    by_cases hopc : opc ∈ definedOpcodes
    · simp only [definedOpcodes, List.mem_cons, List.not_mem_nil, or_false] at hopc
      rcases hopc with rfl | rfl | rfl | rfl | rfl | rfl | rfl | rfl | rfl | rfl | rfl | rfl | rfl | rfl | rfl | rfl | rfl | rfl
      all_goals
        cases h
        exact ⟨rfl, rfl⟩
    · rw [decodeOpc_of_not_defined imm hopc] at h
      exact nomatch h
  · rintro ⟨rfl, himm⟩
    cases i with
    | cfgring | notify | adddesc | get | install | signal | wait =>
      obtain rfl : _ = imm := himm
      rfl
    | negotiate | drvok | ipend | qinit | alloc | publish | poll | take | lock | unlock | irqh => rfl

/-- Settles O2: where `RSV` is 0 the decoder is the opcode map, and elsewhere it reads no command. -/
theorem decodingReadsTheThreeFields : Obligations.DecodingReadsTheThreeFields := by
  intro w i
  by_cases hrsv : rsvField w = 0
  · rw [decode_of_rsv_eq_zero hrsv, decodeOpc_eq_instr_iff, and_iff_right hrsv]
  · rw [decode_of_rsv_ne_zero hrsv]
    exact iff_of_false nofun fun h => hrsv h.1

/-- Where a command has no immediate, the normal form of R117 is 0. -/
theorem Instr.imm_eq_ite (i : Instr) : i.imm = if i.usesImm then i.imm else 0 := by
  cases i <;> rfl

theorem decode_encode (i : Instr) : decode (encode i) = .instr i := by
  rw [decodingReadsTheThreeFields]
  refine ⟨rsvField_cmdWord _ _ _, opcField_cmdWord _ _ _, ?_⟩
  rw [encode, immField_cmdWord]
  exact i.imm_eq_ite

/-- A 32-bit word is its own table word. -/
theorem tableWord_toNat (w : U32) : tableWord 32 w.toNat = w := by
  rw [tableWord, Nat.mod_eq_of_lt w.isLt, BitVec.ofNat_toNat, BitVec.setWidth_eq]

/-- Settles O1: the fields of the word of a command are that command's, so O2 reads it back. -/
theorem everyCommandDecodesFromItsWord : Obligations.EveryCommandDecodesFromItsWord := by
  refine fun i _ => ⟨decode_encode i, ?_⟩
  rw [decodeTableWord, tableWord_toNat, decode_encode]

/-- Settles O4, word by word. -/
theorem sampleWordsDecodeAsTheSpecWritesThem : Obligations.SampleWordsDecodeAsTheSpecWritesThem := by
  unfold Obligations.SampleWordsDecodeAsTheSpecWritesThem
  decide

open Machine in
/-- Settles O5: both sides have the number `v mod 128`. -/
theorem reductionModuloQsizeKeepsTheLowSevenBits : Obligations.ReductionModuloQsizeKeepsTheLowSevenBits := by
  intro v
  have hmod : (modQ v).toNat = v.toNat % qsize := BitVec.toNat_umod
  refine ⟨BitVec.eq_of_toNat_eq ?_, hmod⟩
  have hlt : v.toNat % 128 < 2 ^ 16 := (Nat.mod_lt _ (by decide)).trans (by decide)
  rw [hmod, BitVec.toNat_setWidth, BitVec.extractLsb'_toNat, Nat.shiftRight_zero]
  exact (Nat.mod_eq_of_lt hlt).symm

end Sys2Proof

/-! PROOF. What every step keeps: the canonical form of memory, the chain bookkeeping, ports with lock and holds, and the parameters.
A step is the environment's turn and one command, or ends abandoned by `RST`, so each invariant is one case per way to move. -/

namespace Sys2Proof.Machine

/-- A property of states that each of the ways in which a step moves keeps. The last field is `RST`'s. -/
structure StepInvariant (P : State → Prop) : Prop where
  more : ∀ suf s, P (s.more suf) ↔ P s
  turn : ∀ s, s.rstNext = false → P s → P s.turn
  takenUp : ∀ (s : State) (p : Nat) (cs : List Nat) (n : Nat),
    P s → P { s with choices := cs, freeCount := n, cur := p }
  outcome : ∀ i s t, s.running → Outcome s i t → P s → P t
  illegal : ∀ (s : State) (p : Nat), P s → P (s.complete p .illegalCommand)
  abandoned : ∀ s t, Abandoned s t → P s → P t

/-- Such a property holds after every step from a state in which it holds, `RST` included. -/
theorem StepInvariant.step {P : State → Prop} (h : StepInvariant P) {s t : State} (hs : P s) (hst : step s = .next t) : P t := by
  obtain ha | ⟨c, d, suf, hcalm, hcd, rfl, rfl⟩ := step_calm_or_abandoned hst
  · exact h.abandoned s t ha hs
  · rw [h.more] at hs ⊢
    have hturn := h.turn c (State.rstNext_calm hcalm) hs
    obtain ⟨-, rfl | ⟨p, cs, n, -, -, -, hrun, ⟨i, -, ho⟩ | rfl⟩⟩ := step_calm hcalm hcd
    · exact hturn
    · exact h.outcome i _ d hrun ho (h.takenUp c.turn p cs n hturn)
    · exact h.illegal _ p (h.takenUp c.turn p cs n hturn)

theorem stepInvariant_memoryWf : StepInvariant fun s => Memory.wf s.mem where
  more _ _ := Iff.rfl
  turn _ hrst := (State.sameEngine_turn hrst).wf
  takenUp _ _ _ _ h := h
  outcome _ _ _ _ ho := ho.fixed.2.2
  illegal _ _ h := h
  abandoned _ _ ha := ha.wf

/-- Settles O40: every access stores bytes at 64-bit addresses, which keeps the canonical form, and so does every move. -/
theorem everyStepKeepsMemoryCanonical : Obligations.EveryStepKeepsMemoryCanonical :=
  fun _ _ hwf => stepInvariant_memoryWf.step hwf

theorem stepInvariant_bookOk : StepInvariant fun s => s.eng.bookOk where
  more _ _ := Iff.rfl
  turn s hrst h := by rwa [(State.sameEngine_turn hrst).eng]
  takenUp _ _ _ _ h := h
  outcome _ _ _ _ ho h := ho.chain h
  illegal _ _ h := h
  abandoned _ _ ha _ := by
    rw [ha.eng]
    exact chain_reset

/-- Settles O41: the two parts are kept together, ADDDESC and PUBLISH needing both. -/
theorem everyStepKeepsTheChainBookkeeping : Obligations.EveryStepKeepsTheChainBookkeeping :=
  fun _ _ hchain hflight => stepInvariant_bookOk.step ⟨hchain, hflight⟩

/-- After `RST` the lock is free and nobody holds. -/
theorem Abandoned.portsOk {s t : State} (h : Abandoned s t) (hn : 1 ≤ s.cfg.nsub) : t.portsOk := by
  have hfree : t.eng.lock = .free := by rw [h.eng]; rfl
  have hnohold : ∀ q, t.holding q = false := fun q => by
    rw [State.holding]
    rcases h.ports q with hw | hw <;> rw [hw]
  refine ⟨h.cfg ▸ hn, by rw [h.length, h.cfg], fun p hp => ?_, fun p _ hw => ?_, fun p _ i hw => ?_, fun p _ hp => ?_⟩
  · rw [hfree] at hp
    exact nomatch hp
  · rcases h.ports p with hk | hk <;> rw [hw] at hk <;> exact nomatch hk
  · rcases h.ports p with hk | hk <;> rw [hw] at hk <;> exact nomatch hk
  · rw [hnohold p] at hp
    exact nomatch hp

theorem State.portsOk_complete {s : State} (h : s.portsOk) (p : Nat) (e : ErrVal) : (s.complete p e).portsOk :=
  State.portsOk_keep h rfl (by simp) rfl
    (fun q => ⟨fun i hw => ⟨(State.holds_complete s p e q).1 i hw, id⟩, (State.holds_complete s p e q).2⟩) id

theorem stepInvariant_portsOk : StepInvariant State.portsOk where
  more _ _ := Iff.rfl
  turn _ hrst h := State.portsOk_turn hrst h
  takenUp _ _ _ _ h := h
  outcome _ _ _ hrun ho h := ho.portsOk hrun h
  illegal _ p h := State.portsOk_complete h p _
  abandoned _ _ ha h := ha.portsOk h.1

/-- Settles O42: every outcome keeps the invariant, and `RST` leaves a free lock and no hold. -/
theorem everyStepKeepsPortsLockAndHolds : Obligations.EveryStepKeepsPortsLockAndHolds :=
  fun _ _ hs => stepInvariant_portsOk.step hs

theorem stepInvariant_cfg (c : Config) : StepInvariant fun s => s.cfg = c where
  more _ _ := Iff.rfl
  turn s _ h := (State.turn_cfg s).trans h
  takenUp _ _ _ _ h := h
  outcome _ _ _ _ ho h := ho.fixed.1.trans h
  illegal _ _ h := h
  abandoned _ _ ha h := ha.cfg.trans h

/-- Settles O53: having the parameters that `s` has is kept, `RST` included. -/
theorem noStepChangesAParameter : Obligations.NoStepChangesAParameter :=
  fun s _ => (stepInvariant_cfg s.cfg).step rfl

/-- Settles O43: memory is empty, and the rest is what `RST` leaves of any state. -/
theorem resetMeetsTheInvariants : Obligations.ResetMeetsTheInvariants :=
  ⟨by decide, chain_reset.1, chain_reset.2, (Abandoned.of_rst State.reset).portsOk (by decide)⟩

/-- Settles O52: the environment's turn and every outcome only put events in front. -/
theorem theHistoryIsAppendOnly : Obligations.TheHistoryIsAppendOnly := by
  intro s t hcalm hst
  have hturn : s.history <:+ s.turn.history := (State.sameEngine_turn (State.rstNext_calm hcalm)).history
  suffices h : s.history <:+ t.history from h.imp fun _ => Eq.symm
  obtain ⟨-, rfl | ⟨p, cs, n, -, -, -, -, ⟨i, -, ho⟩ | rfl⟩⟩ := step_calm hcalm hst
  · exact hturn
  · exact hturn.trans ho.history
  · exact hturn.trans (List.suffix_cons _ _)

/-! Counting descriptors: chains in flight and the one being built are disjoint sets of indices below `QSIZE`. -/

/-- Distinct indices below `n` are at most `n`. -/
theorem length_le_of_nodup_of_lt {l : List Nat} {n : Nat} (hd : l.Nodup) (hlt : ∀ i ∈ l, i < n) : l.length ≤ n := by
  have hsub : l ⊆ List.range n := fun i hi => List.mem_range.mpr (hlt i hi)
  simpa using (hd.subperm hsub).length_le

/-- The descriptor indices in use: of the chains in flight, then of the one being built. -/
def Engine.usedDescs (e : Engine) : List Nat := e.inflight.flatMap (·.2) ++ chainIndices e.chainHead e.chainLen

theorem Engine.length_usedDescs (e : Engine) :
    e.usedDescs.length = (e.inflight.map fun c => c.2.length).sum + e.chainLen.toNat := by
  simp [Engine.usedDescs, List.length_flatMap, chainIndices]

theorem Engine.nodup_usedDescs {e : Engine} (hc : e.chainOk) (hf : e.flightOk) : e.usedDescs.Nodup := by
  obtain ⟨-, -, hlen, -⟩ := hc
  obtain ⟨-, hchains, hapart, hbuilt⟩ := hf
  refine List.nodup_append'.mpr ⟨List.nodup_flatMap.mpr ⟨fun c hc => (hchains c hc).2.1, hapart.imp fun h => ?_⟩,
    nodup_chainIndices hlen, fun i hi => ?_⟩
  · exact fun i hi hj => h i hi hj
  · obtain ⟨c, hc, hic⟩ := List.mem_flatMap.mp hi
    exact hbuilt c hc i hic

theorem Engine.usedDescs_lt {e : Engine} (hf : e.flightOk) : ∀ i ∈ e.usedDescs, i < qsize := by
  obtain ⟨-, hchains, -, -⟩ := hf
  intro i hi
  rcases List.mem_append.mp hi with hi | hi
  · obtain ⟨c, hc, hic⟩ := List.mem_flatMap.mp hi
    exact (hchains c hc).2.2 i hic
  · obtain ⟨k, -, rfl⟩ := mem_chainIndices.mp hi
    exact Nat.mod_lt _ (by decide)

/-- Settles O44: the indices in use are distinct and below `QSIZE`, and every chain in flight has one at least. -/
theorem chainsNeverExceedTheTable : Obligations.ChainsNeverExceedTheTable := by
  intro e hc hf
  have htotal := length_le_of_nodup_of_lt (Engine.nodup_usedDescs hc hf) (Engine.usedDescs_lt hf)
  rw [Engine.length_usedDescs] at htotal
  obtain ⟨-, hchains, -, -⟩ := hf
  have hone : ∀ n ∈ e.inflight.map fun c => c.2.length, 1 ≤ n := by
    intro n hn
    obtain ⟨c, hc, rfl⟩ := List.mem_map.mp hn
    exact List.length_pos_of_mem (hchains c hc).1
  have hcount := List.length_le_sum_of_one_le _ hone
  rw [List.length_map] at hcount
  exact ⟨htotal, by omega⟩

end Sys2Proof.Machine

/-! PROOF. The step (spec/60_exceptions.md R228, R233), reset (spec/70_reset_and_hazards.md R260, R261), the issue of a command
(spec/20_memory.md R95) and the order of checks (spec/30_encoding.md R119). -/

namespace Sys2Proof.Machine

/-! The branches of a step. -/

/-- Taking a command up leaves its port as it was. -/
theorem port_of_takeUp {s v : State} {p : Nat} (h : takeUp s = some (p, v)) (q : Nat) : v.port q = s.port q := by
  obtain ⟨-, -, cs, n, rfl⟩ := takeUp_spec h
  rfl

theorem step_of_takeUp {s u v : State} {p : Nat} (hpoint : point s = .ok () u) (hnone : u.eng.pfault = none)
    (ht : takeUp u = some (p, v)) : step s = runWord (u.port p).sample.word v := by
  rw [step, hpoint]
  simp only [hnone, ht, port_of_takeUp ht]

theorem step_of_idle {s u : State} (hpoint : point s = .ok () u) (hnone : u.eng.pfault = none) (ht : takeUp u = none) :
    step s = .next u := by
  rw [step, hpoint]
  simp only [hnone, ht]

theorem step_of_faulted {s u : State} {pf : PF} (hpoint : point s = .ok () u) (hf : u.eng.pfault = some pf) :
    step s = .fault (.protocol pf) := by
  rw [step, hpoint]
  simp only [hf]

theorem step_of_stop {s : State} {r : Result} (hpoint : point s = .stop r) : step s = r := by
  rw [step, hpoint]

theorem point_of_rstNext {s : State} (h : s.rstNext = true) : point s = .stop (.next s.turn) := if_pos h

theorem point_of_not_rstNext {s : State} (h : s.rstNext = false) : point s = .ok () s.turn := if_neg (by simp [h])

theorem runWord_of_instr {w : U32} {i : Instr} (h : decode w = .instr i) (s : State) : runWord w s = exec i s := by
  rw [runWord, h]

/-- Settles O6: the branch of a step in which a command is taken up. -/
theorem stepRunsTheCommandTakenUp : Obligations.StepRunsTheCommandTakenUp := by
  intro s u v p hpoint hnone ht
  have hstep := step_of_takeUp hpoint hnone ht
  obtain ⟨hlt, hwork, hv⟩ := takeUp_spec ht
  exact ⟨hstep, fun i hi => hstep.trans (runWord_of_instr hi v),
    fun hnot => hstep.trans (runWord_of_not_instr (not_exists.mpr hnot) v), hlt, hwork, hv⟩

/-- Of one outstanding command nothing is to be chosen. -/
theorem takeUp_only {s : State} {p : Nat} (hp : p < s.ports.length)
    (honly : ∀ q < s.ports.length, (s.port q).work = .outstanding ↔ q = p) : takeUp s = some (p, { s with cur := p }) := by
  rw [takeUp, State.portsAt_singleton hp honly, choose_singleton, Option.map_some]

/-- Settles O7: with one candidate the arbiter uses no choice, and with none nothing is taken up. -/
theorem stepTakesUpTheOnlyOutstandingCommand : Obligations.StepTakesUpTheOnlyOutstandingCommand := by
  refine ⟨fun s p hquiet hnone hp honly => ?_, fun s hrst hnone hidle => ?_⟩
  · have hstep := step_of_takeUp (point_quiet hquiet) hnone (takeUp_only hp honly)
    exact ⟨hstep, fun i hi => hstep.trans (runWord_of_instr hi _)⟩
  · rw [← (State.sameEngine_turn hrst).length] at hidle
    exact step_of_idle (point_of_not_rstNext hrst) hnone (takeUp_none.mpr hidle)

/-- Settles O8: every candidate is chosen under some choices, and none is only where there is no candidate. -/
theorem anyOutstandingCommandMayBeTakenUpNext : Obligations.AnyOutstandingCommandMayBeTakenUpNext := by
  refine ⟨fun s p hp hwork => ?_, fun s => takeUp_none⟩
  obtain ⟨cs, t, hchoose⟩ := choose_any (s := s) (State.mem_portsAt.mpr ⟨hp, hwork⟩)
  refine ⟨cs, { t with cur := p }, ?_⟩
  rw [takeUp]
  exact congrArg (Option.map _) hchoose

/-- Settles O9: no outcome of a command replaces a fault, no move but `RST` touches it, and a step tests it first. -/
theorem faultsAreStickyAndStopTheMachine : Obligations.FaultsAreStickyAndStopTheMachine := by
  refine ⟨fun i s t pf hcalm hr hf he => ?_, fun s m hm => congrArg Engine.pfault (State.sameEngine_applyMove s hm).eng,
    fun s pf hrst hf => ?_⟩
  · obtain hsame | ⟨pf', -, -, hraised⟩ := (exec_outcome hcalm hr he).pfault
    · exact hsame.trans hf
    · rw [hraised, hf, Option.getD_some]
  · refine step_of_faulted (point_of_not_rstNext hrst) ?_
    rw [(State.sameEngine_turn hrst).eng, hf]

/-! Faults. -/

theorem PF.detected_eq (pf : PF) : pf.detected = (decide (pf ≠ .pf3) && decide (pf ≠ .pf8)) := by
  cases pf <;> rfl

/-- Bit `n` of `PFAULT` after a fault is raised (R38). -/
theorem State.pfaultReg_raise (s : State) (pf : PF) {n : Nat} (hn : n < 16) :
    (s.raise pf).eng.pfaultReg.getLsbD n
      = (s.eng.pfaultReg.getLsbD n || (s.cfg.debugAssert && pf.detected && decide (n = pf.number))) := by
  rw [State.raise_eng]
  cases s.cfg.debugAssert && pf.detected with
  | false => simp
  | true => simp [hn]

theorem State.windowRead_pfault (s : State) {p : Nat} (hp : p ≤ s.cfg.nsub) :
    s.windowRead p 0x0C = if s.cfg.debugAssert then some (zext64 s.eng.pfaultReg) else none := by
  simp [State.windowRead, hp]

/-- Settles O10: what `raise` writes, field by field, and the window's register at +0x0C. -/
theorem raisingRecordsTheFaultAndNothingElse : Obligations.RaisingRecordsTheFaultAndNothingElse := by
  refine ⟨fun s pf => ⟨fun hnone => ?_, fun old hold => ?_, fun n hn => ?_, rfl⟩, fun s p hp => s.windowRead_pfault hp⟩
  · rw [State.raise_eng, hnone, Option.getD_none]
  · rw [State.raise_eng, hold, Option.getD_some]
  · rw [State.pfaultReg_raise s pf hn, PF.detected_eq, ← Bool.and_assoc]

/-! Reset. -/

/-- Where all ports are at reset, every port number reads a port at reset. -/
theorem State.port_of_resetAll {s : State} (h : s.ports = Port.resetAll s.cfg) (p : Nat) : s.port p = Port.reset s.cfg := by
  rw [State.port, h, Port.resetAll, List.getElem?_replicate]
  split_ifs <;> rfl

/-- Settles O11, register by register. -/
theorem resetLeavesWhatTheTableSays : Obligations.ResetLeavesWhatTheTableSays := by
  refine ⟨rfl, rfl, rfl, rfl, rfl, by decide, rfl, rfl, rfl, rfl, rfl, rfl, rfl, rfl, rfl, rfl, fun p => ?_⟩
  rw [State.port_of_resetAll rfl]
  exact ⟨rfl, rfl⟩

theorem State.turn_of_rst {s : State} {rest : List (List Move)} (h : s.script = [.rst] :: rest) :
    s.turn = State.afterRst { s with script := rest } := by
  rw [State.turn, h]
  rfl

theorem State.rstNext_of_rst {s : State} {rest : List (List Move)} (h : s.script = [.rst] :: rest) : s.rstNext = true := by
  rw [State.rstNext, h]
  rfl

/-- Where `RST` is next, whatever starts with an environment's point ends there. -/
theorem point_bind_of_rstNext {α : Type} {s : State} (h : s.rstNext = true) (f : Unit → State → Acc α) :
    (point s).bind f = .stop (.next s.turn) := by
  rw [point_of_rstNext h, Acc.bind_stop]

/-- Settles O12: every access and every closing update starts with the environment's point, where `RST` ends the command. -/
theorem rstResetsTheEngineAndAbandonsCommands : Obligations.RstResetsTheEngineAndAbandonsCommands := by
  refine ⟨fun s rest hs => ?_, fun s h => ?_⟩
  · refine ⟨_, step_of_stop (point_of_rstNext (State.rstNext_of_rst hs)), ?_⟩
    rw [State.turn_of_rst hs]
    refine ⟨rfl, rfl, by simp [State.afterRst, Port.resetAll], fun p => ?_, rfl, rfl, rfl, rfl⟩
    rw [State.port_of_resetAll rfl]
    exact ⟨rfl, rfl⟩
  · refine ⟨step_of_stop (point_of_rstNext h), fun r => point_bind_of_rstNext h _, fun r v => point_bind_of_rstNext h _,
      fun a n => point_bind_of_rstNext h _, fun a n v => point_bind_of_rstNext h _, fun a v => ?_,
      fun e f => point_bind_of_rstNext h _⟩
    have htorn : storeTorn a (leBytes 8 v.toNat) s = .stop (.next s.turn) := point_bind_of_rstNext h _
    rw [memWrite64, htorn, Acc.bind_stop]

/-! The issue of a command. -/

theorem State.issue_of_idle {s : State} {p : Nat} (hp : p ≤ s.cfg.nsub) (hidle : (s.port p).busy = false) (w : U32) :
    s.issue p w = (s.setPort p fun q => q.issued w).log
      (.issue p w (s.port p).a0 (s.port p).a1 (s.port p).a2 (s.port p).a3 (s.port p).pbuf) := if_pos ⟨hp, hidle⟩

theorem State.issue_of_busy {s : State} {p : Nat} (hbusy : (s.port p).busy = true) (w : U32) : s.issue p w = s :=
  if_neg fun h => by simp [hbusy] at h

/-- Settles O13: a write to `CMD` samples an idle port and is dropped on a busy one, and no move but `RST` alters what a busy
port runs. -/
theorem issuedCommandIsFixedAtItsWrite : Obligations.IssuedCommandIsFixedAtItsWrite := by
  refine ⟨fun s p w hp hlt hidle => ?_, fun s p w hbusy => State.issue_of_busy hbusy w, fun s m q hm hbusy => ?_⟩
  · have hissue : s.applyMove (.issue p w) = _ := State.issue_of_idle hp hidle w
    have hport : (s.applyMove (.issue p w)).port p = (s.port p).issued w := by
      rw [hissue, State.port_log, State.port_setPort_same _ _ hlt]
    refine ⟨?_, ?_, ?_, ?_, ?_, fun q hq => ?_⟩
    · rw [hport]; rfl
    · rw [hport]; rfl
    · rw [hport]; rfl
    · rw [hport]; exact ⟨rfl, rfl, rfl⟩
    · rw [hissue]; rfl
    · rw [hissue, State.port_log, State.port_setPort_other _ _ (Ne.symm hq)]
  · obtain ⟨hresults, hfixed, -⟩ := (State.sameEngine_applyMove s hm).ports q
    obtain ⟨hwork, hsample⟩ := hfixed hbusy
    exact ⟨hwork, hsample, hresults⟩

/-- Settles O14: the word is decoded first, and each check is made where those before it have passed. -/
theorem checksAreMadeInOrder : Obligations.ChecksAreMadeInOrder :=
  ⟨fun _ s hnot => runWord_of_not_instr (not_exists.mpr hnot) s, fun _ _ => ⟨exec_pf5, exec_pf6, exec_pf4, exec_pf7⟩⟩

end Sys2Proof.Machine

/-! PROOF. The ring's own commands (spec/41_ring_transport_ops.md R161, R162, R164, R165): QINIT, ALLOC, PUBLISH, POLL, each from the
accesses of its body. -/

namespace Sys2Proof.Machine

/-! QINIT. -/

/-- Where the region ends below `2^64` the base is the product as it stands. -/
theorem toNat_mul_zext64 {a b : U32} (h : a.toNat * b.toNat < 2 ^ 64) :
    (zext64 a * zext64 b).toNat = a.toNat * b.toNat := by
  simp only [zext64, BitVec.toNat_mul, BitVec.toNat_setWidth_of_le (show 32 ≤ 64 by decide)]
  exact Nat.mod_eq_of_lt h

theorem Engine.signaled_of_allOnes {e : Engine} (h : e.completion = BitVec.allOnes 128) {i : Nat} (hi : i < qsize) :
    e.signaled i = true := by
  rw [Engine.signaled, h, BitVec.getLsbD_allOnes]
  exact decide_eq_true hi

/-- The engine QINIT leaves (R162). -/
def Engine.initialized (e : Engine) (pool : U64) : Engine :=
  Engine.constructed { e with qbase := zext64 e.cfgPfn * zext64 e.cfgPage, poolBase := pool }

/-- `used.index` stands in the region that QINIT fills. -/
theorem inBytes_usedIndex {e : Engine} {x : Nat} (h : inBytes e.usedIndexAddr 2 x) :
    inBytes e.qbase (ringPages * pageBytes) x := by
  have hoff : inBytes (e.qbase + BitVec.ofNat 64 (usedOff + 2)) 2 x := by rwa [BitVec.ofNat_add, ← BitVec.add_assoc]
  exact inBytes_add hoff (by decide)

theorem ofLE_eq_zero {bs : List Byte} (h : ∀ b ∈ bs, b = 0) : ofLE bs = 0 := by
  induction bs with
  | nil => rfl
  | cons b bs ih =>
    rw [ofLE, h b List.mem_cons_self, ih fun c hc => h c (List.mem_cons_of_mem _ hc)]
    rfl

theorem Memory.mem_load {m : Memory} {a : U64} {n : Nat} {b : Byte} (h : b ∈ m.load a n) :
    ∃ x, inBytes a n x ∧ m.read x = b := by
  induction n generalizing a with
  | zero => exact nomatch h
  | succ n ih =>
    rcases List.mem_cons.mp h with rfl | h
    · exact ⟨a.toNat, (inBytes_succ a n _).mpr (.inl rfl), rfl⟩
    · obtain ⟨x, hx, hb⟩ := ih h
      exact ⟨x, (inBytes_succ a n x).mpr (.inr hx), hb⟩

/-- Over a region of zeros `used.index` reads 0. -/
theorem State.usedIndexNow_of_zeros {t : State} (h : ∀ a, inBytes t.eng.qbase (ringPages * pageBytes) a → t.mem.read a = 0) :
    t.usedIndexNow = 0 := by
  have hzero : ofLE (t.mem.load t.eng.usedIndexAddr 2) = 0 := ofLE_eq_zero fun b hb => by
    obtain ⟨x, hx, rfl⟩ := Memory.mem_load hb
    exact h x (inBytes_usedIndex hx)
  rw [State.usedIndexNow, hzero]
  rfl

/-- QINIT where its checks and its contract hold (R162). -/
theorem exec_qinit_constructs {s : State} (hs : s.ready) (ha : s.admits .qinit) (hfit : s.layoutFits s.operands.a0) :
    let base := zext64 s.eng.cfgPfn * zext64 s.eng.cfgPage
    ∃ t, exec .qinit s = .next t ∧ t.eng = s.eng.initialized s.operands.a0
      ∧ t.accesses = byteWrites base (List.replicate (ringPages * pageBytes) 0) ++ s.accesses
      ∧ s.finished t .ok (s.port s.cur).r0 (s.port s.cur).r1
      ∧ s.frame t (inBytes base (ringPages * pageBytes)) ∧ s.deviceKept t
      ∧ (s.quiet → t.mem = s.mem.store base (List.replicate (ringPages * pageBytes) 0)) := by
  intro base
  obtain ⟨hcalm, hr, -⟩ := hs
  obtain ⟨u, r, hmem, hbody⟩ := qinitBody_spec hcalm hfit
  obtain ⟨hacc, heng, hfin, hframe⟩ := r.completes (show State.running (s.setEng _) from hr) Engine.constructed .ok
  exact ⟨_, exec_of_body_done rfl ha hbody, heng, hacc, hfin, State.frame_setEng hcalm hframe,
    State.deviceKept_setEng (r.deviceKept (byteWrites_isMmioW _ _) rfl rfl), hmem⟩

theorem qinitBody_of_not_fits {s : State} (h : ¬ s.layoutFits s.operands.a0) : qinitBody s = raise .pf9 s := if_neg h

/-- Settles O24: the contract is `State.layoutFits`; under it the fill reaches every byte of the region. -/
theorem qinitConstructsTheRingOrFaults : Obligations.QinitConstructsTheRingOrFaults := by
  refine fun s => ⟨fun hs hc hp => ⟨fun hfit => ?_, fun hfit => ?_⟩, configuresIn_qinit.pf5, configuresIn_qinit.pf6⟩
  · have ha := configuresIn_qinit.admits hs hc hp
    obtain ⟨t, hexec, heng, hacc, hfin, hframe, hdev, hmem⟩ := exec_qinit_constructs hs ha hfit
    have hbase : t.eng.qbase = zext64 s.eng.cfgPfn * zext64 s.eng.cfgPage := by rw [heng]; rfl
    obtain ⟨-, -, hend, -⟩ := hfit
    rw [← hbase] at hacc hframe hmem
    refine ⟨t, hexec, ?_, by rw [heng]; rfl, fun i hi => ?_, hacc, hfin, hframe, hdev, fun hq => ?_⟩
    · rw [hbase, toNat_mul_zext64 (by omega)]
    · exact Engine.signaled_of_allOnes (by rw [heng]; rfl) hi
    · have hzero : ∀ a, inBytes t.eng.qbase (ringPages * pageBytes) a → t.mem.read a = 0 := fun a hin => by
        rw [hmem hq]
        exact Memory.read_store_zeros _ _ hin
      refine ⟨hzero, ?_⟩
      rw [State.usedIndexNow_of_zeros hzero, heng]
      rfl
  · have ha := configuresIn_qinit.admits hs hc hp
    obtain ⟨-, hport, hphase, hlock, hslot⟩ := ha
    exact exec_contract (fun _ => rfl) hport hphase hlock hslot (qinitBody_of_not_fits hfit)

/-! ALLOC. -/

theorem producesOnRing_alloc : ProducesOnRing .alloc := ⟨fun _ => rfl, fun _ => rfl, rfl, rfl⟩
theorem producesOnRing_publish : ProducesOnRing .publish := ⟨fun _ => rfl, fun _ => rfl, rfl, rfl⟩

theorem toNat_zext64 (v : U16) : (zext64 v).toNat = v.toNat := BitVec.toNat_setWidth_of_le (by decide)

/-- With no chain begun the cursor is the head (R30). -/
theorem Engine.chainOk.nextFreeDesc_eq {e : Engine} (h : e.chainOk) (hlen : e.chainLen = 0) : e.nextFreeDesc = e.chainHead := by
  obtain ⟨-, hhead, -, hnext⟩ := h
  refine BitVec.eq_of_toNat_eq ?_
  rw [hnext, hlen]
  exact Nat.mod_eq_of_lt hhead

/-- Settles O25: ALLOC writes `R0` of its own port and completes, in the state in which it was taken up. -/
theorem allocReturnsTheNextFreeDescriptor : Obligations.AllocReturnsTheNextFreeDescriptor := by
  have hi := producesOnRing_alloc
  refine fun s => ⟨fun hs hc hp hl => ?_, hi.pf5, hi.pf6, hi.pf4⟩
  have ha := hi.admits hs hc hp hl
  obtain ⟨hcalm, hr, -⟩ := hs
  have r := Ran.refl hcalm
  obtain ⟨hacc, heng, hfin, hframe⟩ := r.completes_setR0 hr id .ok (zext64 s.eng.nextFreeDesc)
  refine ⟨_, exec_of_body_done rfl ha rfl, hacc, heng, hfin, fun hok => ⟨?_, hok.nextFreeDesc_eq⟩, hframe,
    r.deviceKept nofun rfl rfl⟩
  rw [toNat_zext64]
  exact hok.1

/-! PUBLISH. -/

theorem publishBody_of_not_closed {s : State} (h : s.eng.chainLen = 0 ∨ s.eng.chainOpen = true) :
    publishBody s = raise .pf2 s :=
  if_neg fun ⟨hlen, hclosed⟩ => h.elim (fun h => by simp [h] at hlen) fun h => by simp [h] at hclosed

/-- A ring entry and `avail.index` have no byte in common (spec/20_memory.md R79). -/
theorem Engine.availRing_apart_index (e : Engine) (v : U16) {x : Nat} (hring : inBytes (e.availRingAddr (modQ v)) 2 x) :
    ¬ inBytes e.availIndexAddr 2 x := by
  have hlt := modQ_lt v
  have hj : e.availRingAddr (modQ v) = e.availAddr + BitVec.ofNat 64 (4 + 2 * (modQ v).toNat) := by
    unfold Engine.availRingAddr zext64
    bv_omega
  rw [hj] at hring
  exact fun hindex => inBytes_disjoint (j := 2) hindex hring (by omega) (by omega)

/-- What PUBLISH has stored reads back: the index, and beside it the ring entry. -/
theorem load_published (m : Memory) (e : Engine) (idx head : U16) :
    let m' := (m.store (e.availRingAddr (modQ idx)) (leBytes 2 head.toNat)).store e.availIndexAddr (leBytes 2 (idx + 1).toNat)
    ofLE (m'.load e.availIndexAddr 2) = (idx.toNat + 1) % 65536 ∧ ofLE (m'.load (e.availRingAddr (modQ idx)) 2) = head.toNat := by
  intro m'
  have hindex : m'.load e.availIndexAddr 2 = leBytes 2 (idx + 1).toNat := Memory.load_store_same _ _ (leBytes 2 _) (by simp)
  have hring : m'.load (e.availRingAddr (modQ idx)) 2 = leBytes 2 head.toNat :=
    Memory.load_store_store m (bs := leBytes 2 head.toNat) (by simp)
      fun x hx => e.availRing_apart_index idx hx
  rw [hindex, hring, ofLE_leBytes_of_lt (idx + 1).isLt, ofLE_leBytes_of_lt head.isLt]
  exact ⟨BitVec.toNat_add _ _, rfl⟩

/-- PUBLISH where its checks and its contract hold (R164). -/
theorem exec_publish_commits {s : State} (hs : s.ready) (ha : s.admits .publish)
    (hclosed : 1 ≤ s.eng.chainLen.toNat ∧ s.eng.chainOpen = false) :
    ∃ (t : State) (idx : U16), exec .publish s = .next t
      ∧ t.accesses =
          [.memW s.eng.availIndexAddr 2 (idx + 1).toNat, .memW (s.eng.availRingAddr (modQ idx)) 2 s.eng.chainHead.toNat,
           .memR s.eng.availIndexAddr 2 idx.toNat] ++ s.accesses
      ∧ t.eng = s.eng.published
      ∧ s.finished t .ok (s.port s.cur).r0 (s.port s.cur).r1
      ∧ s.frame t (fun a => inBytes (s.eng.availRingAddr (modQ idx)) 2 a ∨ inBytes s.eng.availIndexAddr 2 a)
      ∧ s.deviceKept t
      ∧ (s.quiet → idx.toNat = ofLE (s.mem.load s.eng.availIndexAddr 2)
          ∧ ofLE (t.mem.load s.eng.availIndexAddr 2) = (idx.toNat + 1) % 65536
          ∧ ofLE (t.mem.load (s.eng.availRingAddr (modQ idx)) 2) = s.eng.chainHead.toNat) := by
  obtain ⟨hcalm, hr, -⟩ := hs
  obtain ⟨u, idx, r, hquiet, hbody⟩ := publishBody_spec hcalm hclosed
  obtain ⟨hacc, heng, hfin, hframe⟩ := r.completes hr Engine.published .ok
  refine ⟨_, idx, exec_of_body_done rfl ha hbody, hacc, heng, hfin, hframe,
    r.deviceKept (by simp [Event.isMmioW]) rfl rfl, fun hq => ?_⟩
  obtain ⟨hidx, hmem⟩ := hquiet hq
  rw [State.complete_mem, State.setEng_mem, hmem]
  refine ⟨?_, load_published s.mem s.eng idx s.eng.chainHead⟩
  rw [hidx, BitVec.toNat_ofNat]
  exact Nat.mod_eq_of_lt (ofLE_load_lt _ _ 2)

/-- Settles O27: the checks of a producer command, the contract, and else the three accesses of the body. -/
theorem publishCommitsTheChainOrFaults : Obligations.PublishCommitsTheChainOrFaults := by
  have hi := producesOnRing_publish
  refine fun s => ⟨fun hs hc hp hl hlen hclosed => ?_,
    fun hc hp hl hnot => hi.contract (fun _ => rfl) hc hp hl (publishBody_of_not_closed hnot), hi.pf5, hi.pf6, hi.pf4⟩
  obtain ⟨t, idx, hexec, hacc, heng, hrest⟩ := exec_publish_commits hs (hi.admits hs hc hp hl) ⟨hlen, hclosed⟩
  refine ⟨t, idx, hexec, hacc, ?_, ?_, fun h hne => ?_, hrest⟩ <;> rw [heng]
  · rfl
  · exact SMap.find?_insert_same _ _ _
  · exact SMap.find?_insert_other _ _ hne

/-! POLL. -/

theorem pending_eq_true_iff {u c : U16} : pending u c = true ↔ u ≠ c := bne_iff_ne

/-- Settles O28: the one access is the read of `used.index` after the environment's turn. -/
theorem pollComparesTheUsedIndexWithTheCursor : Obligations.PollComparesTheUsedIndexWithTheCursor := by
  refine fun s => ⟨fun hs hp => ?_, fun hp => exec_pf6 rfl (State.not_running_of_ringUp hp)⟩
  have ha : s.admits .poll := State.admits_of_ready hs rfl (State.running_of_ringUp hp) nofun rfl
  obtain ⟨hcalm, hr, -⟩ := hs
  obtain ⟨u, r, hbody⟩ := pollBody_spec hcalm
  obtain ⟨hacc, heng, hfin, hframe⟩ := r.completes_setR0 hr id .ok
    (if pending s.turn.usedIndexNow s.eng.lastConsumedUsed then 1 else 0)
  have hanswer : (if pending s.turn.usedIndexNow s.eng.lastConsumedUsed then (1 : U64) else 0)
      = if s.turn.usedIndexNow ≠ s.eng.lastConsumedUsed then 1 else 0 := if_congr pending_eq_true_iff rfl rfl
  rw [← hanswer]
  exact ⟨_, exec_of_body_done rfl ha hbody, hacc, heng, hfin, hframe, r.deviceKept (by simp [Event.isMmioW]) rfl rfl⟩

end Sys2Proof.Machine

/-! PROOF. INSTALL, WAIT, LOCK and UNLOCK (spec/42_slot_pool_ops.md R181, R184, R186, R187). -/

namespace Sys2Proof.Machine

theorem operatesOnSlot_install (slot : U16) : OperatesOnSlot (.install slot) slot := ⟨fun _ => rfl, rfl⟩
theorem operatesOnSlot_wait (slot : U16) : OperatesOnSlot (.wait slot) slot := ⟨fun _ => rfl, rfl⟩

/-! INSTALL. -/

theorem installBody_of_pending {slot : U16} {s : State} (h : s.eng.signaled slot.toNat = false) :
    installBody slot s = done .requestError s := if_pos h

theorem Engine.signaled_setPending (e : Engine) (i j : Nat) :
    ({ e with completion := setPending e.completion i } : Engine).signaled j = (e.signaled j && decide (j ≠ i)) := by
  have hset := getLsbD_setPending e.completion i j
  rwa [← decide_not, decide_eq_decide.mpr (not_congr (eq_comm (a := i)))] at hset

/-- INSTALL into a free slot (R181). -/
theorem exec_install_writes {slot : U16} {s : State} (hs : s.ready) (ha : s.admits (.install slot))
    (hfree : s.eng.signaled slot.toNat = true) :
    ∃ t, exec (.install slot) s = .next t
      ∧ t.accesses = byteWrites (s.payload slot) s.payloadBytes ++ s.accesses
      ∧ t.eng = { s.eng with completion := setPending s.eng.completion slot.toNat }
      ∧ s.finished t .ok (s.payload slot) (s.port s.cur).r1
      ∧ s.frame t (inBytes (s.payload slot) s.payloadBytes.length) ∧ s.deviceKept t
      ∧ (s.quiet → t.mem = s.mem.store (s.payload slot) s.payloadBytes) := by
  obtain ⟨hcalm, hr, -⟩ := hs
  obtain ⟨u, r, hmem, hbody⟩ := installBody_spec slot hcalm hfree
  obtain ⟨hacc, heng, hfin, hframe⟩ := r.completes_setR0 hr
    (fun e => { e with completion := setPending e.completion slot.toNat }) .ok (s.payload slot)
  exact ⟨_, exec_of_body_done rfl ha hbody, hacc, heng, hfin, hframe, r.deviceKept (byteWrites_isMmioW _ _) rfl rfl, hmem⟩

/-- Settles O31: the completion bit chooses between the byte writes and a completion on the spot. -/
theorem installWritesAFreeSlotOrRefuses : Obligations.InstallWritesAFreeSlotOrRefuses := by
  intro slot s
  have hi := operatesOnSlot_install slot
  have hport (hc : 1 ≤ s.cur) : contextAllows (.install slot) s.cur = true := State.submitter_ne hc
  refine ⟨fun hs hc hp hl hlt => ⟨fun hfree => ?_, fun hpend => ?_⟩,
    fun hc hp hl => hi.pf7 (hport hc) hp fun _ => hl, fun hc => exec_pf5 (bne_eq_false_iff_eq.mpr hc),
    fun hc => hi.pf6 (hport hc), fun hc hp hl => exec_pf4 (hport hc) (hi.phase_allows hp) rfl hl⟩
  · have ha := hi.admits hs (hport hc) hp (fun _ => hl) hlt
    obtain ⟨t, hexec, hacc, heng, hfin, hframe, hdev, hmem⟩ := exec_install_writes hs ha hfree
    refine ⟨t, hexec, hacc, by rw [heng], fun j _ => ?_, hfin, hframe, hdev, fun hq hlen => ?_⟩
    · rw [heng, Engine.signaled_setPending]
    · rw [hmem hq]
      exact Memory.load_store_same _ _ _ hlen
  · have ha := hi.admits hs (hport hc) hp (fun _ => hl) hlt
    obtain ⟨hcalm, hr, -⟩ := hs
    obtain ⟨hacc, heng, hfin, hframe⟩ := (Ran.refl hcalm).completes hr id .requestError
    exact ⟨_, exec_of_body_done rfl ha (installBody_of_pending hpend), hacc, heng, rfl, rfl, hfin, hframe⟩

/-! Completion and hold on the spot, which WAIT, LOCK and UNLOCK end in. -/

/-- A command that holds, as seen from its start: BUSY stays 1 and nothing but the hold of its port changes. -/
theorem State.holds_on_the_spot {s : State} (hs : s.ready) {w : Work} (hw : w ≠ .idle) :
    let t := s.setPort s.cur fun q => { q with work := w }
    t.port s.cur = { s.port s.cur with work := w } ∧ (t.port s.cur).busy = true ∧ s.frame t (fun _ => False) ∧ s.deviceKept t := by
  intro t
  have hown : t.port s.cur = { s.port s.cur with work := w } := State.port_setPort_same _ _ hs.2.1.1
  refine ⟨hown, ?_, State.frame_hold hs w, (Ran.refl hs.1).deviceKept nofun rfl rfl⟩
  rw [hown]
  exact bne_iff_ne.mpr hw

theorem exec_of_body_hold {i : Instr} {s : State} {body : State → Acc Unit} {w : Work} (hi : exec i s = command i body s)
    (ha : s.admits i) (hb : body s = hold w s) : exec i s = .next (s.setPort s.cur fun q => { q with work := w }) := by
  rw [hi, command_admitted body ha, hb]
  rfl

/-! WAIT. -/

theorem waitBody_of_signaled {slot : U16} {s : State} (h : s.eng.signaled slot.toNat = true) :
    waitBody slot s = done .ok s := if_pos h

theorem waitBody_of_pending {slot : U16} {s : State} (h : s.eng.signaled slot.toNat = false) :
    waitBody slot s = hold (.holdWait slot.toNat) s := if_neg (by simp [h])

/-- Settles O33: the completion bit chooses between completion and hold, both on the spot. -/
theorem waitCompletesOnASignalledSlotAndElseHolds : Obligations.WaitCompletesOnASignalledSlotAndElseHolds := by
  intro slot s
  have hi := operatesOnSlot_wait slot
  have hport (hc : 1 ≤ s.cur) : contextAllows (.wait slot) s.cur = true := State.submitter_ne hc
  refine ⟨fun hs hc hp hlt => ⟨fun hset => ?_, fun hpend => ?_⟩, fun hc hp => hi.pf7 (hport hc) hp nofun,
    fun hc => exec_pf5 (bne_eq_false_iff_eq.mpr hc), fun hc => hi.pf6 (hport hc)⟩
  · have ha := hi.admits hs (hport hc) hp nofun hlt
    obtain ⟨hcalm, hr, -⟩ := hs
    obtain ⟨hacc, heng, hfin, hframe⟩ := (Ran.refl hcalm).completes hr id .ok
    exact ⟨_, exec_of_body_done rfl ha (waitBody_of_signaled hset), hacc, heng, hfin, hframe,
      (Ran.refl hcalm).deviceKept nofun rfl rfl⟩
  · have ha := hi.admits hs (hport hc) hp nofun hlt
    exact ⟨_, exec_of_body_hold rfl ha (waitBody_of_pending hpend), rfl, rfl, State.holds_on_the_spot hs nofun⟩

/-! LOCK. -/

theorem lockBody_of_free {s : State} (h : s.eng.lock = .free) : lockBody s = done .ok (s.setLock (.held s.cur)) := by
  rw [lockBody, h]

theorem lockBody_of_held {s : State} (h : s.eng.lock ≠ .free) : lockBody s = hold .holdLock s := by
  unfold lockBody
  cases hl : s.eng.lock with
  | free => exact absurd hl h
  | held p => rfl

/-- Settles O34: the lock chooses between acquiring and holding, both on the spot. -/
theorem lockAcquiresAFreeLockAndElseHolds : Obligations.LockAcquiresAFreeLockAndElseHolds := by
  intro s
  have hport (hc : 1 ≤ s.cur) : contextAllows .lock s.cur = true := State.submitter_ne hc
  refine ⟨fun hs hc hp => ⟨fun hfree => ?_, fun hheld => ?_⟩, fun hc => exec_pf5 (bne_eq_false_iff_eq.mpr hc),
    fun hc hp => exec_pf6 (hport hc) (State.not_running_of_ringUp hp)⟩
  · have ha : s.admits .lock := State.admits_of_ready hs (hport hc) (State.running_of_ringUp hp) nofun rfl
    obtain ⟨hcalm, hr, -⟩ := hs
    obtain ⟨hacc, heng, hfin, hframe⟩ := (Ran.refl hcalm).completes hr (fun e => { e with lock := .held s.cur }) .ok
    exact ⟨_, exec_of_body_done rfl ha (lockBody_of_free hfree), hacc, heng, hfin, hframe,
      (Ran.refl hcalm).deviceKept nofun rfl rfl⟩
  · have ha : s.admits .lock := State.admits_of_ready hs (hport hc) (State.running_of_ringUp hp) nofun rfl
    exact ⟨_, exec_of_body_hold rfl ha (lockBody_of_held hheld), rfl, rfl, State.holds_on_the_spot hs nofun⟩

/-! UNLOCK. -/

theorem producesOnRing_unlock : ProducesOnRing .unlock := ⟨fun _ => rfl, fun _ => rfl, rfl, rfl⟩

theorem unlockBody_of_no_chain {s : State} (h : s.eng.chainLen = 0) : unlockBody s = done .ok s.unlocked :=
  if_pos (by rw [h]; rfl)

theorem unlockBody_of_chain {s : State} (h : s.eng.chainLen ≠ 0) : unlockBody s = raise .pf2 s :=
  if_neg fun hz => h (BitVec.eq_of_toNat_eq hz)

theorem State.unlocked_of_nobody {s : State} (h : ∀ q < s.ports.length, (s.port q).work ≠ .holdLock) :
    s.unlocked = s.setLock .free := by
  rw [State.unlocked, (choose_none_iff _ _).mpr (State.portsAt_nil.mpr h)]

theorem State.unlocked_of_choose {s u : State} {w : Nat} (h : choose (s.portsAt .holdLock) s = some (w, u)) :
    s.unlocked = (u.setLock (.held w)).complete w .ok := by
  rw [State.unlocked, h]

/-- Where somebody holds in LOCK, some holder is chosen, and choosing touches the arbiter's own fields alone. -/
theorem choose_holder {s : State} (h : ∃ q < s.ports.length, (s.port q).work = .holdLock) :
    ∃ (w : Nat) (cs : List Nat) (n : Nat), choose (s.portsAt .holdLock) s = some (w, { s with choices := cs, freeCount := n })
      ∧ w < s.ports.length ∧ (s.port w).work = .holdLock := by
  obtain ⟨q, hq⟩ := h
  cases hch : choose (s.portsAt .holdLock) s with
  | none =>
    have hmem := State.mem_portsAt.mpr hq
    rw [(choose_none_iff _ _).mp hch] at hmem
    exact nomatch hmem
  | some x =>
    obtain ⟨w, u⟩ := x
    obtain ⟨hmem, cs, n, rfl⟩ := choose_spec hch
    exact ⟨w, cs, n, rfl, State.mem_portsAt.mp hmem⟩

/-- The lock is handed to a port `w` other than the issuer, whose command then completes. -/
theorem State.handed_completes {s : State} (hcalm : s.calm) (hr : s.running) {w : Nat} (cs : List Nat) (n : Nat)
    (hlt : w < s.ports.length) (hw : (s.port w).work = .holdLock) :
    let t := ((({ s with choices := cs, freeCount := n } : State).setLock (.held w)).complete w .ok).complete s.cur .ok
    t.port w = { s.port w with err := .ok, work := .idle } ∧ (∀ q, q ≠ s.cur → q ≠ w → t.port q = s.port q)
      ∧ s.finished t .ok (s.port s.cur).r0 (s.port s.cur).r1 ∧ s.kept t (fun _ => False) ∧ s.deviceKept t := by
  intro t
  have hne : s.cur ≠ w := fun hc => by
    have hout := hr.2
    rw [hc, hw] at hout
    exact nomatch hout
  have r := Ran.refl hcalm
  set u := (({ s with choices := cs, freeCount := n } : State).setLock (.held w)).complete w .ok with hu
  have hport (q : Nat) : u.port q = if w = q ∧ w < s.ports.length then (s.port q).completed .ok else s.port q :=
    State.port_complete _ w q .ok
  have hlen : u.ports.length = s.ports.length := by simp [hu]
  have hown : u.port s.cur = s.port s.cur := by rw [hport, if_neg fun hc => hne hc.1.symm]
  refine ⟨?_, fun q hq hqw => ?_, r.finished hr .ok _ _ rfl hlen (by rw [hown]) (by rw [hown]),
    r.kept rfl rfl (by simp [t]) (fun q => ?_) rfl rfl, r.deviceKept nofun rfl rfl⟩
  · rw [State.port_complete_other _ _ (Ne.symm hne), hport, if_pos ⟨rfl, hlt⟩]
    rfl
  · rw [State.port_complete_other _ _ hq, hport, if_neg fun hc => hqw hc.1.symm]
  · rw [State.operandRegs_complete, State.operandRegs_complete]
    rfl

/-- Settles O35: `choose` finds a holder exactly where there is one, and any of them under some choices. -/
theorem unlockFreesTheLockOrHandsItToOneWaiter : Obligations.UnlockFreesTheLockOrHandsItToOneWaiter := by
  intro s
  have hi := producesOnRing_unlock
  refine ⟨fun hs hc hp hl hlen => ⟨fun hnobody => ?_, fun hsome => ?_, fun w hlt hw => ?_⟩,
    fun hc hp hl hlen => hi.contract (fun _ => rfl) hc hp hl (unlockBody_of_chain hlen), hi.pf5, hi.pf6, hi.pf4⟩
  all_goals
    have ha := hi.admits hs hc hp hl
    have hbody := unlockBody_of_no_chain hlen
  · rw [State.unlocked_of_nobody hnobody] at hbody
    obtain ⟨hcalm, hr, -⟩ := hs
    obtain ⟨hacc, heng, hfin, hframe⟩ := (Ran.refl hcalm).completes hr (fun e => { e with lock := .free }) .ok
    exact ⟨_, exec_of_body_done rfl ha hbody, hacc, heng, hfin, hframe, (Ran.refl hcalm).deviceKept nofun rfl rfl⟩
  · obtain ⟨w, cs, n, hch, hlt, hw⟩ := choose_holder hsome
    rw [State.unlocked_of_choose hch] at hbody
    obtain ⟨hcalm, hr, -⟩ := hs
    obtain ⟨hport, hothers, hfin, hkept⟩ := State.handed_completes hcalm hr cs n hlt hw
    exact ⟨_, w, exec_of_body_done rfl ha hbody, hlt, hw, by simp [State.accesses, Event.isAccess], rfl, hport, hothers, hfin, hkept⟩
  · obtain ⟨cs, u, hch⟩ := choose_any (s := s) (State.mem_portsAt.mpr ⟨hlt, hw⟩)
    have hbody : unlockBody { s with choices := cs } = done .ok ((u.setLock (.held w)).complete w .ok) :=
      (unlockBody_of_no_chain (s := { s with choices := cs }) hlen).trans (congrArg _ (State.unlocked_of_choose hch))
    exact ⟨cs, _, exec_of_body_done (s := { s with choices := cs }) rfl ha hbody, rfl⟩

end Sys2Proof.Machine

/-! PROOF. The handler (spec/43_protocol_ops.md R200): the status read and the acknowledge, then the loop between them and the
closing update, in any calm environment and in a quiet one. -/

namespace Sys2Proof.Machine

/-! The checks and the two ends. -/

theorem exec_irqh_pf5 {s : State} (hc : 1 ≤ s.cur) : exec .irqh s = .next (s.raise .pf5) :=
  exec_pf5 (beq_eq_false_iff_ne.mpr (Nat.one_le_iff_ne_zero.mp hc))

theorem exec_irqh_pf6 {s : State} (hc : s.cur = 0) (hp : s.eng.phase ≠ .live) : exec .irqh s = .next (s.raise .pf6) :=
  exec_pf6 (beq_iff_eq.mpr hc) (beq_eq_false_iff_ne.mpr hp)

theorem State.admits_irqh {s : State} (hnone : s.eng.pfault = none) (hc : s.cur = 0) (hp : s.eng.phase = .live) :
    s.admits .irqh := ⟨hnone, beq_iff_eq.mpr hc, beq_iff_eq.mpr hp, nofun, rfl⟩

theorem irqhBody_of_spurious {s : State} (h : s.calm) (hzero : s.turn.dev.interruptStatus = 0) :
    ∃ u, Ran s u (fun _ => False) [.mmioR s.cfg.off.interruptStatus 0] ∧ irqhBody s = done .noInterrupt u := by
  obtain ⟨u, hread, r⟩ := mmioRead_ran .interruptStatus h
  have hanswer : s.turn.dev.answer .interruptStatus = 0 := hzero
  rw [hanswer] at hread r
  exact ⟨u.turn, r.turn, by rw [irqhBody, hread, Acc.bind_ok, if_pos rfl, finish_calm _ _ r.calm]; rfl⟩

/-- Settles O36: with no cause pending the status read is the one access. -/
theorem irqhReportsASpuriousInterrupt : Obligations.IrqhReportsASpuriousInterrupt := by
  refine fun s => ⟨fun hs hc hp hzero => ?_, exec_irqh_pf5, exec_irqh_pf6⟩
  have ha := State.admits_irqh hs.2.2 hc hp
  obtain ⟨hcalm, hr, -⟩ := hs
  obtain ⟨u, r, hbody⟩ := irqhBody_of_spurious hcalm hzero
  obtain ⟨hacc, heng, hfin, hframe⟩ := r.completes hr id .noInterrupt
  exact ⟨_, exec_of_body_done rfl ha hbody, hacc, heng, hfin, hframe, r.deviceKept (by simp [Event.isMmioW]) rfl rfl⟩

/-- The rest of IRQH once the acknowledge is written. -/
def drainAndFinish (s : State) : Acc Unit :=
  (drain s.drainFuel 0 s).bind fun n s => finish .ok (fun s => s.setR0 (zext64 n)) s

theorem irqhBody_of_cause {s : State} (h : s.calm) (hne : s.turn.dev.interruptStatus ≠ 0) :
    ∃ v, Ran s v (fun _ => False)
        [.mmioW s.cfg.off.interruptAck s.turn.dev.interruptStatus, .mmioR s.cfg.off.interruptStatus s.turn.dev.interruptStatus]
      ∧ irqhBody s = drainAndFinish v := by
  obtain ⟨t, hread, r1⟩ := mmioRead_ran .interruptStatus h
  obtain ⟨v, hwrite, r2, -⟩ := mmioWrite_ran .interruptAck s.turn.dev.interruptStatus r1.calm
  have r := r1.trans' r2
  rw [r1.cfg] at r
  have hanswer : s.turn.dev.answer .interruptStatus = s.turn.dev.interruptStatus := rfl
  refine ⟨v, r, ?_⟩
  rw [irqhBody, hread, Acc.bind_ok, hanswer, if_neg hne, hwrite, Acc.bind_ok]
  rfl

theorem State.busy_of_outstanding {t : State} {p : Nat} (h : (t.port p).work = .outstanding) : (t.port p).busy = true := by
  rw [Port.busy, h]
  rfl

/-! Accesses, the loop, accesses again: the whole way from the start of IRQH to its closing update. -/

/-- From `s` the handler got to `u`: the accesses `es`, the iterations `xs`, the accesses `fs` (newest first each). -/
structure Handled (s u : State) (es : List Event) (xs : List Drain) (fs : List Event) : Prop where
  eng : u.eng = s.eng.drained (drainIds xs)
  cur : u.cur = s.cur
  arbiter : s.arbiterKept u
  length : u.ports.length = s.ports.length
  ports : ∀ q, (u.port q).hostChanged ((s.port q).released (drainIds xs))
  accesses : u.accesses = fs ++ (drainTrace s.eng s.eng.lastConsumedUsed xs ++ es ++ s.accesses)
  kept : s.kept u fun _ => False

theorem Handled.of_drained {s v w u : State} {es fs : List Event} {xs : List Drain} (r : Ran s v (fun _ => False) es)
    (d : Drained v w xs) (r2 : Ran w u (fun _ => False) fs) : Handled s u es xs fs where
  eng := by rw [r2.eng, d.eng, r.eng]
  cur := r2.cur.trans (d.cur.trans r.cur)
  arbiter := ⟨r2.choices.trans (d.choices.trans r.choices), r2.freeCount.trans (d.freeCount.trans r.freeCount)⟩
  length := r2.length.trans (d.length.trans r.length)
  ports q := Port.hostChanged_trans (r2.ports q) (Port.hostChanged_trans (d.ports q) (Port.hostChanged_released (r.ports q) _))
  accesses := by rw [r2.accesses, d.accesses, r.accesses, r.eng, List.append_assoc]
  kept := Drained.kept r d r2

section
variable {s u : State} {es fs : List Event} {xs : List Drain}

/-- The issuing port is not held, so no signal releases it. -/
theorem Handled.own_port (h : Handled s u es xs fs) (hr : s.running) : (u.port s.cur).hostChanged (s.port s.cur) := by
  have hports := h.ports s.cur
  rwa [Port.released_of_not_held fun i _ hc => by rw [hr.2] at hc; exact nomatch hc] at hports

theorem Handled.work (h : Handled s u es xs fs) (hr : s.running) : (u.port s.cur).work = .outstanding :=
  (((h.own_port hr).2.1 (State.busy_of_running hr)).1).trans hr.2

/-- The loop's signals are those of its iterations; its other accesses signal nothing. -/
theorem Handled.signals (h : Handled s u es xs fs) (hes : es.filterMap Event.signalled = [])
    (hfs : fs.filterMap Event.signalled = []) : u.signals = (drainIds xs).reverse ++ s.signals := by
  rw [State.signals, h.accesses]
  simp [hes, hfs, drainTrace_signalled, State.signals]

/-- IRQH at its end: the loop, then `R0` and completion. -/
theorem Handled.completes (h : Handled s u es xs fs) (hr : s.running) (v : U64) :
    let t := (u.setR0 v).complete u.cur .ok
    s.finished t .ok v (s.port s.cur).r1 ∧ s.kept t (fun _ => False) ∧ s.othersReleased t (drainIds xs) := by
  intro t
  have hlt : u.cur < u.ports.length := by rw [h.cur, h.length]; exact hr.1
  have hown : (u.setR0 v).port u.cur = { u.port u.cur with r0 := v } := by rw [State.port_setR0, if_pos ⟨rfl, hlt⟩]
  obtain ⟨⟨-, hr1, -⟩, -⟩ := h.own_port hr
  have hdone : t.port s.cur = { (u.port s.cur) with r0 := v, err := .ok, work := .idle } := by
    rw [← h.cur, State.port_complete, if_pos ⟨rfl, by simpa using hlt⟩, hown]
    rfl
  refine ⟨?_, State.kept_congr h.kept rfl rfl (by simp [t]) (fun q => ?_) rfl rfl, fun q hq => ?_⟩
  · rw [State.finished, hdone]
    refine ⟨rfl, rfl, rfl, hr1, ?_⟩
    rw [State.complete_history, hown, h.cur, List.head?_cons, ← hr1]
  · rw [State.operandRegs_complete, State.operandRegs_setR0]
  · rw [← h.cur] at hq
    rw [State.port_complete_other _ _ hq, State.port_setR0, if_neg fun hc => hq hc.1.symm]
    exact h.ports q

/-- IRQH at an id that names no slot: the loop, then PF7, the command not completed. -/
theorem Handled.faults (h : Handled s u es xs fs) (hr : s.running) (hnone : s.eng.pfault = none) :
    let t := (u.setEng Engine.advanced).raise .pf7
    t.eng = { s.eng.drained (drainIds xs) with
        lastConsumedUsed := (s.eng.drained (drainIds xs)).lastConsumedUsed + 1
        pfault := some .pf7, pfaultReg := t.eng.pfaultReg }
      ∧ (t.port s.cur).busy = true ∧ s.kept t (fun _ => False) ∧ s.othersReleased t (drainIds xs) := by
  intro t
  refine ⟨?_, State.busy_of_outstanding (h.work hr), State.kept_congr h.kept rfl rfl rfl (fun _ => rfl) rfl rfl,
    fun q _ => h.ports q⟩
  have hfault : (s.eng.drained (drainIds xs)).pfault = none := hnone
  simp [t, Engine.advanced, h.eng, hfault]

end

/-- Settles O37: `drain_spec` says how the loop ends, and `Handled` what the way there leaves as it was. -/
theorem irqhAcknowledgesAndDrainsEntryByEntry : Obligations.IrqhAcknowledgesAndDrainsEntryByEntry := by
  intro s hs hc hp hne
  have ha := State.admits_irqh hs.2.2 hc hp
  obtain ⟨hcalm, hr, hnone⟩ := hs
  obtain ⟨v, r, hbody⟩ := irqhBody_of_cause hcalm hne
  obtain ⟨xs, w, u, d, hsound, hend⟩ := drain_spec v.drainFuel 0 r.calm (drainNeed_le_fuel v)
  rw [r.eng] at hsound hend
  have hw : w.eng = s.eng.drained (drainIds xs) := by rw [d.eng, r.eng]
  obtain ⟨r2, hdrain⟩ | ⟨x, hindex, hid, r2, hdrain⟩ := hend
  · have h := Handled.of_drained r d r2.turn
    obtain ⟨hfin, hkept, hothers⟩ := h.completes hr (zext64 (BitVec.ofNat 32 xs.length))
    have hdone : irqhBody s = done .ok (u.turn.setR0 (zext64 (BitVec.ofNat 32 xs.length))) := by
      rw [hbody, drainAndFinish, hdrain, Acc.bind_ok, finish_calm _ _ r2.calm, zero_add]
    refine ⟨_, xs, exec_of_body_done rfl ha hdone, hsound, ?_, hkept, h.arbiter, hothers,
      .inl ⟨h.eng, ?_, hfin⟩⟩
    · have hsignals := h.signals rfl rfl
      simpa [State.signals] using hsignals
    · rw [State.accesses_complete, State.accesses_setR0, h.accesses, State.complete_eng, State.setR0_eng, h.eng, hw]
      rfl
  · have h := Handled.of_drained r d r2
    obtain ⟨heng, hbusy, hkept, hothers⟩ := h.faults hr hnone
    have hstop : irqhBody s = .stop (.next ((u.setEng Engine.advanced).raise .pf7)) := by
      rw [hbody, drainAndFinish, hdrain, Acc.bind_stop]
    refine ⟨_, xs, (command_admitted irqhBody ha).trans (congrArg Acc.result hstop), hsound, h.signals rfl rfl, hkept,
      h.arbiter, hothers, .inr ⟨x, Nat.not_lt.mp hid, ?_, heng, ?_, hbusy⟩⟩
    · rwa [← hw]
    · rw [← hw]
      exact h.accesses

/-! The whole run in a quiet environment. -/

/-- In a quiet environment the acknowledge clears every cause. -/
theorem irqhBody_quiet {s : State} (hq : s.quiet) (hne : s.dev.interruptStatus ≠ 0) :
    ∃ v : State, irqhBody s = drainAndFinish v ∧ v.dev = { s.dev with interruptStatus := 0 } ∧ v.signals = s.signals
      ∧ v.quiet ∧ v.eng = s.eng ∧ v.mem = s.mem ∧ v.cur = s.cur ∧ v.ports = s.ports ∧ v.cfg = s.cfg ∧ s.arbiterKept v := by
  refine ⟨((s.log (.mmioR s.cfg.off.interruptStatus s.dev.interruptStatus)).setDev
      (s.dev.react s.dev.interruptStatus .interruptAck)).log (.mmioW s.cfg.off.interruptAck s.dev.interruptStatus),
    ?_, ?_, rfl, hq, rfl, rfl, rfl, rfl, rfl, rfl, rfl⟩
  · rw [irqhBody, mmioRead_quiet _ hq, Acc.bind_ok, if_neg (show ¬ s.dev.answer .interruptStatus = 0 from hne),
      mmioWrite_quiet (s := s.log _) _ _ hq]
    rfl
  · simp [Device.react]

/-- What is unread depends on memory, the ring's base and the cursor. -/
theorem State.unreadIds_congr {s t : State} (hm : t.mem = s.mem) (he : t.eng = s.eng) :
    t.usedIndexNow = s.usedIndexNow ∧ t.unreadIds t.usedIndexNow = s.unreadIds s.usedIndexNow := by
  have hindex : t.usedIndexNow = s.usedIndexNow := State.usedIndexNow_congr hm (congrArg Engine.qbase he)
  exact ⟨hindex, by rw [hindex, State.unreadIds, State.unreadIds, hm, he]⟩

theorem State.length_unreadIds (s : State) (u : U16) : (s.unreadIds u).length = (u - s.eng.lastConsumedUsed).toNat := by
  rw [State.unreadIds, List.length_map, List.length_range]

/-- The cursor after as many entries as it was behind. -/
theorem Engine.drained_unread (s : State) (u : U16) : (s.eng.drained (s.unreadIds u)).lastConsumedUsed = u := by
  rw [Engine.drained, State.length_unreadIds, BitVec.ofNat_toNat, BitVec.setWidth_eq, BitVec.add_comm, BitVec.sub_add_cancel]

theorem zext64_ofNat_toNat (x : U16) : zext64 (BitVec.ofNat 32 x.toNat) = zext64 x := by
  have hx := x.isLt
  refine BitVec.eq_of_toNat_eq ?_
  simp only [zext64, BitVec.toNat_setWidth, BitVec.toNat_ofNat]
  omega

/-- `drain_quiet`, with the fuel that IRQH gives. -/
theorem drainAndFinish_quiet {v : State} (hq : v.quiet) (hids : ∀ id ∈ v.unreadIds v.usedIndexNow, id < qsize) :
    ∃ t : State, drainAndFinish v = done .ok (t.setR0 (zext64 (v.usedIndexNow - v.eng.lastConsumedUsed)))
      ∧ t.eng = v.eng.drained (v.unreadIds v.usedIndexNow) ∧ t.mem = v.mem ∧ t.dev = v.dev ∧ t.cur = v.cur
      ∧ v.arbiterKept t ∧ t.ports.length = v.ports.length
      ∧ (∀ q, t.port q = (v.port q).released (v.unreadIds v.usedIndexNow))
      ∧ t.signals = (v.unreadIds v.usedIndexNow).reverse ++ v.signals := by
  have hfuel : (v.usedIndexNow - v.eng.lastConsumedUsed).toNat < v.drainFuel := by
    have hlt := (v.usedIndexNow - v.eng.lastConsumedUsed).isLt
    rw [State.drainFuel]
    omega
  obtain ⟨t, hdrain, heng, hmem, hdev, hscript, hcur, -, hchoices, hfree, hlen, hports, hsignals⟩ :=
    drain_quiet _ v.drainFuel 0 v hq rfl hfuel hids
  refine ⟨t, ?_, heng, hmem, hdev, hcur, ⟨hchoices, hfree⟩, hlen, hports, hsignals⟩
  rw [drainAndFinish, hdrain, Acc.bind_ok, finish_quiet _ _ (hscript.trans hq), zero_add, zext64_ofNat_toNat]

/-- Settles O38: the loop of a quiet run consumes the unread entries, and the rest is what draining them does. -/
theorem irqhDrainsEveryUnreadEntry : Obligations.IrqhDrainsEveryUnreadEntry := by
  intro s hq hr hnone hc hp hne hids
  have ha := State.admits_irqh hnone hc hp
  obtain ⟨v, hbody, vdev, vsig, vq, veng, vmem, vcur, vports, vcfg, varb⟩ := irqhBody_quiet hq hne
  obtain ⟨hindex, hunread⟩ := State.unreadIds_congr vmem veng
  have vport (q : Nat) : v.port q = s.port q := by rw [State.port, State.port, vports, vcfg]
  rw [← hunread] at hids
  obtain ⟨t, hdrain, heng, hmem, hdev, hcur, harb, hlen, hports, hsignals⟩ := drainAndFinish_quiet vq hids
  rw [hunread] at heng hports hsignals
  rw [veng] at heng hdrain
  rw [hindex] at hdrain
  rw [vsig] at hsignals
  have hcur' : t.cur = s.cur := hcur.trans vcur
  have hown : t.port s.cur = s.port s.cur := by
    rw [hports, vport, Port.released_of_not_held fun i _ h => by rw [hr.2] at h; exact nomatch h]
  have hlt : t.cur < t.ports.length := by rw [hcur', hlen, vports]; exact hr.1
  refine ⟨_, exec_of_body_done rfl ha (hbody.trans hdrain), heng, ?_, fun j hj => ?_, fun h => ?_, ?_, ?_, hmem.trans vmem,
    hdev.trans vdev, State.finished_setR0 hcur' hlt hown _, fun q hqc => ?_, harb.1.trans varb.1, harb.2.trans varb.2⟩
  · simpa [State.signals] using hsignals
  · rw [State.complete_eng, State.setR0_eng, heng, Engine.signaled, Engine.drained, getLsbD_foldl_setSignaled,
      decide_eq_true hj, Bool.and_true]
    rfl
  · rw [State.complete_eng, State.setR0_eng, heng, Engine.drained, SMap.find?_erases]
  · rw [State.complete_eng, State.setR0_eng, heng, Engine.drained_unread]
  · have hnow : ((t.setR0 (zext64 (s.usedIndexNow - s.eng.lastConsumedUsed))).complete t.cur .ok).usedIndexNow = s.usedIndexNow :=
      State.usedIndexNow_congr (hmem.trans vmem) (by rw [State.complete_eng, State.setR0_eng, heng]; rfl)
    rw [State.setR0_cur, hnow, State.complete_eng, State.setR0_eng, heng, Engine.drained_unread, pending, bne_self_eq_false]
  · rw [← hcur'] at hqc
    rw [State.setR0_cur, State.port_complete_other _ _ hqc, State.port_setR0, if_neg fun h => hqc h.1.symm, hports, vport]

/-- Settles O39: the model's own bound covers the need, so every larger one does. -/
theorem theHandlersLoopEndsWithinItsBound : Obligations.TheHandlersLoopEndsWithinItsBound :=
  fun s fuel n hle => drain_enough fuel s.drainFuel n s ((drainNeed_le_fuel s).trans hle) (drainNeed_le_fuel s)

end Sys2Proof.Machine

/-! PROOF. Who writes what (spec/10_state.md R28 to R38, spec/20_memory.md R82, spec/43_protocol_ops.md R206): the engine's registers
after each outcome of a command, and the memory, parameters and operands it leaves as the environment made them. -/

namespace Sys2Proof.Machine

/-! The engine after a command. -/

/-- What a command may make of the engine's registers: one constructor per rule of the spec that writes them. -/
inductive EngineUpdate (s : State) : Instr → Engine → Prop where
  | kept {i : Instr} : EngineUpdate s i s.eng
  /-- R228. -/
  | raised {i : Instr} (pf : PF) : EngineUpdate s i (s.raise pf).eng
  /-- R33, the rows that change nothing besides. -/
  | phase {i : Instr} (ph : Phase) (hi : i = .negotiate ∨ (∃ q, i = .cfgring q) ∨ i = .drvok) (hc : s.cur ≠ 0) :
      EngineUpdate s i { s.eng with phase := ph }
  /-- R141. -/
  | negotiated (gf : U32) (hc : s.cur ≠ 0) :
      EngineUpdate s .negotiate { s.eng with features := gf, phase := .featuresOk }
  /-- R142. -/
  | configured (q : U16) (size page pfn : U32) (hc : s.cur ≠ 0) :
      EngineUpdate s (.cfgring q)
        { s.eng with cfgSize := size, cfgPage := page, cfgPfn := pfn, phase := .ringConfigured }
  /-- R162. -/
  | constructed (qb pool : U64) (hc : s.cur ≠ 0) :
      EngineUpdate s .qinit (Engine.constructed { s.eng with qbase := qb, poolBase := pool })
  /-- R163. -/
  | described (flags : U16) (cont : Bool) (hl : s.holdsLock) (hc : s.cur ≠ 0) :
      EngineUpdate s (.adddesc flags) (s.eng.described cont)
  /-- R164. -/
  | published (hl : s.holdsLock) (hc : s.cur ≠ 0) : EngineUpdate s .publish s.eng.published
  /-- R166. -/
  | taken (id : U32) : EngineUpdate s .take (s.eng.taken id)
  /-- R181. -/
  | installed (slot : U16) (hl : s.holdsLock) (hc : s.cur ≠ 0) :
      EngineUpdate s (.install slot) { s.eng with completion := setPending s.eng.completion slot.toNat }
  /-- R182. -/
  | signalled (slot : U16) :
      EngineUpdate s (.signal slot) { s.eng with completion := setSignaled s.eng.completion slot.toNat }
  /-- R186. -/
  | locked (h : s.eng.lock = .free) (hc : s.cur ≠ 0) : EngineUpdate s .lock { s.eng with lock := .held s.cur }
  /-- R187. -/
  | unlocked (l : Lock) (hl : s.holdsLock) (hc : s.cur ≠ 0) : EngineUpdate s .unlock { s.eng with lock := l }
  /-- R200, to its end. -/
  | drained (ids : List Nat) : EngineUpdate s .irqh (s.eng.drained ids)
  /-- R200, ended by PF7. -/
  | badId (ids : List Nat) : EngineUpdate s .irqh ((s.setEng fun e => (e.drained ids).advanced).raise .pf7).eng

theorem Outcome.engineUpdate {s t : State} {i : Instr} (h : Outcome s i t) : EngineUpdate s i t.eng := by
  cases h with
  | @fault _ pf => exact .raised pf
  | featureFail r _ _ hc | sizeTooSmall r _ _ hc | live r _ _ hc =>
    rw [State.complete_eng, State.setEng_eng, r.eng]
    exact .phase _ (by simp) hc
  | negotiated r _ _ hc =>
    rw [State.complete_eng, State.setR0_eng, State.setEng_eng, r.eng]
    exact .negotiated _ hc
  | configured r _ _ hc =>
    rw [State.complete_eng, State.setEng_eng, r.eng]
    exact .configured _ _ _ _ hc
  | constructed r _ _ hc =>
    rw [State.complete_eng, State.setEng_eng, r.eng]
    exact .constructed _ _ hc
  | described r _ hl hc =>
    rw [State.complete_eng, State.setEng_eng, r.eng]
    exact .described _ _ hl hc
  | published r _ hl hc =>
    rw [State.complete_eng, State.setEng_eng, r.eng]
    exact .published hl hc
  | installed r _ hl hc =>
    rw [State.complete_eng, State.setR0_eng, State.setEng_eng, r.eng]
    exact .installed _ hl hc
  | taken r =>
    rw [State.complete_eng, State.setR1_eng, State.setR0_eng, State.landed_advanced, State.setEng_eng, r.eng]
    exact .taken _
  | notified r | statusRead r | polled r | spurious r =>
    rw [State.complete_eng]
    exact r.eng ▸ .kept
  | allocated | got | collided | waited | waits | locks => exact .kept
  | signalled =>
    rw [State.complete_eng, (State.signalSlot_fields _ _).2.1]
    exact .signalled _
  | locked h hc => exact .locked h hc
  | freed hl hc | handed hl hc => exact .unlocked _ hl hc
  | drained r _ d _ r2 =>
    rw [State.complete_eng, State.setR0_eng, (Handled.of_drained r d r2).eng]
    exact .drained _
  | badId r _ d _ r2 =>
    rw [State.raise_eng, State.setEng_eng, State.setEng_cfg, (Handled.of_drained r d r2).eng, r2.cfg, d.cfg, r.cfg]
    exact .badId _

/-! One lemma per group of registers: in every other constructor the register stands as it was. -/

section
variable {s : State} {i : Instr} {e : Engine}

theorem EngineUpdate.writes_nextFreeDesc (h : EngineUpdate s i e) (hne : e.nextFreeDesc ≠ s.eng.nextFreeDesc) :
    i = .qinit ∨ ((∃ f, i = .adddesc f) ∧ s.holdsLock) := by
  cases h with
  | constructed => exact .inl rfl
  | described f _ hl => exact .inr ⟨⟨f, rfl⟩, hl⟩
  | _ => exact absurd rfl hne

theorem EngineUpdate.writes_cursor (h : EngineUpdate s i e) (hne : e.lastConsumedUsed ≠ s.eng.lastConsumedUsed) :
    i = .qinit ∨ i = .take ∨ i = .irqh := by
  cases h with
  | constructed => exact .inl rfl
  | taken => exact .inr (.inl rfl)
  | drained | badId => exact .inr (.inr rfl)
  | _ => exact absurd rfl hne

theorem EngineUpdate.writes_chain (h : EngineUpdate s i e)
    (hne : e.chainHead ≠ s.eng.chainHead ∨ e.chainLen ≠ s.eng.chainLen ∨ e.chainOpen ≠ s.eng.chainOpen) :
    i = .qinit ∨ (((∃ f, i = .adddesc f) ∨ i = .publish) ∧ s.holdsLock) := by
  cases h with
  | constructed => exact .inl rfl
  | described f _ hl => exact .inr ⟨.inl ⟨f, rfl⟩, hl⟩
  | published hl => exact .inr ⟨.inr rfl, hl⟩
  | _ => exact absurd hne (not_or.mpr ⟨not_not.mpr rfl, not_or.mpr ⟨not_not.mpr rfl, not_not.mpr rfl⟩⟩)

theorem EngineUpdate.writes_lock (h : EngineUpdate s i e) (hne : e.lock ≠ s.eng.lock) :
    i = .lock ∧ s.eng.lock = .free ∨ i = .unlock ∧ s.holdsLock := by
  cases h with
  | locked hfree => exact .inl ⟨rfl, hfree⟩
  | unlocked _ hl => exact .inr ⟨rfl, hl⟩
  | _ => exact absurd rfl hne

theorem EngineUpdate.writes_features (h : EngineUpdate s i e) (hne : e.features ≠ s.eng.features) : i = .negotiate := by
  cases h with
  | negotiated => rfl
  | _ => exact absurd rfl hne

theorem EngineUpdate.writes_latches (h : EngineUpdate s i e)
    (hne : e.cfgSize ≠ s.eng.cfgSize ∨ e.cfgPage ≠ s.eng.cfgPage ∨ e.cfgPfn ≠ s.eng.cfgPfn) : ∃ q, i = .cfgring q := by
  cases h with
  | configured q => exact ⟨q, rfl⟩
  | _ => exact absurd hne (not_or.mpr ⟨not_not.mpr rfl, not_or.mpr ⟨not_not.mpr rfl, not_not.mpr rfl⟩⟩)

theorem EngineUpdate.writes_bases (h : EngineUpdate s i e) (hne : e.qbase ≠ s.eng.qbase ∨ e.poolBase ≠ s.eng.poolBase) :
    i = .qinit := by
  cases h with
  | constructed => rfl
  | _ => exact absurd hne (not_or.mpr ⟨not_not.mpr rfl, not_not.mpr rfl⟩)

theorem EngineUpdate.writes_phase (h : EngineUpdate s i e) (hne : e.phase ≠ s.eng.phase) :
    i = .negotiate ∨ (∃ q, i = .cfgring q) ∨ i = .qinit ∨ i = .drvok := by
  cases h with
  | phase ph hi => exact hi.imp id (Or.imp id .inr)
  | negotiated => exact .inl rfl
  | configured q => exact .inr (.inl ⟨q, rfl⟩)
  | constructed => exact .inr (.inr (.inl rfl))
  | _ => exact absurd rfl hne

/-- A signalled slot becomes pending by INSTALL of that slot alone. -/
theorem EngineUpdate.clears_signaled (h : EngineUpdate s i e) {j : Nat} (hj : j < qsize) (hset : s.eng.signaled j = true)
    (hclear : e.signaled j = false) : (∃ slot : U16, i = .install slot ∧ slot.toNat = j ∧ s.holdsLock) ∧ s.cur ≠ 0 := by
  cases h with
  | installed slot hl hc =>
    rw [Engine.signaled_setPending, hset, Bool.true_and, decide_eq_false_iff_not, not_not] at hclear
    exact ⟨⟨slot, rfl, hclear.symm, hl⟩, hc⟩
  | constructed =>
    rw [Engine.signaled_of_allOnes rfl hj] at hclear
    exact nomatch hclear
  | signalled slot =>
    rw [Engine.signaled_setSignaled _ _ hj, hset] at hclear
    exact nomatch hclear
  | drained ids | badId ids =>
    have hkeep : (s.eng.drained ids).signaled j = true := by
      rw [Engine.signaled, Engine.drained, getLsbD_foldl_setSignaled, show s.eng.completion.getLsbD j = true from hset,
        Bool.true_or]
    exact absurd (hkeep.symm.trans hclear) nofun
  | _ => exact absurd (hset.symm.trans hclear) nofun

/-- A pending slot becomes signalled by QINIT, by IRQH, or by SIGNAL of that slot. -/
theorem EngineUpdate.sets_signaled (h : EngineUpdate s i e) {j : Nat} (hj : j < qsize) (hclear : s.eng.signaled j = false)
    (hset : e.signaled j = true) : i = .qinit ∨ i = .irqh ∨ ∃ slot : U16, i = .signal slot ∧ slot.toNat = j := by
  cases h with
  | constructed => exact .inl rfl
  | drained | badId => exact .inr (.inl rfl)
  | signalled slot =>
    rw [Engine.signaled_setSignaled _ _ hj, hclear, Bool.false_or, decide_eq_true_eq] at hset
    exact .inr (.inr ⟨slot, rfl, hset.symm⟩)
  | installed =>
    rw [Engine.signaled_setPending, hclear] at hset
    exact nomatch hset
  | _ => exact absurd (hclear.symm.trans hset) nofun

/-- A key joins the ghost map by PUBLISH of that head. -/
theorem EngineUpdate.joins_inflight (h : EngineUpdate s i e) {k : Nat} (hout : SMap.find? k s.eng.inflight = none)
    (hin : SMap.find? k e.inflight ≠ none) : i = .publish ∧ k = s.eng.chainHead.toNat := by
  cases h with
  | published =>
    refine ⟨rfl, ?_⟩
    by_contra hk
    exact hin ((SMap.find?_insert_other _ _ hk).trans hout)
  | constructed => exact absurd rfl hin
  | taken id => exact absurd (by rw [Engine.taken, SMap.find?_erase, hout, ite_self]) hin
  | drained ids | badId ids =>
    exact absurd (show SMap.find? k (s.eng.drained ids).inflight = none by
      rw [Engine.drained, SMap.find?_erases, hout, ite_self]) hin
  | _ => exact absurd hout hin

/-- A key leaves the ghost map by QINIT, TAKE or IRQH. -/
theorem EngineUpdate.leaves_inflight (h : EngineUpdate s i e) {k : Nat} (hin : SMap.find? k s.eng.inflight ≠ none)
    (hout : SMap.find? k e.inflight = none) : i = .qinit ∨ i = .take ∨ i = .irqh := by
  cases h with
  | constructed => exact .inl rfl
  | taken => exact .inr (.inl rfl)
  | drained | badId => exact .inr (.inr rfl)
  | published =>
    rw [Engine.published, SMap.find?_insert] at hout
    split_ifs at hout
    exact absurd hout hin
  | _ => exact absurd hout hin

/-- On port 0 only the consumer side and the fault registers can change. -/
theorem EngineUpdate.of_handler (h : EngineUpdate s i e) (hc : s.cur = 0) :
    e = { s.eng with
      lastConsumedUsed := e.lastConsumedUsed, completion := e.completion, inflight := e.inflight,
      pfault := e.pfault, pfaultReg := e.pfaultReg } := by
  cases h with
  | kept | raised | taken | signalled | drained | badId => rfl
  | phase _ _ hs | negotiated _ hs | configured _ _ _ _ hs | constructed _ _ hs | described _ _ _ hs | published _ hs
  | installed _ _ hs | locked _ hs | unlocked _ _ hs => exact absurd hc hs

end

/-! The fault registers. -/

theorem Ran.pfault {s u : State} {W : Nat → Prop} {es : List Event} (r : Ran s u W es) : u.eng.pfault = s.eng.pfault :=
  congrArg Engine.pfault r.eng

theorem Ran.pfaultReg {s u : State} {W : Nat → Prop} {es : List Event} (r : Ran s u W es) :
    u.eng.pfaultReg = s.eng.pfaultReg :=
  congrArg Engine.pfaultReg r.eng

/-- Either no fault register changes, or the command raised a fault, with its port still busy. -/
theorem Outcome.fault_registers {s t : State} {i : Instr} (hr : s.running) (h : Outcome s i t) :
    (t.eng.pfault = s.eng.pfault ∧ t.eng.pfaultReg = s.eng.pfaultReg)
    ∨ ∃ pf : PF, t.eng.pfault = some (s.eng.pfault.getD pf) ∧ (t.port s.cur).busy = true
      ∧ t.eng.pfaultReg = if s.cfg.debugAssert && pf.detected then s.eng.pfaultReg ||| BitVec.twoPow 16 pf.number
          else s.eng.pfaultReg := by
  cases h with
  | @fault _ pf => exact .inr ⟨pf, rfl, State.busy_of_running hr, rfl⟩
  | badId r _ d _ r2 =>
    have h := Handled.of_drained r d r2
    refine .inr ⟨.pf7, ?_, State.busy_of_outstanding (h.work hr), ?_⟩
    · rw [State.raise_eng, State.setEng_eng, h.eng]
      rfl
    · rw [State.raise_eng, State.setEng_eng, State.setEng_cfg, h.eng, r2.cfg, d.cfg, r.cfg]
      rfl
  | featureFail r | negotiated r | sizeTooSmall r | configured r | live r | notified r | statusRead r | constructed r
  | described r | published r | polled r | taken r | installed r | spurious r =>
    exact .inl ⟨r.pfault, r.pfaultReg⟩
  | allocated | got | collided | waited | waits | locked | locks | freed | handed => exact .inl ⟨rfl, rfl⟩
  | @signalled q =>
    obtain ⟨-, heng, -⟩ := State.signalSlot_fields s q.toNat
    exact .inl (by rw [State.complete_eng, heng]; exact ⟨rfl, rfl⟩)
  | drained r _ d _ r2 =>
    exact .inl (by rw [State.complete_eng, State.setR0_eng, (Handled.of_drained r d r2).eng]; exact ⟨rfl, rfl⟩)

/-- R37: the fault register changes once, from no fault. -/
theorem Outcome.writes_pfault {s t : State} {i : Instr} (hr : s.running) (h : Outcome s i t)
    (hne : t.eng.pfault ≠ s.eng.pfault) : s.eng.pfault = none ∧ t.eng.pfault ≠ none ∧ (t.port s.cur).busy = true := by
  obtain ⟨hsame, -⟩ | ⟨pf, hraised, hbusy, -⟩ := h.fault_registers hr
  · exact absurd hsame hne
  · cases hold : s.eng.pfault with
    | none => exact ⟨rfl, by rw [hraised]; exact nofun, hbusy⟩
    | some old =>
      rw [hold, Option.getD_some] at hraised
      exact absurd (hraised.trans hold.symm) hne

/-- R38: `PFAULT` changes with `DEBUG_ASSERT` alone, by the bit of a detected fault. -/
theorem Outcome.writes_pfaultReg {s t : State} {i : Instr} (hr : s.running) (h : Outcome s i t)
    (hne : t.eng.pfaultReg ≠ s.eng.pfaultReg) :
    s.cfg.debugAssert = true ∧ (t.port s.cur).busy = true
      ∧ ∃ pf : PF, pf ≠ .pf3 ∧ pf ≠ .pf8 ∧ (s.eng.pfault = none → t.eng.pfault = some pf)
        ∧ t.eng.pfaultReg = s.eng.pfaultReg ||| BitVec.twoPow 16 pf.number := by
  obtain ⟨-, hsame⟩ | ⟨pf, hraised, hbusy, hreg⟩ := h.fault_registers hr
  · exact absurd hsame hne
  · split_ifs at hreg with hdetect
    · rw [PF.detected_eq, Bool.and_eq_true, Bool.and_eq_true, decide_eq_true_eq, decide_eq_true_eq] at hdetect
      obtain ⟨hdebug, h3, h8⟩ := hdetect
      exact ⟨hdebug, hbusy, pf, h3, h8, fun hnone => by rw [hraised, hnone, Option.getD_none], hreg⟩
    · exact absurd hreg hne

/-- Settles O46: one lemma per group of registers. -/
theorem everyEngineRegisterHasItsWriters : Obligations.EveryEngineRegisterHasItsWriters := by
  intro i s t hcalm hr he
  have ho := exec_outcome hcalm hr he
  have hu := ho.engineUpdate
  exact ⟨hu.writes_nextFreeDesc, hu.writes_cursor, hu.writes_chain, hu.writes_lock, hu.writes_features, hu.writes_latches,
    hu.writes_bases, hu.writes_phase, ho.writes_pfault hr, ho.writes_pfaultReg hr,
    fun _ hj hset hclear => (hu.clears_signaled hj hset hclear).1, fun _ hj => hu.sets_signaled hj,
    fun _ => hu.joins_inflight, fun _ => hu.leaves_inflight⟩

/-! Memory, parameters and operand registers. -/

/-- The command stores to shared memory (R82): QINIT, ADDDESC, PUBLISH, INSTALL. -/
def Instr.stores (i : Instr) : Prop :=
  i = .qinit ∨ (∃ f, i = .adddesc f) ∨ i = .publish ∨ ∃ slot, i = .install slot

/-- Every outcome leaves memory, parameters and operand registers as the environment made them, but for those of the four
storing commands, which run on submitter ports. -/
theorem Outcome.kept_or_stores {s t : State} {i : Instr} (hcalm : s.calm) (hr : s.running) (h : Outcome s i t) :
    s.kept t (fun _ => False) ∨ (Instr.stores i ∧ s.cur ≠ 0) := by
  have r0 := Ran.refl hcalm
  cases h with
  | constructed _ _ _ hc => exact .inr ⟨.inl rfl, hc⟩
  | described _ _ _ hc => exact .inr ⟨.inr (.inl ⟨_, rfl⟩), hc⟩
  | published _ _ _ hc => exact .inr ⟨.inr (.inr (.inl rfl)), hc⟩
  | installed _ _ _ hc => exact .inr ⟨.inr (.inr (.inr ⟨_, rfl⟩)), hc⟩
  | fault => exact .inl (r0.kept rfl rfl rfl (fun _ => rfl) rfl rfl)
  | featureFail r | sizeTooSmall r | configured r | live r => exact .inl (r.frame_done _ _).1
  | notified r | spurious r => exact .inl (r.frame_done id _).1
  | negotiated r => exact .inl (r.frame_setR0 _ _ _).1
  | statusRead r | polled r => exact .inl (r.frame_setR0 id _ _).1
  | @taken _ _ id _ r => exact .inl (r.frame_setR1 (fun e => e.taken id) _ _ _).1
  | allocated => exact .inl (r0.frame_setR0 id .ok _).1
  | got => exact .inl (r0.frame_setR1 id .ok _ _).1
  | collided => exact .inl (r0.frame_done id _).1
  | waited => exact .inl (r0.frame_done id _).1
  | locked => exact .inl (r0.frame_done _ _).1
  | freed => exact .inl (r0.frame_done _ _).1
  | waits | locks =>
    refine .inl (r0.kept rfl rfl (by simp) (fun q => ?_) rfl rfl)
    rw [State.port_setPort]
    split_ifs <;> rfl
  | signalled =>
    obtain ⟨-, -, -, -, hkept, -⟩ := State.signalSlot_completes hcalm hr _
    exact .inl hkept
  | handed _ _ hw =>
    obtain ⟨hlt, hwork⟩ := State.mem_portsAt.mp hw
    obtain ⟨-, -, -, hkept, -⟩ := State.handed_completes hcalm hr _ _ hlt hwork
    exact .inl hkept
  | drained r _ d _ r2 => exact .inl ((Handled.of_drained r d r2).completes hr _).2.1
  | badId r _ d _ r2 =>
    exact .inl (State.kept_congr (Handled.of_drained r d r2).kept rfl rfl rfl (fun _ => rfl) rfl rfl)

/-- Settles O47: no update of a submitter's command and no storing command runs on port 0. -/
theorem theHandlerTouchesOnlyTheConsumerSide : Obligations.TheHandlerTouchesOnlyTheConsumerSide := by
  intro i s t hcalm hr hc he
  have ho := exec_outcome hcalm hr he
  refine ⟨ho.engineUpdate.of_handler hc, fun j hj hset => ?_, ?_⟩
  · by_contra hclear
    exact (ho.engineUpdate.clears_signaled hj hset (Bool.eq_false_of_not_eq_true hclear)).2 hc
  · obtain hkept | ⟨-, hsub⟩ := ho.kept_or_stores hcalm hr
    · exact hkept
    · exact absurd hc hsub

/-- Settles O49: the four commands are those that `Instr.stores` names. -/
theorem onlyFourCommandsStoreToMemory : Obligations.OnlyFourCommandsStoreToMemory := by
  intro i s t hcalm hr he hqinit hadddesc hpublish hinstall
  obtain hkept | ⟨hstores, -⟩ := (exec_outcome hcalm hr he).kept_or_stores hcalm hr
  · exact hkept
  · rcases hstores with h | ⟨f, h⟩ | h | ⟨slot, h⟩
    · exact absurd h hqinit
    · exact absurd h (hadddesc f)
    · exact absurd h hpublish
    · exact absurd h (hinstall slot)

/-! Results. -/

/-- How the issuing port stands after a command: still busy with its results as they were; or complete with `OK`, a result
register written only by a command that R113 lets return one; or complete with an error of its own and its results untouched. -/
def State.portEnds (i : Instr) (s t : State) : Prop :=
  ((t.port s.cur).busy = true ∧ (t.port s.cur).sameResults (s.port s.cur))
  ∨ (∃ r0 r1, s.finished t .ok r0 r1
      ∧ (r0 ≠ (s.port s.cur).r0 → i.opcode ∈ ([0x01, 0x05, 0x11, 0x14, 0x15, 0x20, 0x21, 0x30] : List (BitVec 8)))
      ∧ (r1 ≠ (s.port s.cur).r1 → i.opcode ∈ ([0x15, 0x20] : List (BitVec 8))))
  ∨ ∃ e, s.finished t e (s.port s.cur).r0 (s.port s.cur).r1
      ∧ ((i = .negotiate ∧ e = .featureFail) ∨ ((∃ q, i = .cfgring q) ∧ e = .ringSizeTooSmall)
        ∨ ((∃ slot, i = .install slot) ∧ e = .requestError) ∨ (i = .irqh ∧ e = .noInterrupt))

section
variable {s t : State} {i : Instr}

theorem State.portEnds_ok (h : s.finished t .ok (s.port s.cur).r0 (s.port s.cur).r1) : s.portEnds i t :=
  .inr (.inl ⟨_, _, h, fun hne => absurd rfl hne, fun hne => absurd rfl hne⟩)

theorem State.portEnds_r0 {v : U64} (h : s.finished t .ok v (s.port s.cur).r1)
    (hi : i.opcode ∈ ([0x01, 0x05, 0x11, 0x14, 0x15, 0x20, 0x21, 0x30] : List (BitVec 8))) : s.portEnds i t :=
  .inr (.inl ⟨v, _, h, fun _ => hi, fun hne => absurd rfl hne⟩)

theorem State.portEnds_r1 {v : U64} {w : U32} (h : s.finished t .ok v w) (hi : i = .take ∨ ∃ slot, i = .get slot) :
    s.portEnds i t := by
  refine .inr (.inl ⟨v, w, h, fun _ => ?_, fun _ => ?_⟩) <;> obtain rfl | ⟨slot, rfl⟩ := hi <;> simp [Instr.opcode]

theorem Outcome.portEnds (hcalm : s.calm) (hr : s.running) (h : Outcome s i t) : s.portEnds i t := by
  have r0 := Ran.refl hcalm
  have hbusy := State.busy_of_running hr
  cases h with
  | fault => exact .inl ⟨hbusy, rfl, rfl, rfl⟩
  | featureFail r => exact .inr (.inr ⟨_, r.finished_done hr _ _, .inl ⟨rfl, rfl⟩⟩)
  | sizeTooSmall r => exact .inr (.inr ⟨_, r.finished_done hr _ _, .inr (.inl ⟨⟨_, rfl⟩, rfl⟩)⟩)
  | collided => exact .inr (.inr ⟨_, r0.finished_done hr id _, .inr (.inr (.inl ⟨⟨_, rfl⟩, rfl⟩))⟩)
  | spurious r => exact .inr (.inr ⟨_, r.finished_done hr id _, .inr (.inr (.inr ⟨rfl, rfl⟩))⟩)
  | negotiated r | installed r => exact State.portEnds_r0 (r.finished_setR0 hr _ _ _) (by simp [Instr.opcode])
  | statusRead r | polled r => exact State.portEnds_r0 (r.finished_setR0 hr id _ _) (by simp [Instr.opcode])
  | allocated => exact State.portEnds_r0 (r0.finished_setR0 hr id _ _) (by simp [Instr.opcode])
  | @taken _ _ id _ r => exact State.portEnds_r1 (r.finished_setR1 hr (fun e => e.taken id) _ _ _) (.inl rfl)
  | got => exact State.portEnds_r1 (r0.finished_setR1 hr id _ _ _) (.inr ⟨_, rfl⟩)
  | configured r | live r | described r | published r => exact State.portEnds_ok (r.finished_done hr _ _)
  | constructed r => exact State.portEnds_ok (r.finished_done (show State.running (s.setEng _) from hr) _ _)
  | notified r => exact State.portEnds_ok (r.finished_done hr id _)
  | waited => exact State.portEnds_ok (r0.finished_done hr id _)
  | locked => exact State.portEnds_ok (r0.finished_done hr (fun e => { e with lock := .held s.cur }) _)
  | freed => exact State.portEnds_ok (r0.finished_done hr (fun e => { e with lock := .free }) _)
  | waits | locks =>
    refine .inl ?_
    rw [State.port_setPort_same _ _ hr.1]
    exact ⟨rfl, rfl, rfl, rfl⟩
  | signalled =>
    obtain ⟨-, -, hfin, -⟩ := State.signalSlot_completes hcalm hr _
    exact State.portEnds_ok hfin
  | handed _ _ hw =>
    obtain ⟨hlt, hwork⟩ := State.mem_portsAt.mp hw
    obtain ⟨-, -, hfin, -⟩ := State.handed_completes hcalm hr _ _ hlt hwork
    exact State.portEnds_ok hfin
  | drained r _ d _ r2 =>
    exact State.portEnds_r0 ((Handled.of_drained r d r2).completes hr _).1 (by simp [Instr.opcode])
  | badId r _ d _ r2 =>
    have hown := (Handled.of_drained r d r2).own_port hr
    refine .inl ⟨?_, hown.1⟩
    rw [Port.busy]
    exact (congrArg (· != Work.idle) (hown.2.1 hbusy).1).trans hbusy

end

/-- Settles O48: the three ways in which a command leaves its port. -/
theorem errorsAreRaisedByTheirCommandsAndLeaveResults : Obligations.ErrorsAreRaisedByTheirCommandsAndLeaveResults := by
  intro i s t hcalm hr he
  obtain ⟨hbusy, hsame⟩ | ⟨r0, r1, hfin, hi0, hi1⟩ | ⟨e, hfin, hi⟩ := (exec_outcome hcalm hr he).portEnds hcalm hr
  · obtain ⟨hr0, hr1, -⟩ := id hsame
    exact ⟨fun _ => hsame, fun hidle => absurd (hbusy.symm.trans hidle) nofun, fun _ => ⟨hr0, hr1⟩,
      fun hne => absurd hr0 hne, fun hne => absurd hr1 hne⟩
  · obtain ⟨herr, hidle, hr0, hr1, -⟩ := hfin
    rw [herr, hidle, hr0, hr1]
    exact ⟨nofun, fun _ => .inl rfl, fun hne => absurd rfl hne, hi0, hi1⟩
  · obtain ⟨herr, hidle, hr0, hr1, -⟩ := hfin
    rw [herr, hidle, hr0, hr1]
    exact ⟨nofun, fun _ => .inr hi, fun _ => ⟨rfl, rfl⟩, fun hne => absurd rfl hne, fun hne => absurd rfl hne⟩

end Sys2Proof.Machine

/-! PROOF. The accesses of a command (spec/20_memory.md R83) and the ports beside it (spec/42_slot_pool_ops.md R184, R186): what each
outcome adds to the accesses, and which holds it lifts. -/

namespace Sys2Proof.Machine

/-! Accesses. -/

theorem EngineUpdate.qbase_eq {s : State} {i : Instr} {e : Engine} (h : EngineUpdate s i e) (hi : i ≠ .qinit) :
    e.qbase = s.eng.qbase := by
  by_contra hne
  exact hi (h.writes_bases (.inl hne))

theorem EngineUpdate.poolBase_eq {s : State} {i : Instr} {e : Engine} (h : EngineUpdate s i e) (hi : i ≠ .qinit) :
    e.poolBase = s.eng.poolBase := by
  by_contra hne
  exact hi (h.writes_bases (.inr hne))

section
variable {s t : State} {i : Instr} {es : List Event}

/-- A field that a rule names before the command it names after it, the ring standing where it did. -/
theorem Outcome.names_after (ho : Outcome s i t) (hi : i ≠ .qinit) {B : Nat → Prop} (h : ∀ e ∈ es, s.names B e) :
    ∀ e ∈ es, t.names B e :=
  fun e he => State.names_congr (ho.engineUpdate.qbase_eq hi) ho.fixed.1 B e (h e he)

/-- Accesses none of which is a single byte. -/
theorem Outcome.names_fields (ho : Outcome s i t) (hi : i ≠ .qinit) (h : ∀ e ∈ es, s.names (fun _ => False) e) :
    ∀ e ∈ es, t.names (t.byteAddresses i) e :=
  fun e he => State.names_single e _ (ho.names_after hi h e he)

theorem Outcome.payload_eq (ho : Outcome s i t) (hi : i ≠ .qinit) (slot : U16) : t.payload slot = s.payload slot := by
  rw [State.payload, State.payload, ho.engineUpdate.poolBase_eq hi, ho.fixed.1]

/-- Every outcome adds named accesses alone. -/
theorem Outcome.adds_named_accesses (hok : s.eng.chainOk) (h : Outcome s i t) :
    ∃ evs, t.accesses = evs ++ s.accesses ∧ ∀ e ∈ evs, t.names (t.byteAddresses i) e := by
  have ho := h
  cases h with
  | featureFail r hn | sizeTooSmall r hn | configured r hn | live r hn | notified r hn | published r hn | spurious r hn
  | negotiated r hn | statusRead r hn | polled r hn | taken r hn =>
    exact ⟨_, (State.accesses_complete ..).trans r.accesses, ho.names_fields nofun hn⟩
  | described r hn =>
    obtain ⟨hnext, -⟩ := hok
    exact ⟨_, (State.accesses_complete ..).trans r.accesses, ho.names_fields nofun (hn hnext)⟩
  | @constructed u es W qb pool r hn =>
    have hbase : u.eng.qbase = qb := congrArg Engine.qbase r.eng
    refine ⟨_, (State.accesses_complete ..).trans r.accesses, fun e he => ?_⟩
    have hnamed := hn ((u.setEng Engine.constructed).complete u.cur .ok) e he
    rwa [← hbase] at hnamed
  | @installed u es W q v r hn =>
    refine ⟨_, (State.accesses_complete ..).trans r.accesses, ?_⟩
    rw [← ho.payload_eq nofun, ← ho.fixed.1] at hn
    exact ho.names_after nofun hn
  | fault | waits | locks => exact ⟨[], rfl, nofun⟩
  | allocated | got | collided | waited | locked | freed => exact ⟨[], State.accesses_complete .., nofun⟩
  | handed => exact ⟨[], (State.accesses_complete ..).trans (State.accesses_complete ..), nofun⟩
  | signalled hq =>
    obtain ⟨-, -, -, -, -, -, -, -, -, hacc⟩ := s.signalSlot_fields _
    exact ⟨[_], (State.accesses_complete ..).trans hacc, List.forall_mem_singleton.mpr hq⟩
  | @drained v w u es fs xs n r hn d hs r2 hn2 =>
    rw [r.eng] at hs
    refine ⟨fs ++ (drainTrace s.eng s.eng.lastConsumedUsed xs ++ es), ?_, ho.names_fields nofun fun e he => ?_⟩
    · rw [State.accesses_complete, State.accesses_setR0, (Handled.of_drained r d r2).accesses]
      simp only [List.append_assoc]
    · rcases List.mem_append.mp he with he | he
      · exact hn2 e he
      · exact (List.mem_append.mp he).elim (drainTrace_names _ xs hs e) (hn e)
  | @badId v w u es fs xs r hn d hs r2 hn2 =>
    rw [r.eng] at hs
    refine ⟨fs ++ (drainTrace s.eng s.eng.lastConsumedUsed xs ++ es), ?_, ho.names_fields nofun fun e he => ?_⟩
    · exact (Handled.of_drained r d r2).accesses.trans (List.append_assoc ..).symm
    · rcases List.mem_append.mp he with he | he
      · exact hn2 e he
      · exact (List.mem_append.mp he).elim (drainTrace_names _ xs hs e) (hn e)

end

/-- Settles O50: the accesses are those of the outcome. -/
theorem everyAccessIsAFieldTheRulesName : Obligations.EveryAccessIsAFieldTheRulesName :=
  fun _ _ _ hcalm hr hok he => (exec_outcome hcalm hr he).adds_named_accesses hok

/-! Ports beside the issuer. -/

/-- What a command may do to a port other than its own: software's changes, a WAIT released by a signal of its slot among
`ids`, or a LOCK that now owns the lock. -/
def State.besideIssuer (s t : State) (ids : List Nat) (q : Nat) : Prop :=
  (t.port q).hostChanged ((s.port q).released ids)
    ∨ ((s.port q).work = .holdLock ∧ t.port q = (s.port q).completed .ok ∧ t.eng.lock = .held q)

/-- The slots that `t` has signalled since `s` are `new`. -/
abbrev State.signalledSince (s t : State) (new : List Nat) : Prop := t.signals = new ++ s.signals

theorem State.signals_eq (s : State) : s.signals = s.accesses.filterMap Event.signalled := rfl

section
variable {s t : State} {i : Instr}

/-- Nothing else is signalled, and the other ports are as the accesses left them. -/
theorem Ran.beside {u : State} {W : Nat → Prop} {es : List Event} (r : Ran s u W es) (hacc : t.accesses = u.accesses)
    (hports : ∀ q, q ≠ u.cur → t.port q = u.port q) :
    ∃ new, s.signalledSince t new ∧ (∀ j ∈ ([] : List Nat), j ∈ new) ∧ ∀ q, q ≠ s.cur → s.besideIssuer t [] q := by
  refine ⟨es.filterMap Event.signalled, ?_, nofun, fun q hq => .inl ?_⟩
  · rw [State.signalledSince, State.signals_eq, hacc, r.accesses, List.filterMap_append, State.signals_eq]
  · rw [hports q (by rwa [r.cur])]
    exact r.ports q

theorem Handled.beside {u : State} {es fs : List Event} {xs : List Drain} (h : Handled s u es xs fs)
    (hacc : t.accesses = u.accesses) (hports : ∀ q, q ≠ u.cur → t.port q = u.port q) :
    ∃ new, s.signalledSince t new ∧ (∀ j ∈ drainIds xs, j ∈ new) ∧ ∀ q, q ≠ s.cur → s.besideIssuer t (drainIds xs) q := by
  refine ⟨fs.filterMap Event.signalled ++ ((drainIds xs).reverse ++ es.filterMap Event.signalled), ?_, fun j hj => ?_,
    fun q hq => .inl ?_⟩
  · rw [State.signalledSince, State.signals_eq, hacc, h.accesses]
    simp [drainTrace_signalled, State.signals_eq]
  · exact List.mem_append_right _ (List.mem_append_left _ (List.mem_reverse.mpr hj))
  · rw [hports q (by rwa [h.cur])]
    exact h.ports q

theorem State.port_setR0_other (s : State) (v : U64) {q : Nat} (hq : q ≠ s.cur) : (s.setR0 v).port q = s.port q := by
  rw [State.port_setR0, if_neg fun h => hq h.1.symm]

theorem State.port_setR1_other (s : State) (v : U32) {q : Nat} (hq : q ≠ s.cur) : (s.setR1 v).port q = s.port q := by
  rw [State.port_setR1, if_neg fun h => hq h.1.symm]

theorem State.port_setR1_setR0_other (s : State) (v : U64) (w : U32) {q : Nat} (hq : q ≠ s.cur) :
    ((s.setR0 v).setR1 w).port q = s.port q :=
  (State.port_setR1_other (s.setR0 v) w hq).trans (State.port_setR0_other s v hq)

/-- Every outcome signals some slots and does nothing else to the other ports, but for a lock handed on. -/
theorem Outcome.beside (hcalm : s.calm) (hr : s.running) (h : Outcome s i t) :
    ∃ ids new, s.signalledSince t new ∧ (∀ j ∈ ids, j ∈ new) ∧ ∀ q, q ≠ s.cur → s.besideIssuer t ids q := by
  have r0 := Ran.refl hcalm
  cases h with
  | featureFail r | sizeTooSmall r | configured r | live r | notified r | described r | published r | spurious r =>
    exact ⟨[], r.beside (State.accesses_complete ..) fun q hq => State.port_complete_other _ _ hq⟩
  | constructed r =>
    exact ⟨[], r.beside (State.accesses_complete ..) fun q hq => State.port_complete_other _ _ hq⟩
  | negotiated r | statusRead r | polled r | installed r =>
    exact ⟨[], r.beside (State.accesses_complete ..) fun q hq =>
      (State.port_complete_other _ _ hq).trans (State.port_setR0_other _ _ hq)⟩
  | taken r =>
    exact ⟨[], r.beside (State.accesses_complete ..) fun q hq =>
      (State.port_complete_other _ _ hq).trans (State.port_setR1_setR0_other _ _ _ hq)⟩
  | fault => exact ⟨[], r0.beside rfl fun _ _ => rfl⟩
  | allocated =>
    exact ⟨[], r0.beside (State.accesses_complete ..) fun q hq =>
      (State.port_complete_other _ _ hq).trans (State.port_setR0_other _ _ hq)⟩
  | got =>
    exact ⟨[], r0.beside (State.accesses_complete ..) fun q hq =>
      (State.port_complete_other _ _ hq).trans (State.port_setR1_setR0_other _ _ _ hq)⟩
  | collided | waited | locked | freed =>
    exact ⟨[], r0.beside (State.accesses_complete ..) fun q hq => State.port_complete_other _ _ hq⟩
  | waits | locks => exact ⟨[], r0.beside rfl fun q hq => State.port_setPort_other _ _ (Ne.symm hq)⟩
  | @signalled j =>
    obtain ⟨hacc, -, -, hports, -⟩ := State.signalSlot_completes hcalm hr j.toNat
    refine ⟨[j.toNat], [j.toNat], ?_, fun _ => id, fun q hq => .inl ?_⟩
    · rw [State.signalledSince, State.signals_eq, hacc]
      rfl
    · rw [hports q hq, Port.released_cons, Port.released_nil]
      exact Port.hostChanged_refl _
  | @handed w cs n _ _ hw =>
    obtain ⟨hlt, hwork⟩ := State.mem_portsAt.mp hw
    obtain ⟨hown, hothers, -⟩ := State.handed_completes hcalm hr cs n hlt hwork
    refine ⟨[], [], ?_, nofun, fun q hq => ?_⟩
    · rw [State.signalledSince, State.signals_eq, State.accesses_complete, State.accesses_complete]
      rfl
    · by_cases hqw : q = w
      · subst hqw
        exact .inr ⟨hwork, hown, rfl⟩
      · rw [State.besideIssuer, hothers q hq hqw]
        exact .inl (Port.hostChanged_refl _)
  | drained r _ d _ r2 =>
    exact ⟨_, (Handled.of_drained r d r2).beside (State.accesses_complete ..) fun q hq =>
      (State.port_complete_other _ _ hq).trans (State.port_setR0_other _ _ hq)⟩
  | badId r _ d _ r2 => exact ⟨_, (Handled.of_drained r d r2).beside rfl fun _ _ => rfl⟩

end

theorem State.busy_of_holding {s : State} {p : Nat} (h : s.holding p = true) : (s.port p).busy = true := by
  rw [Port.busy, bne_iff_ne]
  intro hidle
  rw [State.holding, hidle] at h
  exact nomatch h

/-- A step, seen from a port that holds. -/
theorem step_beside {s t : State} (hcalm : s.calm) (hst : step s = .next t) :
    ∃ ids new, s.signalledSince t new ∧ (∀ j ∈ ids, j ∈ new) ∧ ∀ q, s.holding q = true → s.turn.besideIssuer t ids q := by
  have se := State.sameEngine_turn (State.rstNext_calm hcalm)
  have hsig : s.turn.signals = s.signals := congrArg (List.filterMap Event.signalled) se.accesses
  obtain ⟨-, rfl | ⟨p, cs, n, -, hout, hvcalm, hvrun, hend⟩⟩ := step_calm hcalm hst
  · exact ⟨[], [], hsig, nofun, fun q _ => .inl (Port.hostChanged_refl _)⟩
  · have hne : ∀ q, s.holding q = true → q ≠ p := by
      rintro q hq rfl
      rw [State.holding, ← ((se.ports q).2.1 (State.busy_of_holding hq)).1, hout] at hq
      exact nomatch hq
    obtain ⟨i, -, ho⟩ | rfl := hend
    · obtain ⟨ids, new, hnew, hmem, hports⟩ := ho.beside hvcalm hvrun
      exact ⟨ids, new, hnew.trans (congrArg (new ++ ·) hsig), hmem, fun q hq => hports q (hne q hq)⟩
    · refine ⟨[], [], ?_, nofun, fun q hq => .inl ?_⟩
      · rw [State.signalledSince, State.signals_eq, State.accesses_complete]
        exact hsig
      · rw [State.port_complete_other _ _ (hne q hq)]
        exact Port.hostChanged_refl _

/-- Software alone does not touch what a busy port does. -/
theorem Port.hostChanged.same_hold {q r : Port} (h : q.hostChanged r) (hbusy : r.busy = true) :
    q.work = r.work ∧ q.sample = r.sample ∧ q.sameResults r :=
  ⟨(h.2.1 hbusy).1, (h.2.1 hbusy).2, h.1⟩

/-- Settles O51: `released` tells a WAIT that a signal lifted from one that still holds, and only a lock handed on lifts a
LOCK. -/
theorem holdsAreLiftedOnlyByTheirSignalOrTheLock : Obligations.HoldsAreLiftedOnlyByTheirSignalOrTheLock := by
  intro s t p hcalm hst _
  obtain ⟨ids, new, hnew, hmem, hports⟩ := step_beside hcalm hst
  have hturn := (State.sameEngine_turn (State.rstNext_calm hcalm)).ports p
  refine ⟨fun i hwork => ?_, fun hwork => ?_⟩
  · have hbusy : (s.port p).busy = true := by rw [Port.busy, hwork]; rfl
    obtain h | ⟨hlock, -⟩ := hports p (by rw [State.holding, hwork])
    · have hreleased := Port.hostChanged_trans h (Port.hostChanged_released hturn ids)
      by_cases hi : i ∈ ids
      · rw [Port.released_of_held hi hwork] at hreleased
        exact .inr ⟨hreleased, new, hnew, hmem i hi⟩
      · rw [Port.released_of_not_held fun j hj hc => hi (by rw [hwork] at hc; cases hc; exact hj)] at hreleased
        have hsame := hreleased.same_hold hbusy
        rw [hwork] at hsame
        exact .inl hsame
    · rw [(hturn.2.1 hbusy).1, hwork] at hlock
      exact nomatch hlock
  · have hbusy : (s.port p).busy = true := by rw [Port.busy, hwork]; rfl
    obtain h | ⟨-, hdone, hlock⟩ := hports p (by rw [State.holding, hwork])
    · have hreleased := Port.hostChanged_trans h (Port.hostChanged_released hturn ids)
      rw [Port.released_of_not_held fun j _ hc => by rw [hwork] at hc; exact nomatch hc] at hreleased
      have hsame := hreleased.same_hold hbusy
      rw [hwork] at hsame
      exact .inl hsame
    · exact .inr ⟨hdone, hlock⟩

end Sys2Proof.Machine

/-! PROOF. A hold with nothing to come (spec/70_reset_and_hazards.md R282), the device's answers (spec/60_exceptions.md R245)
and the bytes of the register block (spec/20_memory.md R71). -/

namespace Sys2Proof.Machine

/-! Nothing to come. -/

/-- With nothing to come, nothing outstanding and no fault, a step changes nothing. -/
theorem step_of_nothing_to_do {s : State} (hquiet : s.quiet) (hnone : s.eng.pfault = none)
    (hidle : ∀ q < s.ports.length, (s.port q).work ≠ .outstanding) : step s = .next s :=
  step_of_idle (point_quiet hquiet) hnone (takeUp_none.mpr hidle)

theorem State.after_of_step_self {s : State} (h : step s = .next s) (n : Nat) : State.after n s = some s := by
  induction n with
  | zero => rfl
  | succ n ih => rw [State.after, h]; exact ih

theorem State.port_mem {s : State} {p : Nat} (hp : p < s.ports.length) : s.port p ∈ s.ports := by
  rw [State.port, List.getElem?_eq_getElem hp]
  exact List.getElem_mem hp

/-- Settles O57: every later state is this one. -/
theorem aHoldWithNothingToComeIsStuck : Obligations.AHoldWithNothingToComeIsStuck := by
  intro s p hquiet hnone hidle hp hhold
  have hstep := step_of_nothing_to_do hquiet hnone hidle
  refine ⟨⟨hp, hhold, fun n => ⟨s, State.after_of_step_self hstep n, rfl⟩⟩, fun ⟨hfree, _⟩ => ?_⟩
  have hbusy := State.busy_of_holding hhold
  rw [hfree _ (State.port_mem hp)] at hbusy
  exact nomatch hbusy

/-! The device's answers. -/

theorem Device.status_react (d : Device) (v : U32) {r : WriteReg} (h : r ≠ .status) : (d.react v r).status = d.status := by
  cases r with
  | status => exact absurd rfl h
  | _ => rfl

/-- Settles O58: the clauses of `Device.react`, the acknowledge bit by bit. -/
theorem theDeviceAnswersWhatItHolds : Obligations.TheDeviceAnswersWhatItHolds := by
  refine fun d v => ⟨rfl, rfl, fun k hk => ?_, fun r hr => d.status_react v hr⟩
  show (d.interruptStatus &&& ~~~v).getLsbD k = _
  rw [BitVec.getLsbD_and, BitVec.getLsbD_not, decide_eq_true hk, Bool.true_and]
  rfl

/-! The register block. Each register has a place in the list of offsets, and different places are four bytes apart. -/

/-- The place of a readable register in the block. -/
def ReadReg.place : ReadReg → Nat
  | .magic => 0
  | .version => 1
  | .deviceId => 2
  | .vendorId => 3
  | .hostFeatures => 4
  | .queueNumMax => 10
  | .interruptStatus => 15
  | .status => 17

/-- The place of a writable register in the block. -/
def WriteReg.place : WriteReg → Nat
  | .hostFeaturesSel => 5
  | .guestFeatures => 6
  | .guestFeaturesSel => 7
  | .guestPageSize => 8
  | .queueSel => 9
  | .queueNum => 11
  | .queueAlign => 12
  | .queuePfn => 13
  | .queueNotify => 14
  | .interruptAck => 16
  | .status => 17
  | .queueDescLow => 18
  | .queueDescHigh => 19
  | .queueDriverLow => 20
  | .queueDriverHigh => 21
  | .queueDeviceLow => 22
  | .queueDeviceHigh => 23

theorem ReadReg.place_spec (c : Config) (r : ReadReg) : c.off.list[r.place]? = some (c.readOff r) := by cases r <;> rfl

theorem WriteReg.place_spec (c : Config) (r : WriteReg) : c.off.list[r.place]? = some (c.writeOff r) := by cases r <;> rfl

theorem ReadReg.place_inj {r r' : ReadReg} (h : r ≠ r') : r.place ≠ r'.place := by
  revert h
  cases r <;> cases r' <;> decide

theorem WriteReg.place_inj {r r' : WriteReg} (h : r ≠ r') : r.place ≠ r'.place := by
  revert h
  cases r <;> cases r' <;> decide

/-- The status register alone is both read and written. -/
theorem place_read_ne_write {r : ReadReg} {w : WriteReg} (h : w ≠ .status) : r.place ≠ w.place := by
  revert h
  cases r <;> cases w <;> decide

/-- Offsets at different places are four bytes or more apart. -/
theorem Offsets.distinct_apart {o : Offsets} (hd : o.distinct = true) {i j : Nat} {a b : U32} (hi : o.list[i]? = some a)
    (hj : o.list[j]? = some b) (hne : i ≠ j) : a.toNat + 4 ≤ b.toNat ∨ b.toNat + 4 ≤ a.toNat := by
  rw [Offsets.distinct, Bool.and_eq_true, decide_eq_true_eq, List.all_eq_true] at hd
  obtain ⟨hnodup, hfour⟩ := hd
  have aligned : ∀ v ∈ o.list, v.toNat % 4 = 0 := fun v hv => by
    have h := congrArg BitVec.toNat (eq_of_beq (hfour v hv))
    simpa using h
  have hab : a.toNat ≠ b.toNat := fun h => by
    rw [BitVec.eq_of_toNat_eq h] at hi
    exact hne ((List.getElem?_inj (List.getElem?_eq_some_iff.mp hi).1 hnodup).mp (hi.trans hj.symm))
  have ha := aligned a (List.mem_of_getElem? hi)
  have hb := aligned b (List.mem_of_getElem? hj)
  omega

/-- At the addresses of one place no byte of another shows. -/
theorem regByteAt_other_place {c : Config} (hd : c.off.distinct = true) {i j : Nat} {a b : U32} (hi : c.off.list[i]? = some a)
    (hj : c.off.list[j]? = some b) (hne : i ≠ j) (v : U32) {k : Nat} (hk : k < 4) :
    regByteAt (c.mmioAddr b) v (c.mmioAddr a + BitVec.ofNat 64 k) = none :=
  regByteAt_apart _ _ _ _ k hk (Offsets.distinct_apart hd hi hj hne)

/-- What alone in a list has an answer is what the search finds. -/
theorem findSome?_eq_of_unique {α β : Type} {f : α → Option β} {l : List α} {a : α} {b : β} (ha : a ∈ l) (hb : f a = some b)
    (hothers : ∀ c, c ≠ a → f c = none) : l.findSome? f = some b := by
  induction l with
  | nil => exact nomatch ha
  | cons c l ih =>
    rw [List.findSome?_cons]
    by_cases hc : c = a
    · rw [hc, hb]
    · rw [hothers c hc]
      exact ih ((List.mem_cons.mp ha).resolve_left (Ne.symm hc))

section
variable {s : State} (hd : s.cfg.off.distinct = true) {k : Nat} (hk : k < 4)
include hd hk

/-- At the addresses of a readable register stand its bytes. -/
theorem State.blockByte_readReg (r : ReadReg) :
    s.blockByte (s.cfg.mmioAddr (s.cfg.readOff r) + BitVec.ofNat 64 k) = some (regByte (s.dev.answer r) k) := by
  have hmem : r ∈ ReadReg.all := by cases r <;> decide
  have hread : ReadReg.all.findSome? (fun q => regByteAt (s.cfg.mmioAddr (s.cfg.readOff q)) (s.dev.answer q)
      (s.cfg.mmioAddr (s.cfg.readOff r) + BitVec.ofNat 64 k)) = some (regByte (s.dev.answer r) k) :=
    findSome?_eq_of_unique hmem (regByteAt_same _ _ k hk) fun q hq =>
      regByteAt_other_place hd (r.place_spec _) (q.place_spec _) (ReadReg.place_inj hq.symm) _ hk
  rw [State.blockByte, hread]
  rfl

/-- At the addresses of a register that is only written stand the bytes of what it holds. -/
theorem State.blockByte_writeReg {r : WriteReg} (hr : r ≠ .status) {v : U32} (hv : s.dev.stored r = some v) :
    s.blockByte (s.cfg.mmioAddr (s.cfg.writeOff r) + BitVec.ofNat 64 k) = some (regByte v k) := by
  have hmem : r ∈ WriteReg.all := by cases r <;> decide
  have hread : ReadReg.all.findSome? (fun q => regByteAt (s.cfg.mmioAddr (s.cfg.readOff q)) (s.dev.answer q)
      (s.cfg.mmioAddr (s.cfg.writeOff r) + BitVec.ofNat 64 k)) = none :=
    List.findSome?_eq_none_iff.mpr fun q _ =>
      regByteAt_other_place hd (r.place_spec _) (q.place_spec _) (place_read_ne_write hr).symm _ hk
  have hwrite : WriteReg.all.findSome? (fun q => (s.dev.stored q).bind fun x =>
      regByteAt (s.cfg.mmioAddr (s.cfg.writeOff q)) x (s.cfg.mmioAddr (s.cfg.writeOff r) + BitVec.ofNat 64 k))
        = some (regByte v k) := by
    refine findSome?_eq_of_unique hmem ?_ fun q hq => Option.bind_eq_none_iff.mpr fun x _ =>
      regByteAt_other_place hd (r.place_spec _) (q.place_spec _) (WriteReg.place_inj hq.symm) x hk
    rw [hv]
    exact regByteAt_same _ _ k hk
  rw [State.blockByte, hread, hwrite]
  rfl

end

/-- The four bytes of a register spell its value. -/
theorem ofLE_regBytes (v : U32) : ofLE ((List.range 4).map (regByte v)) = v.toNat := by
  have hv := v.isLt
  show ofLE [regByte v 0, regByte v 1, regByte v 2, regByte v 3] = _
  simp only [ofLE, regByte, BitVec.extractLsb'_toNat, Nat.shiftRight_eq_div_pow]
  omega

/-- Settles O54: at each of its four addresses the register's byte, whether it is read or only written. -/
theorem theRegisterBlockIsLittleEndian : Obligations.TheRegisterBlockIsLittleEndian := by
  intro s off v hd hreg base
  have hbyte : ∀ k < 4, s.blockByte (base + BitVec.ofNat 64 k) = some (regByte v k) := by
    intro k hk
    obtain ⟨r, rfl, rfl⟩ | ⟨r, rfl, hv⟩ := hreg
    · exact State.blockByte_readReg hd hk r
    · by_cases hr : r = .status
      · subst hr
        obtain rfl : s.dev.status = v := Option.some.inj hv
        exact State.blockByte_readReg hd hk .status
      · exact State.blockByte_writeReg hd hk hr hv
  refine ⟨?_, hbyte 1 (by decide), hbyte 2 (by decide), hbyte 3 (by decide), fun bytes hbytes => ?_⟩
  · rw [← BitVec.add_zero base]
    exact hbyte 0 (by decide)
  · have hmap : ((List.range 4).map (regByte v)).map some = bytes.map some := by
      rw [List.map_map, ← hbytes]
      exact List.map_congr_left fun k hk => (hbyte k (List.mem_range.mp hk)).symm
    rw [← List.map_injective_iff.mpr (Option.some_injective _) hmap, ofLE_regBytes]

end Sys2Proof.Machine

/-! PROOF. Runs in which the environment's moves are known point by point: NEGOTIATE (spec/40_control_register_ops.md R141) and
CFGRING (R142) beside a device that answers as it stands, and what happens between the last access and completion
(spec/20_memory.md R98). -/

namespace Sys2Proof.Machine

/-! A run, seen as its start `n` points later with another device, memory, history and ledger. What the environment does at
each point is read off the script of the start. -/

/-- `s` after `n` points of the environment, with what accesses and moves have made of the rest. -/
def State.movedOn (s : State) (n : Nat) (d : Device) (m : Memory) (h : List Event) (l : Ledger) : State :=
  { s with script := s.script.drop n, dev := d, mem := m, history := h, ledger := l }

/-- The environment's moves at point `n` from `s` on. -/
def State.movesAt (s : State) (n : Nat) : List Move := (s.script[n]?).getD []

theorem State.movesAt_quiet {s : State} (h : s.quiet) (n : Nat) : s.movesAt n = [] := by
  rw [State.movesAt, h]
  rfl

theorem Acc.bind_of_ok {α β : Type} {x : Acc α} {f : α → State → Acc β} {v : α} {t : State} {r : Acc β} (h : x = .ok v t)
    (hf : f v t = r) : x.bind f = r := by
  rw [h]
  exact hf

theorem Acc.bind_of_stop {α β : Type} {x : Acc α} {f : α → State → Acc β} {r : Result} (h : x = .stop r) :
    x.bind f = .stop r := by
  rw [h]
  rfl

section
variable {s : State} {n : Nat} {d : Device} {m : Memory} {h : List Event} {l : Ledger}

theorem State.turn_movedOn : (s.movedOn n d m h l).turn = (s.movedOn (n + 1) d m h l).applyMoves (s.movesAt n) := by
  rw [State.turn, State.movedOn, State.movedOn, State.movesAt]
  cases hn : s.script[n]? with
  | none =>
    have hle := List.getElem?_eq_none_iff.mp hn
    rw [List.drop_eq_nil_of_le hle, List.drop_eq_nil_of_le (Nat.le_succ_of_le hle)]
    rfl
  | some ms =>
    obtain ⟨hlt, rfl⟩ := List.getElem?_eq_some_iff.mp hn
    rw [List.drop_eq_getElem_cons hlt]
    rfl

theorem State.rstNext_movedOn : (s.movedOn n d m h l).rstNext = (s.movesAt n).any Move.isRst := by
  rw [State.rstNext, State.movedOn, State.movesAt]
  cases hn : s.script[n]? with
  | none =>
    rw [List.drop_eq_nil_of_le (List.getElem?_eq_none_iff.mp hn)]
    rfl
  | some ms =>
    obtain ⟨hlt, rfl⟩ := List.getElem?_eq_some_iff.mp hn
    rw [List.drop_eq_getElem_cons hlt]
    rfl

/-- A point at which no `RST` comes. -/
theorem point_movedOn (hn : (s.movesAt n).any Move.isRst = false) :
    point (s.movedOn n d m h l) = .ok () ((s.movedOn (n + 1) d m h l).applyMoves (s.movesAt n)) := by
  rw [point_of_not_rstNext (State.rstNext_movedOn.trans hn), State.turn_movedOn]

/-- A point at which nothing moves. -/
theorem point_idle (hn : s.movesAt n = []) : point (s.movedOn n d m h l) = .ok () (s.movedOn (n + 1) d m h l) := by
  rw [point_movedOn (by rw [hn]; rfl), hn]
  rfl

theorem mmioRead_idle (r : ReadReg) (hn : s.movesAt n = []) :
    ∃ l', mmioRead r (s.movedOn n d m h l)
      = .ok (d.answer r) (s.movedOn (n + 1) d m (.mmioR (s.cfg.readOff r) (d.answer r) :: h) l') :=
  ⟨_, Acc.bind_of_ok (point_idle hn) rfl⟩

theorem mmioWrite_idle (r : WriteReg) (v : U32) (hn : s.movesAt n = []) :
    ∃ l', mmioWrite r v (s.movedOn n d m h l)
      = .ok () (s.movedOn (n + 1) (d.react v r) m (.mmioW (s.cfg.writeOff r) v :: h) l') :=
  ⟨_, Acc.bind_of_ok (point_idle hn) rfl⟩

theorem memRead16_idle (a : U64) (hn : s.movesAt n = []) :
    ∃ l', memRead16 a (s.movedOn n d m h l)
      = .ok (BitVec.ofNat 16 (ofLE (m.load a 2))) (s.movedOn (n + 1) d m (.memR a 2 (ofLE (m.load a 2)) :: h) l') :=
  ⟨_, Acc.bind_of_ok (Acc.bind_of_ok (point_idle hn) rfl) rfl⟩

theorem memWrite_idle (a : U64) (k v : Nat) (hn : s.movesAt n = []) :
    ∃ l', memWrite a k v (s.movedOn n d m h l)
      = .ok () (s.movedOn (n + 1) d (m.store a (leBytes k v)) (.memW a k v :: h) l') :=
  ⟨_, Acc.bind_of_ok (point_idle hn) rfl⟩

theorem finish_idle (e : ErrVal) (f : State → State) (hn : s.movesAt n = []) :
    finish e f (s.movedOn n d m h l) = done e (f (s.movedOn (n + 1) d m h l)) :=
  Acc.bind_of_ok (point_idle hn) rfl

theorem setStatus_idle (bit : U32) (hn : s.movesAt n = []) (hn' : s.movesAt (n + 1) = []) :
    ∃ h' l', setStatus bit (s.movedOn n d m h l) = .ok () (s.movedOn (n + 2) { d with status := d.status ||| bit } m h' l') := by
  obtain ⟨l1, hread⟩ := mmioRead_idle (d := d) (m := m) (h := h) (l := l) .status hn
  obtain ⟨l2, hwrite⟩ := mmioWrite_idle (d := d) (m := m) (l := l1) (h := _ :: h) .status (d.status ||| bit) hn'
  exact ⟨_, l2, Acc.bind_of_ok hread hwrite⟩

/-- A state that has moved on finishes its command as its start. -/
theorem State.finished_movedOn (hr : s.running) (f : Engine → Engine) (e : ErrVal) :
    s.finished (((s.movedOn n d m h l).setEng f).complete s.cur e) e (s.port s.cur).r0 (s.port s.cur).r1 :=
  State.finished_complete (s := (s.movedOn n d m h l).setEng f) hr e

theorem State.finished_movedOn_setR0 (hr : s.running) (f : Engine → Engine) (v : U64) :
    s.finished ((((s.movedOn n d m h l).setEng f).setR0 v).complete s.cur .ok) .ok v (s.port s.cur).r1 :=
  State.finished_setR0 (s := s) (t := (s.movedOn n d m h l).setEng f) rfl hr.1 rfl v

end

/-! NEGOTIATE. -/

/-- How NEGOTIATE ends on the last status word `s4` (R141). -/
def negotiateEnd (gf s4 : U32) (s : State) : Acc Unit :=
  if s4 &&& s.cfg.stFeaturesOk = 0 then
    finish .featureFail (fun s => s.setEng fun e => { e with phase := .failed }) s
  else
    finish .ok (fun s => (s.setEng fun e => { e with features := gf, phase := .featuresOk }).setR0 (zext64 gf)) s

/-- The features both sides have: the device's word and the mask. -/
def State.commonFeatures (s : State) : U32 := s.dev.answer .hostFeatures &&& low32 s.operands.a0

/-- The device once status has been written. -/
def State.announced (s : State) (status : U32) : Device := { s.dev with status := status }

/-- The device once the guest features have been written too. -/
def State.offered (s : State) (status : U32) : Device :=
  { s.dev with status := status, guestFeatures := s.commonFeatures }

theorem setStatus_announced {s : State} {n : Nat} {m : Memory} {h : List Event} {l : Ledger} {status bit status' : U32}
    (hst : status ||| bit = status') (hn : s.movesAt n = []) (hn' : s.movesAt (n + 1) = []) :
    ∃ h' l', setStatus bit (s.movedOn n (s.announced status) m h l) = .ok () (s.movedOn (n + 2) (s.announced status') m h' l') := by
  subst hst
  exact setStatus_idle bit hn hn'

/-- The status word that the writes of NEGOTIATE build up. -/
def negotiatedStatus (c : Config) : U32 := c.stAcknowledge ||| c.stDriver ||| c.stFeaturesOk

/-- NEGOTIATE up to its last read, in an environment that is idle until then. -/
theorem negotiateBody_idle {s : State} (hidle : ∀ n < 9, s.movesAt n = []) :
    ∃ h l, negotiateBody s = (mmioRead .status (s.movedOn 9 (s.offered (negotiatedStatus s.cfg)) s.mem h l)).bind
      (negotiateEnd s.commonFeatures) := by
  obtain ⟨l0, h0⟩ := mmioWrite_idle (d := s.dev) (m := s.mem) (h := s.history) (l := s.ledger) .status 0 (hidle 0 (by decide))
  obtain ⟨e1, l1, h1⟩ := setStatus_announced (status := 0) (m := s.mem) (h := .mmioW s.cfg.off.status 0 :: s.history) (l := l0)
    (BitVec.zero_or (x := s.cfg.stAcknowledge)) (hidle 1 (by decide)) (hidle 2 (by decide))
  obtain ⟨e2, l2, h2⟩ := setStatus_announced (m := s.mem) (h := e1) (l := l1)
    (rfl : s.cfg.stAcknowledge ||| s.cfg.stDriver = _) (hidle 3 (by decide)) (hidle 4 (by decide))
  obtain ⟨l3, h3⟩ := mmioRead_idle (d := s.announced (s.cfg.stAcknowledge ||| s.cfg.stDriver)) (m := s.mem) (h := e2) (l := l2)
    .hostFeatures (hidle 5 (by decide))
  obtain ⟨l4, h4⟩ := mmioWrite_idle (d := s.announced (s.cfg.stAcknowledge ||| s.cfg.stDriver)) (m := s.mem)
    (h := .mmioR s.cfg.off.hostFeatures (s.dev.answer .hostFeatures) :: e2) (l := l3) .guestFeatures s.commonFeatures
    (hidle 6 (by decide))
  obtain ⟨e5, l5, h5⟩ := setStatus_idle (d := s.offered (s.cfg.stAcknowledge ||| s.cfg.stDriver)) (m := s.mem)
    (h := .mmioW s.cfg.off.guestFeatures s.commonFeatures :: .mmioR s.cfg.off.hostFeatures (s.dev.answer .hostFeatures) :: e2)
    (l := l4) s.cfg.stFeaturesOk (hidle 7 (by decide)) (hidle 8 (by decide))
  exact ⟨e5, l5, Acc.bind_of_ok h0 (Acc.bind_of_ok h1 (Acc.bind_of_ok h2 (Acc.bind_of_ok h3 (Acc.bind_of_ok h4
    (Acc.bind_of_ok h5 rfl)))))⟩

/-- A status word in which FEATURES_OK stands. -/
theorem negotiatedStatus_and {c : Config} (h : c.stFeaturesOk ≠ 0) : negotiatedStatus c &&& c.stFeaturesOk ≠ 0 := by
  have habsorb : negotiatedStatus c &&& c.stFeaturesOk = c.stFeaturesOk := by
    ext k hk
    simp only [negotiatedStatus, BitVec.getElem_and, BitVec.getElem_or]
    cases c.stFeaturesOk[k] <;> simp
  rwa [habsorb]

/-- The device withdraws FEATURES_OK. -/
theorem declined_and (v f : U32) : v &&& ~~~f &&& f = 0 := by
  ext k hk
  simp

/-- Settles O18: up to the last read nothing but the writes is done to the device, and that read decides. -/
theorem negotiationSucceedsUnlessTheDeviceDeclines : Obligations.NegotiationSucceedsUnlessTheDeviceDeclines := by
  refine fun s hr hnone hc hp hbit => ⟨fun hquiet => ?_, fun hscript => ?_⟩
  · have ha := configuresIn_negotiate.admits ⟨State.calm_of_quiet hquiet, hr, hnone⟩ hc hp
    have hidle := State.movesAt_quiet hquiet
    obtain ⟨h, l, hbody⟩ := negotiateBody_idle fun n _ => hidle n
    obtain ⟨l', hread⟩ := mmioRead_idle (d := s.offered (negotiatedStatus s.cfg)) (m := s.mem) (h := h) (l := l) .status (hidle 9)
    have hend := hbody.trans (Acc.bind_of_ok hread ((if_neg (negotiatedStatus_and hbit)).trans (finish_idle _ _ (hidle 10))))
    exact ⟨_, exec_of_body_done rfl ha hend, rfl, rfl, State.finished_movedOn_setR0 hr _ _, rfl⟩
  · have hcalm : s.calm := by
      rw [State.calm, hscript]
      simp [Move.isRst]
    have ha := configuresIn_negotiate.admits ⟨hcalm, hr, hnone⟩ hc hp
    have hidle : ∀ n < 9, s.movesAt n = [] := fun n hn => by
      rw [State.movesAt, hscript]
      interval_cases n <;> rfl
    have hdecline : s.movesAt 9 = [.devDecline] := by rw [State.movesAt, hscript]; rfl
    have hlast : s.movesAt 10 = [] := by rw [State.movesAt, hscript]; rfl
    obtain ⟨h, l, hbody⟩ := negotiateBody_idle hidle
    have hpoint : point (s.movedOn 9 (s.offered (negotiatedStatus s.cfg)) s.mem h l)
        = .ok () (s.movedOn 10 (s.offered (negotiatedStatus s.cfg &&& ~~~s.cfg.stFeaturesOk)) s.mem h l) := by
      rw [point_movedOn (by rw [hdecline]; rfl), hdecline]
      rfl
    have hend := hbody.trans (Acc.bind_of_ok (Acc.bind_of_ok hpoint rfl)
      ((if_pos (declined_and _ _)).trans (finish_idle _ _ hlast)))
    exact ⟨_, exec_of_body_done rfl ha hend, rfl, rfl, State.finished_movedOn hr _ _, rfl⟩

/-! CFGRING. -/

/-- A write to a register of the selected queue is to that queue alone. -/
theorem Device.queue_setQueue (d : Device) (k : Nat) (f : QueueRegs → QueueRegs) (q : Nat) :
    (d.setQueue k f).queue q = if q = k then f (d.queue k) else d.queue q := by
  rw [Device.queue, Device.setQueue, SMap.find?_insert]
  split_ifs <;> rfl

theorem toNat_zext32 (v : U16) : (zext32 v).toNat = v.toNat := BitVec.toNat_setWidth_of_le (by decide)

/-- The device with queue `index` selected. -/
def State.selecting (s : State) (index : U16) : Device := { s.dev with queueSel := zext32 index }

theorem State.answer_selecting (s : State) (index : U16) :
    (s.selecting index).answer .queueNumMax = (s.dev.queue index.toNat).max := by
  rw [← toNat_zext32 index]
  rfl

/-- The device with queue `index` selected and its size written. -/
def State.sized (s : State) (index : U16) (size : U32) : Device :=
  (s.selecting index).setQueue (zext32 index).toNat fun r => { r with num := size }

/-- The device with queue `index` selected and programmed. -/
def State.programmed (s : State) (index : U16) (size pageSize pfn : U32) : Device :=
  { s.sized index size with guestPageSize := pageSize }.setQueue (zext32 index).toNat fun r => { r with pfn := pfn }

theorem State.queue_sized (s : State) (index : U16) (size : U32) (q : Nat) :
    (s.sized index size).queue q
      = if q = index.toNat then { s.dev.queue index.toNat with num := size } else s.dev.queue q := by
  rw [State.sized, Device.queue_setQueue, toNat_zext32]
  rfl

theorem State.queue_programmed (s : State) (index : U16) (size pageSize pfn : U32) (q : Nat) :
    (s.programmed index size pageSize pfn).queue q
      = if q = index.toNat then { max := (s.dev.queue index.toNat).max, num := size, pfn := pfn } else s.dev.queue q := by
  rw [State.programmed, Device.queue_setQueue, toNat_zext32]
  show (if q = index.toNat then { (s.sized index size).queue index.toNat with pfn := pfn } else (s.sized index size).queue q) = _
  rw [State.queue_sized, State.queue_sized, if_pos rfl]
  split_ifs <;> rfl

/-- CFGRING of `s` past its second access, in the state `t`: the maximum read is that of the queue selected. -/
def cfgringEnd (s : State) (index : U16) (t : State) : Acc Unit :=
  if (s.dev.queue index.toNat).max < low32 s.operands.a0 then
    finish .ringSizeTooSmall (fun s => s.setEng fun e => { e with phase := .failed }) t
  else
    (mmioWrite .queueNum (low32 s.operands.a0) t).bind fun _ t =>
    (mmioWrite .guestPageSize (low32 s.operands.a1) t).bind fun _ t =>
    (mmioWrite .queuePfn (low32 s.operands.a2) t).bind fun _ t =>
    finish .ok (fun t => t.setEng fun e =>
      { e with cfgSize := low32 s.operands.a0, cfgPage := low32 s.operands.a1, cfgPfn := low32 s.operands.a2,
               phase := .ringConfigured }) t

theorem cfgringBody_idle {s : State} (index : U16) (h0 : s.movesAt 0 = []) (h1 : s.movesAt 1 = []) :
    ∃ h l, cfgringBody index s = cfgringEnd s index (s.movedOn 2 (s.selecting index) s.mem h l) := by
  obtain ⟨l0, hwrite⟩ := mmioWrite_idle (d := s.dev) (m := s.mem) (h := s.history) (l := s.ledger) .queueSel (zext32 index) h0
  obtain ⟨l1, hread⟩ := mmioRead_idle (d := s.selecting index) (m := s.mem)
    (h := .mmioW s.cfg.off.queueSel (zext32 index) :: s.history) (l := l0) .queueNumMax h1
  rw [State.answer_selecting] at hread
  exact ⟨_, l1, Acc.bind_of_ok hwrite (Acc.bind_of_ok hread rfl)⟩

/-- The three writes of CFGRING, in an environment that is idle. -/
theorem cfgringEnd_of_fits {s : State} {index : U16} {h : List Event} {l : Ledger} (hidle : ∀ n, s.movesAt n = [])
    (hfits : ¬ (s.dev.queue index.toNat).max < low32 s.operands.a0) :
    ∃ h' l', cfgringEnd s index (s.movedOn 2 (s.selecting index) s.mem h l)
      = done .ok ((s.movedOn 6 (s.programmed index (low32 s.operands.a0) (low32 s.operands.a1) (low32 s.operands.a2)) s.mem h' l').setEng
          fun e => { e with cfgSize := low32 s.operands.a0, cfgPage := low32 s.operands.a1, cfgPfn := low32 s.operands.a2,
                            phase := .ringConfigured }) := by
  obtain ⟨l1, h1⟩ := mmioWrite_idle (d := s.selecting index) (m := s.mem) (h := h) (l := l) .queueNum (low32 s.operands.a0) (hidle 2)
  obtain ⟨l2, h2⟩ := mmioWrite_idle (d := s.sized index (low32 s.operands.a0)) (m := s.mem)
    (h := .mmioW s.cfg.off.queueNum (low32 s.operands.a0) :: h) (l := l1) .guestPageSize (low32 s.operands.a1) (hidle 3)
  obtain ⟨l3, h3⟩ := mmioWrite_idle (d := { s.sized index (low32 s.operands.a0) with guestPageSize := low32 s.operands.a1 })
    (m := s.mem)
    (h := .mmioW s.cfg.off.guestPageSize (low32 s.operands.a1) :: .mmioW s.cfg.off.queueNum (low32 s.operands.a0) :: h) (l := l2)
    .queuePfn (low32 s.operands.a2) (hidle 4)
  exact ⟨_, l3, (if_neg hfits).trans (Acc.bind_of_ok h1 (Acc.bind_of_ok h2 (Acc.bind_of_ok h3 (finish_idle _ _ (hidle 5)))))⟩

/-- Settles O20: the selector decides which maximum is read and which queue is programmed. -/
theorem cfgringReadsTheSelectedQueuesMaximum : Obligations.CfgringReadsTheSelectedQueuesMaximum := by
  intro index s hquiet hr hnone hc hp
  have ha := (configuresIn_cfgring index).admits ⟨State.calm_of_quiet hquiet, hr, hnone⟩ hc hp
  have hidle := State.movesAt_quiet hquiet
  obtain ⟨h, l, hbody⟩ := cfgringBody_idle index (hidle 0) (hidle 1)
  refine ⟨fun hlt => ?_, fun hle => ?_⟩
  · have hend := hbody.trans ((if_pos (BitVec.lt_def.mpr hlt)).trans (finish_idle _ _ (hidle 2)))
    obtain ⟨herr, -⟩ := State.finished_movedOn (n := 3) (d := s.selecting index) (m := s.mem) (h := h) (l := l) hr
      (fun e => { e with phase := .failed }) .ringSizeTooSmall
    exact ⟨_, exec_of_body_done rfl ha hend, herr, rfl⟩
  · obtain ⟨h', l', hend⟩ := cfgringEnd_of_fits (h := h) (l := l) hidle (fun hlt => Nat.not_lt.mpr hle (BitVec.lt_def.mp hlt))
    have hqueue := s.queue_programmed index (low32 s.operands.a0) (low32 s.operands.a1) (low32 s.operands.a2)
    refine ⟨_, exec_of_body_done rfl ha (hbody.trans hend), ?_, rfl, rfl, (hqueue _).trans (if_pos rfl),
      fun q hq => (hqueue q).trans (if_neg hq), rfl⟩
    exact (State.finished_movedOn hr _ .ok).1

end Sys2Proof.Machine

/-! PROOF. What the environment does between the last access of a command and its completion (spec/20_memory.md R88, R98):
litmus cases at the fourth point of PUBLISH and of IRQH. -/

namespace Sys2Proof.Machine

theorem State.admits_publish {s : State} (hnone : s.eng.pfault = none) (hc : 1 ≤ s.cur) (hp : s.ringUp) (hl : s.holdsLock) :
    s.admits .publish :=
  ⟨hnone, producesOnRing_publish.context_allows hc, producesOnRing_publish.phase_allows hp, fun _ => hl, rfl⟩

/-- The memory that PUBLISH leaves when it has read `idx`. -/
def State.publishedMem (s : State) (idx : U16) : Memory :=
  (s.mem.store (s.eng.availRingAddr (modQ idx)) (leBytes 2 s.eng.chainHead.toNat)).store s.eng.availIndexAddr
    (leBytes 2 (idx + 1).toNat)

/-- The index that PUBLISH reads beside an idle environment. -/
def State.availIndexNow (s : State) : U16 := BitVec.ofNat 16 (ofLE (s.mem.load s.eng.availIndexAddr 2))

/-- PUBLISH up to its fourth point, the environment being idle until then. -/
theorem publishBody_idle {s : State} (hclosed : 1 ≤ s.eng.chainLen.toNat ∧ s.eng.chainOpen = false)
    (hidle : ∀ n < 3, s.movesAt n = []) :
    ∃ h l, publishBody s = finish .ok (fun s => s.setEng Engine.published)
      (s.movedOn 3 s.dev (s.publishedMem s.availIndexNow) (.memW s.eng.availIndexAddr 2 (s.availIndexNow + 1).toNat :: h) l) := by
  obtain ⟨l0, h0⟩ := memRead16_idle (d := s.dev) (m := s.mem) (h := s.history) (l := s.ledger) s.eng.availIndexAddr
    (hidle 0 (by decide))
  obtain ⟨l1, h1⟩ := memWrite_idle (d := s.dev) (m := s.mem) (l := l0)
    (h := .memR s.eng.availIndexAddr 2 (ofLE (s.mem.load s.eng.availIndexAddr 2)) :: s.history)
    (s.eng.availRingAddr (modQ s.availIndexNow)) 2 s.eng.chainHead.toNat (hidle 1 (by decide))
  obtain ⟨l2, h2⟩ := memWrite_idle (d := s.dev) (l := l1)
    (m := s.mem.store (s.eng.availRingAddr (modQ s.availIndexNow)) (leBytes 2 s.eng.chainHead.toNat))
    (h := .memW (s.eng.availRingAddr (modQ s.availIndexNow)) 2 s.eng.chainHead.toNat ::
      .memR s.eng.availIndexAddr 2 (ofLE (s.mem.load s.eng.availIndexAddr 2)) :: s.history)
    s.eng.availIndexAddr 2 (s.availIndexNow + 1).toNat (hidle 2 (by decide))
  exact ⟨_, l2, (if_pos hclosed).trans (Acc.bind_of_ok h0 (Acc.bind_of_ok h1 (Acc.bind_of_ok h2 rfl)))⟩

theorem State.drainFuel_ne_zero (s : State) : s.drainFuel ≠ 0 := by
  rw [State.drainFuel]
  omega

/-- The handler's loop with `used.index` at the cursor makes one read. -/
theorem drain_idle {s : State} {n : Nat} {d : Device} {h : List Event} {l : Ledger} (hn : s.movesAt n = [])
    (hnow : s.usedIndexNow = s.eng.lastConsumedUsed) {fuel : Nat} (hfuel : fuel ≠ 0) (k : U32) :
    ∃ h' l', drain fuel k (s.movedOn n d s.mem h l) = .ok k (s.movedOn (n + 1) d s.mem h' l') := by
  obtain ⟨fuel, rfl⟩ := Nat.exists_eq_succ_of_ne_zero hfuel
  obtain ⟨l', hread⟩ := memRead16_idle (d := d) (m := s.mem) (h := h) (l := l) s.eng.usedIndexAddr hn
  have hnot : ¬ pending s.usedIndexNow s.eng.lastConsumedUsed = true := fun hc => pending_eq_true_iff.mp hc hnow
  exact ⟨_, l', Acc.bind_of_ok hread (if_neg hnot)⟩

/-- IRQH up to its fourth point, with a cause, nothing to drain, and the environment idle until then. -/
theorem irqhBody_idle {s : State} (hidle : ∀ n < 3, s.movesAt n = []) (hcause : s.dev.interruptStatus ≠ 0)
    (hnow : s.usedIndexNow = s.eng.lastConsumedUsed) :
    ∃ d h l, irqhBody s = finish .ok (fun s => s.setR0 0) (s.movedOn 3 d s.mem h l) := by
  obtain ⟨l0, h0⟩ := mmioRead_idle (d := s.dev) (m := s.mem) (h := s.history) (l := s.ledger) .interruptStatus
    (hidle 0 (by decide))
  obtain ⟨l1, h1⟩ := mmioWrite_idle (d := s.dev) (m := s.mem) (l := l0)
    (h := .mmioR s.cfg.off.interruptStatus s.dev.interruptStatus :: s.history) .interruptAck s.dev.interruptStatus
    (hidle 1 (by decide))
  obtain ⟨h', l2, h2⟩ := drain_idle (d := s.dev.react s.dev.interruptStatus .interruptAck) (l := l1)
    (h := .mmioW s.cfg.off.interruptAck s.dev.interruptStatus ::
      .mmioR s.cfg.off.interruptStatus s.dev.interruptStatus :: s.history)
    (hidle 2 (by decide)) hnow (State.drainFuel_ne_zero _) 0
  exact ⟨_, h', l2, Acc.bind_of_ok h0 ((if_neg hcause).trans (Acc.bind_of_ok h1 (Acc.bind_of_ok h2 rfl)))⟩

/-- A script whose first three points are idle. -/
theorem State.idle_of_script {s : State} {rest : List (List Move)} (h : s.script = [] :: [] :: [] :: rest) :
    ∀ n < 3, s.movesAt n = [] := by
  intro n hn
  rw [State.movesAt, h]
  interval_cases n <;> rfl

/-- The moves of the fourth point. -/
theorem State.movesAt_three {s : State} {ms : List Move} {rest : List (List Move)} (h : s.script = [] :: [] :: [] :: ms :: rest) :
    s.movesAt 3 = ms := by
  rw [State.movesAt, h]
  rfl

/-- The index in memory after PUBLISH is one more than before. -/
theorem State.availIndex_published (s : State) :
    ofLE ((s.publishedMem s.availIndexNow).load s.eng.availIndexAddr 2) = (ofLE (s.mem.load s.eng.availIndexAddr 2) + 1) % 65536 := by
  obtain ⟨hindex, -⟩ := load_published s.mem s.eng s.availIndexNow s.eng.chainHead
  rw [State.publishedMem, hindex, State.availIndexNow, BitVec.toNat_ofNat, Nat.mod_add_mod]

/-- A device write of `used.index` reads back. -/
theorem usedIndexNow_store {t : State} {m : Memory} {v : U16}
    (h : t.mem = m.store t.eng.usedIndexAddr (leBytes 2 v.toNat)) : t.usedIndexNow = v := by
  have hload : t.mem.load t.eng.usedIndexAddr 2 = leBytes 2 v.toNat := by
    rw [h]
    exact Memory.load_store_same _ _ (leBytes 2 _) (by simp)
  rw [State.usedIndexNow, hload, ofLE_leBytes_of_lt v.isLt, BitVec.ofNat_toNat, BitVec.setWidth_eq]

/-- Settles O56: the moves of the fourth point, and then the closing update or none. -/
theorem theEnvironmentActsBetweenTheLastAccessAndCompletion :
    Obligations.TheEnvironmentActsBetweenTheLastAccessAndCompletion := by
  refine ⟨fun s a n hr hnone hc hp hl hlen hopen => ?_, fun s v hr hnone hc hp hcause hnow hscript => ?_⟩
  · have ha := State.admits_publish hnone hc hp hl
    refine ⟨fun hscript => ?_, fun hscript => ?_⟩
    · obtain ⟨h, l, hbody⟩ := publishBody_idle ⟨hlen, hopen⟩ (State.idle_of_script hscript)
      have hmove := State.movesAt_three hscript
      have hend := hbody.trans (Acc.bind_of_ok (point_movedOn (by rw [hmove]; rfl)) rfl)
      rw [hmove] at hend
      exact ⟨_, _, _, exec_of_body_done rfl ha hend, rfl⟩
    · obtain ⟨h, l, hbody⟩ := publishBody_idle ⟨hlen, hopen⟩ (State.idle_of_script hscript)
      have hmove := State.movesAt_three hscript
      have hpoint := point_of_rstNext (s := s.movedOn 3 s.dev (s.publishedMem s.availIndexNow)
        (.memW s.eng.availIndexAddr 2 (s.availIndexNow + 1).toNat :: h) l) (by rw [State.rstNext_movedOn, hmove]; rfl)
      rw [State.turn_movedOn, hmove] at hpoint
      have hend := congrArg Acc.result (hbody.trans (Acc.bind_of_stop hpoint))
      exact ⟨_, (command_admitted publishBody ha).trans hend, rfl, rfl, s.availIndex_published⟩
  · have ha := State.admits_irqh hnone hc hp
    obtain ⟨d, h, l, hbody⟩ := irqhBody_idle (State.idle_of_script hscript) hcause hnow
    have hmove := State.movesAt_three hscript
    have hend := hbody.trans (Acc.bind_of_ok (point_movedOn (by rw [hmove]; rfl)) rfl)
    rw [hmove] at hend
    refine ⟨_, exec_of_body_done rfl ha hend, ?_, rfl, usedIndexNow_store (m := s.mem) rfl⟩
    exact State.finished_setR0 (s := s)
      (t := (s.movedOn 4 d s.mem h l).deviceWrite s.eng.usedIndexAddr (leBytes 2 v.toNat)) rfl hr.1 rfl 0

end Sys2Proof.Machine

/-! PROOF. Who owns the payload and the buffers of a chain (spec/70_reset_and_hazards.md R274, R262; spec/20_memory.md R82, R89). -/

namespace Sys2Proof.Machine

/-! Duties: one byte that is not software's makes the write a breach. -/

section
variable {s : State} {addr : U64} {bytes : List Byte} {a : Nat} (ha : a ∈ addresses addr bytes.length)
include ha

theorem State.not_dutiful_of_byte
    (h : (s.pendingPayload a || s.installing a || s.publishing a || s.granted a) = true) :
    s.dutiful (.hostMemW addr bytes) = false := by
  refine List.all_eq_false.mpr ⟨a, ha, ?_⟩
  simp only [Bool.or_eq_true] at h
  obtain ((h | h) | h) | h := h <;> simp [h]

theorem State.not_dutiful_of_granted {g : Grant} (hg : g ∈ s.ledger.grants)
    (h : within g.payload s.cfg.reqBytes a = true ∨ ∃ b ∈ g.buffers, b.contains a = true) :
    s.dutiful (.hostMemW addr bytes) = false := by
  have hgranted : s.granted a = true :=
    List.any_eq_true.mpr ⟨g, hg, Bool.or_eq_true_iff.mpr (h.imp id List.any_eq_true.mpr)⟩
  exact State.not_dutiful_of_byte ha (by rw [hgranted, Bool.or_true])

/-- R82: a payload is the engine's from the issue of its INSTALL to the signal of its slot. -/
theorem State.not_dutiful_of_payload {slot : U16} (hup : s.ringUp) (hslot : slot.toNat < qsize)
    (h : s.eng.signaled slot.toNat = false
      ∨ ∃ p < s.ports.length, (s.port p).work = .outstanding ∧ decode (s.port p).sample.word = .instr (.install slot))
    (hin : within (s.payload slot) s.cfg.reqBytes a = true) : s.dutiful (.hostMemW addr bytes) = false := by
  have hrun := State.running_of_ringUp hup
  have hmem := List.mem_range.mpr hslot
  have hself : BitVec.ofNat 16 slot.toNat = slot := by simp
  obtain hpending | ⟨p, hp, hwork, hword⟩ := h
  · have hpayload : s.pendingPayload a = true := by
      rw [State.pendingPayload, hrun, Bool.true_and]
      exact List.any_eq_true.mpr ⟨slot.toNat, hmem, by rw [hself, hpending, hin]; rfl⟩
    exact State.not_dutiful_of_byte ha (by rw [hpayload]; rfl)
  · have hissued : s.ports.any (fun q => q.work == .outstanding && decode q.sample.word == .instr (.install slot)) = true :=
      List.any_eq_true.mpr ⟨s.port p, State.port_mem hp, by rw [hwork, hword, beq_self_eq_true, beq_self_eq_true]; rfl⟩
    have hinstalling : s.installing a = true := by
      rw [State.installing, hrun, Bool.true_and]
      exact List.any_eq_true.mpr ⟨slot.toNat, hmem, by rw [hself, hin, hissued]; rfl⟩
    exact State.not_dutiful_of_byte ha (by rw [hinstalling, Bool.or_true]; rfl)

/-- R89: the buffers of a chain are software's no more once the lock's owner has issued PUBLISH. -/
theorem State.not_dutiful_of_publishing {p k : Nat} (hup : s.ringUp) (hlock : s.eng.lock = .held p)
    (hwork : (s.port p).work = .outstanding) (hword : decode (s.port p).sample.word = .instr .publish)
    (hk : k < s.eng.chainLen.toNat) (hin : (s.bufferOf ((s.eng.chainHead.toNat + k) % qsize)).contains a = true) :
    s.dutiful (.hostMemW addr bytes) = false := by
  have hbuffer : s.chainBuffers.any (fun b => b.contains a) = true :=
    List.any_eq_true.mpr ⟨_, List.mem_map_of_mem (List.mem_map_of_mem (List.mem_range.mpr hk)), hin⟩
  have hpublishing : s.publishing a = true := by
    simp only [State.publishing, hlock]
    rw [State.running_of_ringUp hup, hwork, hword, hbuffer, beq_self_eq_true, beq_self_eq_true]
    rfl
  exact State.not_dutiful_of_byte ha (by rw [hpublishing, Bool.or_true]; rfl)

end

/-! The ledger. -/

/-- In a quiet environment a PUBLISH that meets its conditions gives its chain to the device. -/
theorem exec_publish_grant {s : State} (hquiet : s.quiet) (ha : s.admits .publish)
    (hclosed : 1 ≤ s.eng.chainLen.toNat ∧ s.eng.chainOpen = false) :
    ∃ t : State, exec .publish s = .next t ∧ t.ledger.grants = s.granting t :: s.ledger.grants ∧ t.cfg = s.cfg := by
  obtain ⟨u, hbody, qu, hgrants⟩ := publishBody_grant hquiet hclosed
  exact ⟨_, exec_of_body_done rfl ha hbody, (State.grants_complete _ _ _).trans hgrants, qu.cfg⟩

/-- A signal of a slot not in flight takes back the chains with that head. -/
theorem exec_signal_grants {slot : U16} {s : State} (ha : s.admits (.signal slot))
    (hout : ∀ c ∈ s.eng.inflight, c.1 ≠ slot.toNat) :
    ∃ t, exec (.signal slot) s = .next t ∧ ∀ g, g ∈ t.ledger.grants ↔ g ∈ s.ledger.grants ∧ g.head ≠ slot.toNat := by
  refine ⟨_, exec_of_body_done rfl ha (signalBody_of_not_inFlight hout), fun g => ?_⟩
  rw [State.grants_complete, State.grants_signalSlot, List.mem_filter, bne_iff_ne]

/-- A write of 0 to status takes back everything, the ring region too. -/
theorem mmioWrite_status_zero_ledger {s : State} (h : s.quiet) :
    ∃ t, mmioWrite .status 0 s = .ok () t ∧ t.ledger = Ledger.empty :=
  ⟨_, mmioWrite_quiet .status 0 h, if_pos ⟨rfl, rfl⟩⟩

/-- Settles O55: what each event does to the ledger, and which clause of software's duties a write breaks. -/
theorem buffersAreTheDevicesFromPublishToSignal : Obligations.BuffersAreTheDevicesFromPublishToSignal := by
  refine ⟨fun s hquiet hr hnone hc hp hl hlen hopen => ?_, fun slot s hs hc hp hlt hout => ?_,
    fun s slot addr bytes a hp hlt h ha hin => State.not_dutiful_of_payload ha hp hlt h hin,
    fun s p addr bytes a k hp hlock hwork hword hk hin ha => State.not_dutiful_of_publishing ha hp hlock hwork hword hk hin,
    fun s hquiet => ?_⟩
  · obtain ⟨t, hexec, hgrants, hcfg⟩ := exec_publish_grant hquiet (State.admits_publish hnone hc hp hl) ⟨hlen, hopen⟩
    refine ⟨t, s.granting t, hexec, hgrants, rfl, rfl, rfl, rfl, rfl, rfl, fun addr bytes a ha hin => ?_, rfl⟩
    exact State.not_dutiful_of_granted ha (by rw [hgrants]; exact List.mem_cons_self) (by rw [hcfg]; exact hin)
  · have hport : contextAllows (.signal slot) s.cur = true := beq_iff_eq.mpr hc
    exact exec_signal_grants ((operatesOnSlot_signal slot).admits hs hport hp nofun hlt) hout
  · obtain ⟨t, hwrite, hledger⟩ := mmioWrite_status_zero_ledger hquiet
    exact ⟨t, hwrite, by rw [hledger]; rfl, by rw [hledger]; rfl⟩

end Sys2Proof.Machine
